-- ==== Sys2Proof/Word.lean ====
section
/-! DEFINITION. The words of the block and its data model: bytes, 16-bit words, the time base, and the two
descriptors, Request and Response (10_state.md R20 to R23). Nothing here computes more than the plainest arithmetic. -/

namespace Sys2Proof

/-- u8 (00_scope.md R9). -/
abbrev Byte := BitVec 8

/-- u16 (00_scope.md R9). -/
abbrev Word := BitVec 16

/-- uTW with `TW = 32` (00_scope.md R5, decision D3): a time sample, a time register or a threshold. -/
abbrev Time := BitVec 32

/-- uRETRYW with `RETRYW = 8` (00_scope.md R5, decision D4). -/
abbrev Retry := BitVec 8

/-- The role of an instance, fixed when it is built (00_scope.md R2). -/
inductive Role where
  | master
  | slave
deriving DecidableEq, Repr

/-- A Request descriptor (10_state.md R20). Which fields carry meaning depends on `fn` (R21). -/
structure Request where
  slave   : Byte
  fn      : Byte
  addr    : Word := 0
  qty     : Word := 0
  values  : List Word := []
  file    : Word := 0
  recno   : Word := 0
  reclen  : Word := 0
  retries : Retry := 0
deriving DecidableEq, Repr

/-- The Normal variant of a Response (10_state.md R22). -/
structure Normal where
  slave  : Byte
  fn     : Byte
  addr   : Word := 0
  qty    : Word := 0
  values : List Word := []
deriving DecidableEq, Repr

/-- The Exception variant of a Response (10_state.md R22): `fn` is the function byte as it stands on the wire. -/
structure ExceptionRsp where
  slave : Byte
  fn    : Byte
  code  : Byte
deriving DecidableEq, Repr

/-- A Response is a tagged value with exactly two variants (10_state.md R22). -/
inductive Response where
  | normal (p : Normal)
  | exception (e : ExceptionRsp)
deriving DecidableEq, Repr

end Sys2Proof
end

