-- ==== Sys2Proof/Config.lean ====
section
/-! DEFINITION. What an implementation fixes, and the free values. The constants are those of 00_scope.md R5; the
function and exception numbers are one table each (30_encoding.md R96, 60_exceptions.md R310; log 14). The free values
are the oracle's answers past the end of the lists that State holds (46_transport_and_host.md R294, 60_exceptions.md
R320; log 6): they have no body, so no proof can know one. -/

namespace Sys2Proof.Config

/-- `RXCAP`, the receive buffer's capacity in bytes (00_scope.md R5). -/
abbrev rxCap : Nat := 8192

/-- `TXCAP`, the encode buffer's capacity in bytes (00_scope.md R5). -/
abbrev txCap : Nat := 256

/-- `MINLEN_M` (43_frame_decode_sync.md R181). -/
abbrev minLenM : Nat := 5

/-- `MINLEN_S` (43_frame_decode_sync.md R181). -/
abbrev minLenS : Nat := 4

/-- A value list longer than this is refused `BAD_SHAPE` whatever `VMAX` is (44_master_engine.md R221). -/
abbrev maxValues : Nat := 65535

/-- The least bound a finite `VMAX` may have (00_scope.md R5). -/
abbrev vmaxLeast : Nat := 2040

/-- Slave address bytes from here up never start a request frame (43_frame_decode_sync.md R190). -/
abbrev slaveScanBound : Byte := 247

/-- The seed of every CRC the block computes for itself (40_crc.md R130). -/
abbrev crcSeed : Word := 0xFFFF

/-- The reflected polynomial (40_crc.md R131). -/
abbrev crcPoly : Word := 0xA001

/-! The function codes `FC_*` (30_encoding.md R96). -/

abbrev fcRC  : Byte := 0x01
abbrev fcRHR : Byte := 0x03
abbrev fcRIR : Byte := 0x04
abbrev fcWSC : Byte := 0x05
abbrev fcWSR : Byte := 0x06
abbrev fcWMC : Byte := 0x0F
abbrev fcWMR : Byte := 0x10
abbrev fcRFR : Byte := 0x14

/-- The closed set of supported functions (10_state.md R25, 30_encoding.md R96). -/
def supported : List Byte := [fcRC, fcRHR, fcRIR, fcWSC, fcWSR, fcWMC, fcWMR, fcRFR]

/-! The exception codes `EX_*` (60_exceptions.md R310). Only the first is ever written by the block itself. -/

abbrev exIllegalFunction : Byte := 0x01
abbrev exIllegalDataAddress : Byte := 0x02
abbrev exIllegalDataValue : Byte := 0x03
abbrev exServerDeviceFailure : Byte := 0x04
abbrev exAcknowledge : Byte := 0x05
abbrev exServerDeviceBusy : Byte := 0x06
abbrev exMemoryParityError : Byte := 0x08
abbrev exGatewayPathUnavailable : Byte := 0x0A
abbrev exGatewayTargetDeviceFailedToRespond : Byte := 0x0B

/-- The two constant bytes of a Read File Record request (30_encoding.md R106). -/
abbrev rfrConst07 : Byte := 0x07
abbrev rfrConst06 : Byte := 0x06

/-- The coil word of a true value (42_frame_encode.md R158). -/
abbrev coilTrue : Word := 0xFF00

/-- The coil word of a false value (42_frame_encode.md R158). -/
abbrev coilFalse : Word := 0x0000

/-! The oracle past the end of State's answer lists: free values, applied to State's counter `draws` (log 6). -/

/-- A transport's `tx_ok` (46_transport_and_host.md R294). -/
opaque freeTxOk : Nat → Bool

/-- A master callback's `handled` (60_exceptions.md R322). -/
opaque freeHandled : Nat → Bool

/-- A slave handler's answer, a Response or none (60_exceptions.md R322). -/
opaque freeAnswer : Nat → Option Response

end Sys2Proof.Config

namespace Sys2Proof

/-- The parameters of one instance that the spec leaves OPEN, and its role (00_scope.md R5; log 2, 3). `none` is the
unbounded reading of `QDEPTH` and `VMAX`. -/
structure Params where
  role          : Role
  qdepth        : Option Nat
  vmax          : Option Nat
  bcastDequeue  : Bool
  responseToRst : Time
  frameToRst    : Time
  turnaroundRst : Time
  retriesRst    : Retry
  respDelayRst  : Time
deriving DecidableEq, Repr

/-- What R5 asks of the parameters: a finite `VMAX` is at least 2040. -/
def Params.wf (p : Params) : Bool :=
  match p.vmax with
  | some v => decide (Config.vmaxLeast ≤ v)
  | none => true

/-- The parameters `State.reset` is built with (log 2, 3): a MASTER, unbounded queue and value lists, the default
`BCAST_DEQUEUE = false`, every `*_RST` zero. -/
def Params.default : Params :=
  { role := .master, qdepth := none, vmax := none, bcastDequeue := false, responseToRst := 0, frameToRst := 0,
    turnaroundRst := 0, retriesRst := 0, respDelayRst := 0 }

end Sys2Proof
end

