-- ==== Sys2Proof/Syntax.lean ====
section
/-! DEFINITION. The instructions: one constructor per row of opcode_table.json (30_encoding.md R96, R111), and the
port word they are presented as (R110). A command's operands are its operand ports. A frame row is an operation of the
Frame Codec and has two forms, encode and decode (42_frame_encode.md, 43_frame_decode_sync.md; log 1). -/

namespace Sys2Proof

/-- The descriptor fields a frame operation reads. The function byte is the row's own. -/
structure FrameOps where
  slave  : Byte := 0
  addr   : Word := 0
  qty    : Word := 0
  values : List Word := []
  file   : Word := 0
  recno  : Word := 0
  reclen : Word := 0
deriving DecidableEq, Repr

/-- The Request with these fields and this function byte. -/
def FrameOps.toRequest (d : FrameOps) (fn : Byte) : Request :=
  { slave := d.slave, fn := fn, addr := d.addr, qty := d.qty, values := d.values, file := d.file, recno := d.recno,
    reclen := d.reclen, retries := 0 }

/-- The Normal Response with these fields and this function byte. -/
def FrameOps.toNormal (d : FrameOps) (fn : Byte) : Normal :=
  { slave := d.slave, fn := fn, addr := d.addr, qty := d.qty, values := d.values }

/-- The two forms of a request frame row: encode the descriptor into `TXB` (42_frame_encode.md R155 to R162), or decode
the frame at an offset of `RXB` (43_frame_decode_sync.md R203 to R210). -/
inductive ReqForm where
  | enc (d : FrameOps)
  | dec (off : Nat)
deriving DecidableEq, Repr

/-- The two forms of REQ.UNSUP: R211 decodes one, and an encode of one has no layout (R154). -/
inductive UnsupForm where
  | enc (slave fn : Byte)
  | dec (off : Nat)
deriving DecidableEq, Repr

/-- The two forms of a response frame row: encode (42_frame_encode.md R164 to R171), or decode against the current
Request, which is the operand `cur` (43_frame_decode_sync.md R192, R194 to R201). -/
inductive RspForm where
  | enc (d : FrameOps)
  | dec (off : Nat) (cur : FrameOps)
deriving DecidableEq, Repr

/-- The two forms of RSP.EXC (R172, R193). -/
inductive ExcForm where
  | enc (slave fn code : Byte)
  | dec (off : Nat)
deriving DecidableEq, Repr

/-- One constructor per row of opcode_table.json. -/
inductive Instr where
  | enqRC (slave : Byte) (addr qty : Word)
  | enqRHR (slave : Byte) (addr qty : Word)
  | enqRIR (slave : Byte) (addr qty : Word)
  | enqWSC (slave : Byte) (addr value : Word)
  | enqWSR (slave : Byte) (addr value : Word)
  | enqWMC (slave : Byte) (addr : Word) (values : List Word)
  | enqWMR (slave : Byte) (addr : Word) (values : List Word)
  | enqRFR (slave : Byte) (file recno reclen : Word)
  | poll (now : Time) (chunk : List Byte)
  | rxpush (now : Time) (chunk : List Byte)
  | cfgwr (reg : Byte) (data : Time)
  | cfgrd (reg : Byte)
  | qclear
  | qcount
  | qempty
  | crc16 (seed : Word) (bytes : List Byte)
  | putw (value : Word)
  | getw (b0 b1 : Byte)
  | putwf (value : Word)
  | getwf (b0 b1 : Byte)
  | reqRC (f : ReqForm)
  | reqRHR (f : ReqForm)
  | reqRIR (f : ReqForm)
  | reqWSC (f : ReqForm)
  | reqWSR (f : ReqForm)
  | reqWMC (f : ReqForm)
  | reqWMR (f : ReqForm)
  | reqRFR (f : ReqForm)
  | reqUNSUP (f : UnsupForm)
  | rspRC (f : RspForm)
  | rspRHR (f : RspForm)
  | rspRIR (f : RspForm)
  | rspWSC (f : RspForm)
  | rspWSR (f : RspForm)
  | rspWMC (f : RspForm)
  | rspWMR (f : RspForm)
  | rspRFR (f : RspForm)
  | rspEXC (f : ExcForm)
deriving DecidableEq, Repr

/-- The pseudo-commands: forms of the source's surface that are commands of R111 with converted operands (R121). -/
inductive Pseudo where
  | wmcBools (slave : Byte) (addr : Word) (values : List Bool)
  | wmcInts (slave : Byte) (addr : Word) (values : List Int)
  | wmrBools (slave : Byte) (addr : Word) (values : List Bool)
  | wmrInts (slave : Byte) (addr : Word) (values : List Int)
  | wscBool (slave : Byte) (addr : Word) (value : Bool)
  | emptyCheck
  | crc16Prefix (seed : Word) (bytes : List Byte) (length : Nat)
  | pollPull (now : Time) (available : List Byte)
  | pollPush (pushed now : Time) (available : List Byte)
deriving DecidableEq, Repr

/-- Which of the block's encoded languages a port word is in (30_encoding.md): a command, whose code byte is the
opcode, or a request or response frame kind, whose code byte is the function byte at frame offset 1. -/
inductive Lang where
  | command
  | request
  | response
deriving DecidableEq, Repr

/-- Which form of a frame row a port word asks for; a command has none. -/
inductive CodecForm where
  | enc
  | dec
deriving DecidableEq, Repr

/-- What is presented on the port: a code byte and the named operand ports (30_encoding.md R110), each zero or empty
when not driven. `lang`, `form`, `off` and `excCode` exist for the frame rows only (log 1). -/
structure PortWord where
  lang    : Lang := .command
  code    : Byte
  now     : Time := 0
  slave   : Byte := 0
  addr    : Word := 0
  qty     : Word := 0
  value   : Word := 0
  values  : List Word := []
  file    : Word := 0
  recno   : Word := 0
  reclen  : Word := 0
  reg     : Byte := 0
  data    : Time := 0
  chunk   : List Byte := []
  seed    : Word := 0
  bytes   : List Byte := []
  b0      : Byte := 0
  b1      : Byte := 0
  form    : CodecForm := .enc
  off     : Nat := 0
  excCode : Byte := 0
deriving DecidableEq, Repr

/-- The descriptor operand ports of a frame row. -/
def PortWord.frameOps (p : PortWord) : FrameOps :=
  { slave := p.slave, addr := p.addr, qty := p.qty, values := p.values, file := p.file, recno := p.recno,
    reclen := p.reclen }

/-- What one step finds at the port (00_scope.md R6, R7, 70_reset_and_hazards.md R350): the reset input, with or without
a command beside it; one command; or a second invocation begun before the first has ended. -/
inductive Input where
  | rst (beside : Option PortWord)
  | cmd (p : PortWord)
  | overlap (first second : PortWord)
deriving DecidableEq, Repr

end Sys2Proof
end

