-- ==== Sys2Proof/WellFormed.lean ====
section
/-! DEFINITION. Which instructions are well formed. A command's operand ports admit every value of their widths
(30_encoding.md R110, R111), so only the frame rows have checks: the offset of a decode form is a 13-bit offset of `RXB`
(10_state.md R43), the function byte of REQ.UNSUP is none of the eight codes (30_encoding.md R107), and the function
byte of RSP.EXC has bit 7 set (R99). -/

namespace Sys2Proof

/-- Offsets of `RXB` are 0 to 8191 (10_state.md R40, R43). -/
def offsetOk (off : Nat) : Bool := decide (off < Config.rxCap)

/-- Bit 7 of a function byte marks an exception (30_encoding.md R93). -/
def excBit (fn : Byte) : Bool := fn.getLsbD 7

def ReqForm.wf : ReqForm → Bool
  | .enc _ => true
  | .dec off => offsetOk off

def UnsupForm.wf : UnsupForm → Bool
  | .enc _ fn => !(Config.supported.contains fn)
  | .dec off => offsetOk off

def RspForm.wf : RspForm → Bool
  | .enc _ => true
  | .dec off _ => offsetOk off

def ExcForm.wf : ExcForm → Bool
  | .enc _ fn _ => excBit fn
  | .dec off => offsetOk off

def Instr.wf : Instr → Bool
  | .enqRC _ _ _ => true
  | .enqRHR _ _ _ => true
  | .enqRIR _ _ _ => true
  | .enqWSC _ _ _ => true
  | .enqWSR _ _ _ => true
  | .enqWMC _ _ _ => true
  | .enqWMR _ _ _ => true
  | .enqRFR _ _ _ _ => true
  | .poll _ _ => true
  | .rxpush _ _ => true
  | .cfgwr _ _ => true
  | .cfgrd _ => true
  | .qclear => true
  | .qcount => true
  | .qempty => true
  | .crc16 _ _ => true
  | .putw _ => true
  | .getw _ _ => true
  | .putwf _ => true
  | .getwf _ _ => true
  | .reqRC f => f.wf
  | .reqRHR f => f.wf
  | .reqRIR f => f.wf
  | .reqWSC f => f.wf
  | .reqWSR f => f.wf
  | .reqWMC f => f.wf
  | .reqWMR f => f.wf
  | .reqRFR f => f.wf
  | .reqUNSUP f => f.wf
  | .rspRC f => f.wf
  | .rspRHR f => f.wf
  | .rspRIR f => f.wf
  | .rspWSC f => f.wf
  | .rspWSR f => f.wf
  | .rspWMC f => f.wf
  | .rspWMR f => f.wf
  | .rspRFR f => f.wf
  | .rspEXC f => f.wf

end Sys2Proof
end

