-- ==== Sys2Proof/Decode.lean ====
section
/-! DEFINITION. The decoder of a port word, total, rejecting by name, and after it the encoder, both from the code
tables of 30_encoding.md R96 and R111. The frame bytes on the wire have their own encoder and decoders, which the
machine runs: Machine/Encode.lean and Machine/FrameDecode.lean. -/

namespace Sys2Proof

/-- Why a port word is no instruction. -/
inductive DecodeError where
  /-- A command opcode that 30_encoding.md R111 does not list (R113). -/
  | reservedOpcode (code : Byte)
  /-- A response function byte with bit 7 clear that is none of the eight codes: it has no layout (42_frame_encode.md R163). -/
  | noLayout (fn : Byte)
  /-- The decode form of a frame row at an offset that `RXB` does not have (10_state.md R43). -/
  | badOffset (off : Nat)
deriving DecidableEq, Repr

/-- The twenty commands (30_encoding.md R111). -/
def decodeCommand (p : PortWord) : Except DecodeError Instr :=
  if p.code = 0x01 then .ok (.enqRC p.slave p.addr p.qty)
  else if p.code = 0x03 then .ok (.enqRHR p.slave p.addr p.qty)
  else if p.code = 0x04 then .ok (.enqRIR p.slave p.addr p.qty)
  else if p.code = 0x05 then .ok (.enqWSC p.slave p.addr p.value)
  else if p.code = 0x06 then .ok (.enqWSR p.slave p.addr p.value)
  else if p.code = 0x0F then .ok (.enqWMC p.slave p.addr p.values)
  else if p.code = 0x10 then .ok (.enqWMR p.slave p.addr p.values)
  else if p.code = 0x14 then .ok (.enqRFR p.slave p.file p.recno p.reclen)
  else if p.code = 0x80 then .ok (.poll p.now p.chunk)
  else if p.code = 0x81 then .ok (.rxpush p.now p.chunk)
  else if p.code = 0x82 then .ok (.cfgwr p.reg p.data)
  else if p.code = 0x83 then .ok (.cfgrd p.reg)
  else if p.code = 0x84 then .ok .qclear
  else if p.code = 0x85 then .ok .qcount
  else if p.code = 0x86 then .ok .qempty
  else if p.code = 0xC0 then .ok (.crc16 p.seed p.bytes)
  else if p.code = 0xC1 then .ok (.putw p.value)
  else if p.code = 0xC2 then .ok (.getw p.b0 p.b1)
  else if p.code = 0xC3 then .ok (.putwf p.value)
  else if p.code = 0xC4 then .ok (.getwf p.b0 p.b1)
  else .error (.reservedOpcode p.code)

def PortWord.reqForm (p : PortWord) : ReqForm :=
  match p.form with
  | .enc => .enc p.frameOps
  | .dec => .dec p.off

def PortWord.unsupForm (p : PortWord) : UnsupForm :=
  match p.form with
  | .enc => .enc p.slave p.code
  | .dec => .dec p.off

def PortWord.rspForm (p : PortWord) : RspForm :=
  match p.form with
  | .enc => .enc p.frameOps
  | .dec => .dec p.off p.frameOps

def PortWord.excForm (p : PortWord) : ExcForm :=
  match p.form with
  | .enc => .enc p.slave p.code p.excCode
  | .dec => .dec p.off

/-- The nine request frame kinds, by the function byte (30_encoding.md R96, R107). -/
def decodeRequestKind (p : PortWord) : Instr :=
  if p.code = Config.fcRC then .reqRC p.reqForm
  else if p.code = Config.fcRHR then .reqRHR p.reqForm
  else if p.code = Config.fcRIR then .reqRIR p.reqForm
  else if p.code = Config.fcWSC then .reqWSC p.reqForm
  else if p.code = Config.fcWSR then .reqWSR p.reqForm
  else if p.code = Config.fcWMC then .reqWMC p.reqForm
  else if p.code = Config.fcWMR then .reqWMR p.reqForm
  else if p.code = Config.fcRFR then .reqRFR p.reqForm
  else .reqUNSUP p.unsupForm

/-- The nine response frame kinds, by the function byte (30_encoding.md R96, R99). -/
def decodeResponseKind (p : PortWord) : Except DecodeError Instr :=
  if p.code = Config.fcRC then .ok (.rspRC p.rspForm)
  else if p.code = Config.fcRHR then .ok (.rspRHR p.rspForm)
  else if p.code = Config.fcRIR then .ok (.rspRIR p.rspForm)
  else if p.code = Config.fcWSC then .ok (.rspWSC p.rspForm)
  else if p.code = Config.fcWSR then .ok (.rspWSR p.rspForm)
  else if p.code = Config.fcWMC then .ok (.rspWMC p.rspForm)
  else if p.code = Config.fcWMR then .ok (.rspWMR p.rspForm)
  else if p.code = Config.fcRFR then .ok (.rspRFR p.rspForm)
  else if excBit p.code then .ok (.rspEXC p.excForm)
  else .error (.noLayout p.code)

/-- The offset of a decode form is an offset of `RXB`; an encode form has none. -/
def PortWord.offsetAdmitted (p : PortWord) : Bool :=
  match p.form with
  | .enc => true
  | .dec => offsetOk p.off

/-- The instruction a port word stands for. An operand port the instruction does not name is ignored (R110). -/
def decode (p : PortWord) : Except DecodeError Instr :=
  match p.lang with
  | .command => decodeCommand p
  | .request => if p.offsetAdmitted then .ok (decodeRequestKind p) else .error (.badOffset p.off)
  | .response => if p.offsetAdmitted then decodeResponseKind p else .error (.badOffset p.off)

/-! The encoder. -/

/-- The port word of a frame operation with its descriptor on the operand ports. -/
def frameWord (lang : Lang) (code : Byte) (form : CodecForm) (off : Nat) (d : FrameOps) : PortWord :=
  { lang := lang, code := code, form := form, off := off, slave := d.slave, addr := d.addr, qty := d.qty,
    values := d.values, file := d.file, recno := d.recno, reclen := d.reclen }

def ReqForm.word (code : Byte) : ReqForm → PortWord
  | .enc d => frameWord .request code .enc 0 d
  | .dec off => frameWord .request code .dec off {}

def UnsupForm.word : UnsupForm → PortWord
  | .enc slave fn => { lang := .request, code := fn, form := .enc, slave := slave }
  | .dec off => { lang := .request, code := 0x00, form := .dec, off := off }

def RspForm.word (code : Byte) : RspForm → PortWord
  | .enc d => frameWord .response code .enc 0 d
  | .dec off cur => frameWord .response code .dec off cur

def ExcForm.word : ExcForm → PortWord
  | .enc slave fn code => { lang := .response, code := fn, form := .enc, slave := slave, excCode := code }
  | .dec off => { lang := .response, code := 0x80, form := .dec, off := off }

/-- The port word of an instruction, from the same code tables as the decoder. -/
def encode : Instr → PortWord
  | .enqRC slave addr qty => { code := 0x01, slave := slave, addr := addr, qty := qty }
  | .enqRHR slave addr qty => { code := 0x03, slave := slave, addr := addr, qty := qty }
  | .enqRIR slave addr qty => { code := 0x04, slave := slave, addr := addr, qty := qty }
  | .enqWSC slave addr value => { code := 0x05, slave := slave, addr := addr, value := value }
  | .enqWSR slave addr value => { code := 0x06, slave := slave, addr := addr, value := value }
  | .enqWMC slave addr values => { code := 0x0F, slave := slave, addr := addr, values := values }
  | .enqWMR slave addr values => { code := 0x10, slave := slave, addr := addr, values := values }
  | .enqRFR slave file recno reclen => { code := 0x14, slave := slave, file := file, recno := recno, reclen := reclen }
  | .poll now chunk => { code := 0x80, now := now, chunk := chunk }
  | .rxpush now chunk => { code := 0x81, now := now, chunk := chunk }
  | .cfgwr reg data => { code := 0x82, reg := reg, data := data }
  | .cfgrd reg => { code := 0x83, reg := reg }
  | .qclear => { code := 0x84 }
  | .qcount => { code := 0x85 }
  | .qempty => { code := 0x86 }
  | .crc16 seed bytes => { code := 0xC0, seed := seed, bytes := bytes }
  | .putw value => { code := 0xC1, value := value }
  | .getw b0 b1 => { code := 0xC2, b0 := b0, b1 := b1 }
  | .putwf value => { code := 0xC3, value := value }
  | .getwf b0 b1 => { code := 0xC4, b0 := b0, b1 := b1 }
  | .reqRC f => f.word Config.fcRC
  | .reqRHR f => f.word Config.fcRHR
  | .reqRIR f => f.word Config.fcRIR
  | .reqWSC f => f.word Config.fcWSC
  | .reqWSR f => f.word Config.fcWSR
  | .reqWMC f => f.word Config.fcWMC
  | .reqWMR f => f.word Config.fcWMR
  | .reqRFR f => f.word Config.fcRFR
  | .reqUNSUP f => f.word
  | .rspRC f => f.word Config.fcRC
  | .rspRHR f => f.word Config.fcRHR
  | .rspRIR f => f.word Config.fcRIR
  | .rspWSC f => f.word Config.fcWSC
  | .rspWSR f => f.word Config.fcWSR
  | .rspWMC f => f.word Config.fcWMC
  | .rspWMR f => f.word Config.fcWMR
  | .rspRFR f => f.word Config.fcRFR
  | .rspEXC f => f.word

/-! Pseudo-commands (R121). -/

/-- A Boolean as an operand word. -/
def boolWord (b : Bool) : Word := if b then 1 else 0

/-- `trunc_16` of an integer. -/
def intWord (n : Int) : Word := BitVec.ofInt 16 n

/-- The commands a pseudo-command stands for, in order (R121 (a) to (e)). -/
def Pseudo.expand : Pseudo → List Instr
  | .wmcBools slave addr values => [.enqWMC slave addr (values.map boolWord)]
  | .wmcInts slave addr values => [.enqWMC slave addr (values.map intWord)]
  | .wmrBools slave addr values => [.enqWMR slave addr (values.map boolWord)]
  | .wmrInts slave addr values => [.enqWMR slave addr (values.map intWord)]
  | .wscBool slave addr value => [.enqWSC slave addr (boolWord value)]
  | .emptyCheck => [.qempty]
  | .crc16Prefix seed bytes length => [.crc16 seed (bytes.take length)]
  | .pollPull now available => [.poll now available]
  | .pollPush pushed now available => [.rxpush pushed available, .poll now []]

/-! The opcode table's numbering of bits. -/

/-- The port word of a table word: its low byte is the command opcode, every operand port is zero or empty. The frame
rows share their bytes with command rows, so a table word of eight bits is read as a command (log 18). -/
def tableWord (w : Nat) : PortWord := { code := BitVec.ofNat 8 w }

/-- The instruction the decoder reads from a table word. The table gives every row eight bits; a word with a bit above
them is no word of the table. -/
def decodeTableWord (_nbits w : Nat) : Option Instr :=
  if w < 256 then
    match decode (tableWord w) with
    | .ok i => some i
    | .error _ => none
  else none

end Sys2Proof
end

