-- ==== Sys2Proof/Machine/State.lean ====
section
/-! DEFINITION. The state of one instance (10_state.md), as plain data; why a run can stop; the state after reset. -/

namespace Sys2Proof.Machine

/-- Byte memory: (address, byte) pairs in one canonical form, addresses strictly rising and no entry equal to what an
unlisted address reads as (`Memory.blank`). `RXB` and `TXB` are two of them (10_state.md R40, R42). -/
abbrev Memory := List Host.Cell

/-- What an unlisted address reads as (log 5). No rule reads a byte that has not been written (20_memory.md R64): reads
are guarded by the fill count, and this is the value that need not be listed below it. -/
abbrev Memory.blank : Byte := 0x00

/-- The canonical form. -/
def Memory.wf : Memory → Bool
  | [] => true
  | [c] => decide (c.2 ≠ Memory.blank)
  | c :: d :: m => decide (c.2 ≠ Memory.blank) && decide (c.1 < d.1) && Memory.wf (d :: m)

/-- `MSTATE` (10_state.md R30). `responseReceived` stands only inside one POLL. -/
inductive MState where
  | idle
  | waitingForResponse
  | responseReceived
deriving DecidableEq, Repr

/-- The numeric encodings of `MSTATE` (10_state.md R30). -/
def MState.code : MState → Time
  | .idle => 0
  | .waitingForResponse => 1
  | .responseReceived => 2

/-- `SSTATE` (10_state.md R36). `requestReceived` stands only inside one POLL. -/
inductive SState where
  | idle
  | requestReceived
deriving DecidableEq, Repr

/-- The numeric encodings of `SSTATE` (10_state.md R36). -/
def SState.code : SState → Time
  | .idle => 0
  | .requestReceived => 1

/-- The statuses of the result port (30_encoding.md R112). -/
inductive Status where
  | ok
  | illegalCmd
  | badReg
  | qfull
  | badShape
deriving DecidableEq, Repr

/-- The status codes (30_encoding.md R112). -/
def Status.code : Status → Nat
  | .ok => 0
  | .illegalCmd => 1
  | .badReg => 2
  | .qfull => 3
  | .badShape => 4

/-- The value beside a status on the result port, by command (30_encoding.md R111); `frame`, `request` and `response`
are the results of the frame rows (log 1, 8). -/
inductive Value where
  | none
  | time (t : Time)
  | count (n : Nat)
  | bool (b : Bool)
  | word (w : Word)
  | bytePair (b0 b1 : Byte)
  | frame (f : List Byte)
  | request (r : Option Request)
  | response (p : Option Response)
deriving DecidableEq, Repr

/-- What a command answers on the result port (30_encoding.md R110). -/
structure Result where
  status : Status
  value  : Value
deriving DecidableEq, Repr

/-- The reasons of `EV_DIAG` (60_exceptions.md R318). -/
inductive DiagReason where
  | txFailed
deriving DecidableEq, Repr

/-- `TX_FAILED` is code 1 (60_exceptions.md R318). -/
def DiagReason.code : DiagReason → Nat
  | .txFailed => 1

/-- The nine events with their payloads (60_exceptions.md R319). -/
inductive Event where
  | rx (chunk : List Byte)
  | tx (frame : List Byte)
  | response (r : Request) (p : Normal)
  | responseFn (fn : Byte) (r : Request) (p : Normal)
  | exception (r : Request) (e : ExceptionRsp)
  | timeout (r : Request)
  | request (r : Request)
  | requestFn (fn : Byte) (r : Request)
  | diag (reason : DiagReason)
deriving DecidableEq, Repr

/-- The event identifiers (60_exceptions.md R319). -/
def Event.id : Event → Byte
  | .rx _ => 0x01
  | .tx _ => 0x02
  | .response _ _ => 0x03
  | .responseFn _ _ _ => 0x04
  | .exception _ _ => 0x05
  | .timeout _ => 0x06
  | .request _ => 0x07
  | .requestFn _ _ => 0x08
  | .diag _ => 0x09

/-- Why a run ends with a fault (60_exceptions.md R315). A fault leaves no state: no meaning is given to the state after
one (93_implementation_defined.md U4). Stopping is safe: nothing is claimed of what hardware does there. -/
inductive Fault where
  /-- A frame longer than `TXCAP`. Raised by every encoder (42_frame_encode.md R150, R152), so by POLL and by the encode
  forms of the frame rows. Safe. -/
  | encodeOverflow
  /-- A descriptor whose function has no layout reaches an encoder. Raised by the request and response encoders (R154,
  R163), so by POLL on a slave whose handler answered one, and by the encode form of REQ.UNSUP. Safe. -/
  | encodeUnsupported
  /-- A descriptor lacks the fields its function needs. Raised by the encoders (R163; log 12, 13) and by the echo test of
  a write-single response whose Request has no value (log 13). Safe. -/
  | badShape
  /-- A buffer read at or above the fill count (20_memory.md R64). Raised by the decode forms of the frame rows at an
  offset whose frame does not fit; no POLL raises it. Safe. -/
  | outOfBounds
deriving DecidableEq, Repr

/-- Why the model does not take a step. -/
inductive Refusal where
  /-- An arm of exec that has no meaning yet. Raised by Dispatch alone. Safe. -/
  | notModelled (mnemonic : String)
  /-- A second invocation of the instance before the first has ended, from another context or from a handler
  (00_scope.md R7, 60_exceptions.md R327, 93_implementation_defined.md U1, U2; log 10). Raised by `step`. Safe: nothing
  is claimed of an implementation driven so. -/
  | concurrentInvocation
deriving DecidableEq, Repr

/-- The registers of 10_state.md R39. -/
inductive Reg where
  | responseTo
  | frameTo
  | turnaround
  | retries
  | respDelay
  | state
  | rxn
  | qn
  | lastRx
  | lastTx
  | curq
deriving DecidableEq, Repr

/-- The Request `CUR` holds after reset (log 4). -/
def zeroRequest : Request := { slave := 0, fn := 0 }

/-- One instance. The registers of the role it does not have keep their reset values (log 15). -/
structure State where
  /-- Role and OPEN parameters (00_scope.md R5), fixed for the instance (log 2). -/
  params     : Params
  /-- `MSTATE` (R30). -/
  mstate     : MState
  /-- `SSTATE` (R36). -/
  sstate     : SState
  /-- `RXB` below the fill count (R40). -/
  rxb        : Memory
  /-- `RXN` (R40). -/
  rxn        : Nat
  /-- `TXB` below the fill count (R42). -/
  txb        : Memory
  /-- `TXN` (R42). -/
  txn        : Nat
  /-- `Q`, head first; `QN` is its length (R26). -/
  q          : List Request
  /-- `CUR` (R27). -/
  cur        : Request
  /-- `CURQ` (R27). -/
  curq       : Bool
  /-- `LASTRX` (R37). -/
  lastRx     : Time
  /-- `LASTTX` (R37). -/
  lastTx     : Time
  /-- `RESPONSE_TO` (R34). -/
  responseTo : Time
  /-- `FRAME_TO` (R34, R35). -/
  frameTo    : Time
  /-- `TURNAROUND` (R34). -/
  turnaround : Time
  /-- `RETRIES` (R34). -/
  retries    : Retry
  /-- `RESP_DELAY` (R35). -/
  respDelay  : Time
  /-- What is still to be presented on the port, oldest first (log 9). -/
  inputs     : List Input
  /-- The result port: what the last command answered (30_encoding.md R110; log 8). -/
  result     : Option Result
  /-- The events raised so far, oldest first (60_exceptions.md R320; log 8). -/
  events     : List Event
  /-- The transport's answers `tx_ok` still to come (46_transport_and_host.md R294; log 6). -/
  txAns      : List Bool
  /-- The master callbacks' answers `handled` still to come (60_exceptions.md R322; log 6). -/
  handledAns : List Bool
  /-- The slave handlers' answers still to come (60_exceptions.md R322; log 6). -/
  respAns    : List (Option Response)
  /-- How many answers past the end of those lists have been drawn (log 6, 7). -/
  draws      : Nat
deriving DecidableEq, Repr

/-- The values of 10_state.md R50, for an instance with these parameters; the port is empty (log 8, 9). -/
def State.resetOf (p : Params) : State :=
  { params := p, mstate := .idle, sstate := .idle, rxb := [], rxn := 0, txb := [], txn := 0, q := [],
    cur := zeroRequest, curq := false, lastRx := 0, lastTx := 0, responseTo := p.responseToRst,
    frameTo := p.frameToRst, turnaround := p.turnaroundRst, retries := p.retriesRst, respDelay := p.respDelayRst,
    inputs := [], result := none, events := [], txAns := [], handledAns := [], respAns := [], draws := 0 }

/-- The machine right after reset, built with `Params.default` (log 2, 3). -/
def State.reset : State := State.resetOf Params.default

end Sys2Proof.Machine
end

