-- ==== Sys2Proof/Machine/Operands.lean ====
section
/-! DEFINITION. Operand forms: the word codec (41_word_codec.md), the buffer reads (20_memory.md R64), the CRC Engine
(40_crc.md), coil words and packed coils (42_frame_encode.md R158, R173), and the shapes of descriptors (10_state.md
R21, R23). A buffer is read as the list of its bytes below the fill count, so its length is the fill count. -/

namespace Sys2Proof.Machine

/-! The word codec. -/

/-- `v[15:8]`. -/
def hiByte (v : Word) : Byte := v.extractLsb' 8 8

/-- `v[7:0]`. -/
def loByte (v : Word) : Byte := v.extractLsb' 0 8

/-- `(zext_16(hi) << 8) | zext_16(lo)` (41_word_codec.md R140). -/
def mkWord (hi lo : Byte) : Word := (hi.setWidth 16 <<< 8) ||| lo.setWidth 16

/-- The two bytes `putWord` writes, lower offset first: big-endian (R140). -/
def putWord (v : Word) : List Byte := [hiByte v, loByte v]

/-- The two bytes `putWordFlip` writes, lower offset first: little-endian (R140). -/
def putWordFlip (v : Word) : List Byte := [loByte v, hiByte v]

/-! Reads of a buffer's filled bytes. -/

/-- One byte; at or above the fill count the read is `fault OutOfBounds` (20_memory.md R64). -/
def byteAt (B : List Byte) (a : Nat) : Except Fault Byte :=
  match B[a]? with
  | some b => .ok b
  | none => .error .outOfBounds

/-- `MemRead(space, a, n)` (00_scope.md R11). -/
def memRead (B : List Byte) (a n : Nat) : Except Fault (List Byte) :=
  if a + n ≤ B.length then .ok ((B.drop a).take n) else .error .outOfBounds

/-- `getWord(B, a)`, big-endian (41_word_codec.md R140). -/
def getWord (B : List Byte) (a : Nat) : Except Fault Word := do
  let hi ← byteAt B a
  let lo ← byteAt B (a + 1)
  .ok (mkWord hi lo)

/-- `getWordFlip(B, a)`, little-endian (41_word_codec.md R140). -/
def getWordFlip (B : List Byte) (a : Nat) : Except Fault Word := do
  let lo ← byteAt B a
  let hi ← byteAt B (a + 1)
  .ok (mkWord hi lo)

/-- `n` big-endian words from offset `a` on (the loops of 43_frame_decode_sync.md R195, R201, R209). -/
def getWords (B : List Byte) (a : Nat) : Nat → Except Fault (List Word)
  | 0 => .ok []
  | n + 1 => do
    let w ← getWord B a
    let ws ← getWords B (a + 2) n
    .ok (w :: ws)

/-- Coil `i` of the packed field that starts at offset `a`: bit `i mod 8` of byte `i div 8` (20_memory.md R62). -/
def getCoil (B : List Byte) (a i : Nat) : Except Fault Word := do
  let b ← byteAt B (a + i / 8)
  .ok (((b >>> (i % 8)) &&& 1).setWidth 16)

/-- Coils `i`, `i + 1`, … `i + n - 1` of that field (the loops of R194, R208). -/
def getCoils (B : List Byte) (a i : Nat) : Nat → Except Fault (List Word)
  | 0 => .ok []
  | n + 1 => do
    let v ← getCoil B a i
    let vs ← getCoils B a (i + 1) n
    .ok (v :: vs)

/-! The CRC Engine. -/

/-- One shift-XOR step (40_crc.md R131). -/
def crcShift (c : Word) : Word :=
  if c.getLsbD 0 then (c >>> 1) ^^^ Config.crcPoly else c >>> 1

/-- `crc_step(crc, b)` (R131). -/
def crcStep (c : Word) (b : Byte) : Word :=
  crcShift (crcShift (crcShift (crcShift (crcShift (crcShift (crcShift (crcShift (c ^^^ b.setWidth 16))))))))

/-- `crc16(seed, s)` (R132). -/
def crc16 (seed : Word) (s : List Byte) : Word := s.foldl crcStep seed

/-- The trailer of the bytes `s`: the CRC from seed 0xFFFF, low byte first (R134). -/
def trailer (s : List Byte) : List Byte := putWordFlip (crc16 Config.crcSeed s)

/-! Coils. -/

/-- `coilword(x)` (42_frame_encode.md R158). -/
def coilWord (x : Word) : Word := if x ≠ 0 then Config.coilTrue else Config.coilFalse

/-- `(qty + 7) div 8`, the bytes that hold `qty` packed coils (30_encoding.md R100). -/
def coilBytes (qty : Nat) : Nat := (qty + 7) / 8

/-- Whether bit `j` of packed byte `k` is set (42_frame_encode.md R173). -/
def coilBit (values : List Word) (qty k j : Nat) : Bool :=
  decide (8 * k + j < qty) && decide (values.getD (8 * k + j) 0 ≠ 0)

/-- Packed byte `k`: bit `j` is set iff coil `8k + j` is one of the `qty` and its value is not 0 (R173). -/
def packByte (values : List Word) (qty k : Nat) : Byte :=
  (List.range 8).foldl (fun b j => if coilBit values qty k j then b ||| (1 <<< j) else b) 0

/-- `pack(values, qty)` (R173). -/
def pack (values : List Word) (qty : Nat) : List Byte :=
  (List.range (coilBytes qty)).map (packByte values qty)

/-! Shapes. -/

/-- Whether a function byte is one of the eight (10_state.md R25). -/
def isSupported (fn : Byte) : Bool := Config.supported.contains fn

/-- The function byte of the exception that answers function byte `fn` (30_encoding.md R93). -/
def excFn (fn : Byte) : Byte := 0x80 ||| fn

/-- The shape a Request has for its function (10_state.md R21). -/
def requestShape (r : Request) : Bool :=
  if r.fn = Config.fcRC ∨ r.fn = Config.fcRHR ∨ r.fn = Config.fcRIR then
    decide (r.values = [] ∧ r.file = 0 ∧ r.recno = 0 ∧ r.reclen = 0)
  else if r.fn = Config.fcWSC ∨ r.fn = Config.fcWSR then
    decide (r.qty = 1 ∧ r.values.length = 1 ∧ r.file = 0 ∧ r.recno = 0 ∧ r.reclen = 0)
  else if r.fn = Config.fcWMC ∨ r.fn = Config.fcWMR then
    decide (r.values.length = r.qty.toNat ∧ r.file = 0 ∧ r.recno = 0 ∧ r.reclen = 0)
  else if r.fn = Config.fcRFR then decide (r.addr = 0 ∧ r.qty = 0 ∧ r.values = [])
  else false

/-- Coil values a Normal Response may carry: each is 0 or 1 (10_state.md R23). -/
def coilValues (values : List Word) : Bool := values.all fun v => decide (v = 0 ∨ v = 1)

/-- The first value of a list, which a write-single descriptor must have (10_state.md R21; log 13). -/
def firstValue (values : List Word) : Except Fault Word :=
  match values with
  | w :: _ => .ok w
  | [] => .error .badShape

end Sys2Proof.Machine
end

