-- ==== Sys2Proof/Machine/Flags.lean ====
section
/-! DEFINITION. The one-bit conditions. The block has no persistent flag (10_state.md R33): what decides a step is the
time comparisons of 60_exceptions.md R331 and R332 and the guards of the engines, each a condition inside one POLL. -/

namespace Sys2Proof.Machine

/-- `delta(t) = (now - t) mod 2^TW` (60_exceptions.md R331). -/
def delta (now t : Time) : Time := now - t

/-- `delta(t) >= threshold`, unsigned, equality passing (R331). -/
def elapsed (now t threshold : Time) : Bool := decide (threshold ≤ delta now t)

/-- The master's turnaround guard: both elapsed times have reached the threshold (44_master_engine.md R231). -/
def turnaroundPassed (now : Time) (s : State) : Bool :=
  elapsed now s.lastRx s.turnaround && elapsed now s.lastTx s.turnaround

/-- End of frame on a master: bytes are buffered and the line has been silent (R234). -/
def frameEnded (now : Time) (s : State) : Bool := decide (s.rxn > 0) && elapsed now s.lastRx s.frameTo

/-- The response timeout: nothing is buffered and the time has passed (R234, R235). -/
def responseTimedOut (now : Time) (s : State) : Bool := decide (s.rxn = 0) && elapsed now s.lastTx s.responseTo

/-- The slave's guard: bytes are buffered and the silence has reached both thresholds (45_slave_engine.md R272, R273). -/
def requestReady (now : Time) (s : State) : Bool :=
  decide (s.rxn > 0) && elapsed now s.lastRx s.frameTo && elapsed now s.lastRx s.respDelay

/-- A value list is longer than `VMAX` or 65535 (44_master_engine.md R221). -/
def valuesTooLong (s : State) (values : List Word) : Bool :=
  decide (values.length > Config.maxValues) ||
    match s.params.vmax with
    | some v => decide (values.length > v)
    | none => false

/-- `QN = QDEPTH` (R221); an unbounded queue is never full (00_scope.md R5). -/
def queueFull (s : State) : Bool :=
  match s.params.qdepth with
  | some d => decide (s.q.length = d)
  | none => false

end Sys2Proof.Machine
end

