-- ==== Sys2Proof/Machine/Ops.lean ====
section
/-! DEFINITION. The named operations over memory, registers, the port and the environment. Raising an event and reading
its answer is one shared operation (60_exceptions.md R320): the block has no trap, saves nothing and vectors nowhere
(R325), so this is what "taking an exception" is here, and the answer is the return (R326). -/

namespace Sys2Proof.Machine

/-! Byte memory. -/

/-- The byte at an address; an unlisted address reads as `Memory.blank`. -/
def Memory.read : Memory → Nat → Byte
  | [], _ => Memory.blank
  | c :: m, a => if c.1 = a then c.2 else Memory.read m a

/-- Write one byte, keeping the canonical form: the blank value removes the entry. -/
def Memory.write : Memory → Nat → Byte → Memory
  | [], a, b => if b = Memory.blank then [] else [(a, b)]
  | c :: m, a, b =>
    if a < c.1 then (if b = Memory.blank then c :: m else (a, b) :: c :: m)
    else if a = c.1 then (if b = Memory.blank then m else (a, b) :: m)
    else c :: Memory.write m a b

/-- `MemWrite(space, a, n, s)` (00_scope.md R11): the bytes at ascending offsets from `a` on. -/
def Memory.writeBytes (m : Memory) (a : Nat) : List Byte → Memory
  | [] => m
  | b :: bs => Memory.writeBytes (Memory.write m a b) (a + 1) bs

/-- The bytes at offsets 0 to `n - 1`. -/
def Memory.bytes (m : Memory) (n : Nat) : List Byte := (List.range n).map (Memory.read m)

/-- A buffer that holds exactly these bytes from offset 0 on. -/
def Memory.ofBytes (bs : List Byte) : Memory := Memory.writeBytes [] 0 bs

/-- `RXB[0 .. RXN-1]`. -/
def rxBytes (s : State) : List Byte := Memory.bytes s.rxb s.rxn

/-- `TXB[0 .. TXN-1]`. -/
def txBytes (s : State) : List Byte := Memory.bytes s.txb s.txn

/-- `purge()` (46_transport_and_host.md R292): the fill count goes to 0, and a byte at or above it is no state
(10_state.md R40; log 5). -/
def purge (s : State) : State := { s with rxb := [], rxn := 0 }

/-- The frame an encode built, in `TXB` from offset 0 (10_state.md R42, 42_frame_encode.md R150). -/
def putFrame (f : List Byte) (s : State) : State := { s with txb := Memory.ofBytes f, txn := f.length }

/-! Events and the environment's answers. -/

/-- `raise E(info)` for an event whose answer is none or is read by the rule that raised it (60_exceptions.md R320). -/
def raise (e : Event) (s : State) : State := { s with events := s.events ++ [e] }

/-- The transport's answer to the next write (46_transport_and_host.md R294). -/
def txOk (s : State) : Bool :=
  match s.txAns with
  | b :: _ => b
  | [] => Config.freeTxOk s.draws

/-- That answer has been given. -/
def takeTx (s : State) : State :=
  match s.txAns with
  | _ :: rest => { s with txAns := rest }
  | [] => { s with draws := s.draws + 1 }

/-- The next master callback's answer (60_exceptions.md R322). -/
def handled (s : State) : Bool :=
  match s.handledAns with
  | b :: _ => b
  | [] => Config.freeHandled s.draws

/-- That answer has been given. -/
def takeHandled (s : State) : State :=
  match s.handledAns with
  | _ :: rest => { s with handledAns := rest }
  | [] => { s with draws := s.draws + 1 }

/-- The next slave handler's answer (60_exceptions.md R322). -/
def handlerAnswer (s : State) : Option Response :=
  match s.respAns with
  | p :: _ => p
  | [] => Config.freeAnswer s.draws

/-- That answer has been given. -/
def takeAnswer (s : State) : State :=
  match s.respAns with
  | _ :: rest => { s with respAns := rest }
  | [] => { s with draws := s.draws + 1 }

/-! The receive and transmit paths. -/

/-- The bytes of a chunk stored at `RXN`, or, when they would pass `RXCAP`, everything buffered and the chunk lost
(46_transport_and_host.md R291). -/
def store (chunk : List Byte) (s : State) : State :=
  if s.rxn + chunk.length > Config.rxCap then purge s
  else { s with rxb := Memory.writeBytes s.rxb s.rxn chunk, rxn := s.rxn + chunk.length }

/-- `append(chunk)` for a non-empty chunk (R291): store or overflow, then the time stamp, then the tap. -/
def append (now : Time) (chunk : List Byte) (s : State) : State :=
  raise (.rx chunk) { store chunk s with lastRx := now }

/-- The first step of POLL and the whole of RXPUSH: an empty chunk has no effect at all (R290, R297). -/
def receive (now : Time) (chunk : List Byte) (s : State) : State :=
  if chunk.isEmpty then s else append now chunk s

/-- `tx(s)` (R295): the tap, the write, then the time stamp or the diagnostics event. The answer it returns is `txOk` of
the state it is given. -/
def tx (now : Time) (f : List Byte) (s : State) : State :=
  if txOk s then { takeTx (raise (.tx f) s) with lastTx := now }
  else raise (.diag .txFailed) (takeTx (raise (.tx f) s))

/-! Registers (10_state.md R39). -/

/-- The number column. -/
def regOf (number : Byte) : Option Reg :=
  if number = 0x00 then some .responseTo
  else if number = 0x01 then some .frameTo
  else if number = 0x02 then some .turnaround
  else if number = 0x03 then some .retries
  else if number = 0x04 then some .respDelay
  else if number = 0x10 then some .state
  else if number = 0x11 then some .rxn
  else if number = 0x12 then some .qn
  else if number = 0x13 then some .lastRx
  else if number = 0x14 then some .lastTx
  else if number = 0x15 then some .curq
  else none

/-- The role column. -/
def regExists (role : Role) : Reg → Bool
  | .responseTo => role == .master
  | .frameTo => true
  | .turnaround => role == .master
  | .retries => role == .master
  | .respDelay => role == .slave
  | .state => true
  | .rxn => true
  | .qn => role == .master
  | .lastRx => true
  | .lastTx => true
  | .curq => role == .master

/-- The access column. -/
def regWritable : Reg → Bool
  | .responseTo => true
  | .frameTo => true
  | .turnaround => true
  | .retries => true
  | .respDelay => true
  | .state => false
  | .rxn => false
  | .qn => false
  | .lastRx => false
  | .lastTx => false
  | .curq => false

/-- `STATE`: the value of `MSTATE` or `SSTATE` (R38). -/
def stateCode (s : State) : Time :=
  match s.params.role with
  | .master => s.mstate.code
  | .slave => s.sstate.code

/-- `zext_TW(REG(reg))` (46_transport_and_host.md R301; log 16 for a queue longer than the width). -/
def regValue (s : State) : Reg → Time
  | .responseTo => s.responseTo
  | .frameTo => s.frameTo
  | .turnaround => s.turnaround
  | .retries => s.retries.setWidth 32
  | .respDelay => s.respDelay
  | .state => stateCode s
  | .rxn => BitVec.ofNat 32 s.rxn
  | .qn => BitVec.ofNat 32 s.q.length
  | .lastRx => s.lastRx
  | .lastTx => s.lastTx
  | .curq => if s.curq then 1 else 0

/-- `REG(reg) <- trunc_W(data)` for a writable register (R300); the status registers are not written. -/
def setReg (data : Time) (s : State) : Reg → State
  | .responseTo => { s with responseTo := data }
  | .frameTo => { s with frameTo := data }
  | .turnaround => { s with turnaround := data }
  | .retries => { s with retries := data.setWidth 8 }
  | .respDelay => { s with respDelay := data }
  | .state => s
  | .rxn => s
  | .qn => s
  | .lastRx => s
  | .lastTx => s
  | .curq => s

/-- The register a number names on this instance, if there is one (R39). -/
def regAt (s : State) (number : Byte) : Option Reg :=
  match regOf number with
  | some r => if regExists s.params.role r then some r else none
  | none => none

/-! How a command ends. -/

/-- The result port. -/
def setResult (st : Status) (v : Value) (s : State) : State := { s with result := some ⟨st, v⟩ }

/-- A command that was executed answers `OK`, with a value or none (30_encoding.md R112). -/
def answer (v : Value) (s : State) : Host.Outcome State Fault Refusal := .next (setResult .ok v s)

/-- `refuse <Status>` (60_exceptions.md R316): no change of state, the status on the result port. -/
def refuse (st : Status) (s : State) : Host.Outcome State Fault Refusal := .next (setResult st .none s)

/-- The end of a command that may have met a fault. -/
def finish : Except Fault State → Host.Outcome State Fault Refusal
  | .ok s => answer .none s
  | .error f => .fault f

/-- A command that only a MASTER accepts (30_encoding.md R111, 60_exceptions.md R329). -/
def onMaster (s : State) (k : State → Host.Outcome State Fault Refusal) : Host.Outcome State Fault Refusal :=
  match s.params.role with
  | .master => k s
  | .slave => refuse .illegalCmd s

/-- The reset input (70_reset_and_hazards.md R350, R351): every piece of state takes its value of 10_state.md R50, no
status is returned, no event is raised. The port, the answers and the event record are outside the block (log 20). -/
def applyReset (s : State) : State :=
  { State.resetOf s.params with
    inputs := s.inputs, events := s.events, txAns := s.txAns, handledAns := s.handledAns, respAns := s.respAns,
    draws := s.draws }

end Sys2Proof.Machine
end

