-- ==== Sys2Proof/Machine/Control.lean ====
section
/-! DEFINITION. RXPUSH, the configuration commands and the queue commands (46_transport_and_host.md R290, R300, R301,
44_master_engine.md R249 to R251). -/

namespace Sys2Proof.Machine

/-- RXPUSH (R290): the bytes are buffered; no state action runs. -/
def execRxpush (now : Time) (chunk : List Byte) (s : State) : Host.Outcome State Fault Refusal :=
  answer .none (receive now chunk s)

/-- CFGWR (R300). -/
def execCfgwr (reg : Byte) (data : Time) (s : State) : Host.Outcome State Fault Refusal :=
  match regAt s reg with
  | some r => if regWritable r then answer .none (setReg data s r) else refuse .badReg s
  | none => refuse .badReg s

/-- CFGRD (R301). -/
def execCfgrd (reg : Byte) (s : State) : Host.Outcome State Fault Refusal :=
  match regAt s reg with
  | some r => answer (.time (regValue s r)) s
  | none => refuse .badReg s

/-- QCLEAR (R249): `MSTATE`, `CUR`, the buffers and the time registers are not touched. -/
def execQclear (s : State) : Host.Outcome State Fault Refusal :=
  onMaster s fun s => answer .none { s with q := [], curq := false }

/-- QCOUNT (R250). -/
def execQcount (s : State) : Host.Outcome State Fault Refusal :=
  onMaster s fun s => answer (.count s.q.length) s

/-- QEMPTY (R251). -/
def execQempty (s : State) : Host.Outcome State Fault Refusal :=
  onMaster s fun s => answer (.bool (decide (s.q.length = 0))) s

end Sys2Proof.Machine
end

