-- ==== Sys2Proof/Machine/Enqueue.lean ====
section
/-! DEFINITION. The eight enqueue commands (44_master_engine.md R221 to R229). -/

namespace Sys2Proof.Machine

/-- `enq(R)` (R221): role, then shape, then capacity; the retry counter is the configured default, read now. -/
def enq (r : Request) (s : State) : Host.Outcome State Fault Refusal :=
  onMaster s fun s =>
    if valuesTooLong s r.values then refuse .badShape s
    else if queueFull s then refuse .qfull s
    else answer .none { s with q := s.q ++ [{ r with retries := s.retries }] }

/-- ENQ.RC (R222). -/
def execEnqRC (slave : Byte) (addr qty : Word) (s : State) : Host.Outcome State Fault Refusal :=
  enq { slave := slave, fn := Config.fcRC, addr := addr, qty := qty } s

/-- ENQ.RHR (R223). -/
def execEnqRHR (slave : Byte) (addr qty : Word) (s : State) : Host.Outcome State Fault Refusal :=
  enq { slave := slave, fn := Config.fcRHR, addr := addr, qty := qty } s

/-- ENQ.RIR (R224). -/
def execEnqRIR (slave : Byte) (addr qty : Word) (s : State) : Host.Outcome State Fault Refusal :=
  enq { slave := slave, fn := Config.fcRIR, addr := addr, qty := qty } s

/-- ENQ.WSC (R225): the value is stored as given. -/
def execEnqWSC (slave : Byte) (addr value : Word) (s : State) : Host.Outcome State Fault Refusal :=
  enq { slave := slave, fn := Config.fcWSC, addr := addr, qty := 1, values := [value] } s

/-- ENQ.WSR (R226). -/
def execEnqWSR (slave : Byte) (addr value : Word) (s : State) : Host.Outcome State Fault Refusal :=
  enq { slave := slave, fn := Config.fcWSR, addr := addr, qty := 1, values := [value] } s

/-- ENQ.WMC (R227): the quantity is the length of the list, which is at most 65535 where the command is accepted. -/
def execEnqWMC (slave : Byte) (addr : Word) (values : List Word) (s : State) : Host.Outcome State Fault Refusal :=
  enq { slave := slave, fn := Config.fcWMC, addr := addr, qty := BitVec.ofNat 16 values.length, values := values } s

/-- ENQ.WMR (R228). -/
def execEnqWMR (slave : Byte) (addr : Word) (values : List Word) (s : State) : Host.Outcome State Fault Refusal :=
  enq { slave := slave, fn := Config.fcWMR, addr := addr, qty := BitVec.ofNat 16 values.length, values := values } s

/-- ENQ.RFR (R229). -/
def execEnqRFR (slave : Byte) (file recno reclen : Word) (s : State) : Host.Outcome State Fault Refusal :=
  enq { slave := slave, fn := Config.fcRFR, file := file, recno := recno, reclen := reclen } s

end Sys2Proof.Machine
end

