-- ==== Sys2Proof/Machine/Encode.lean ====
section
/-! DEFINITION. The Frame Codec, encode side (42_frame_encode.md): the primitives `emit8`, `emit16`, `finish` (R150) over
the bytes written so far, one encoder per frame kind (R155 to R172), and the two selectors (R154, R163). An encode
writes `TXB` and `TXN` only: it is a function to the frame, which `putFrame` stores (10_state.md R42). -/

namespace Sys2Proof.Machine

/-- `emit8(b)` (R150). -/
def emit8 (b : Byte) (t : List Byte) : Except Fault (List Byte) :=
  if t.length + 1 > Config.txCap then .error .encodeOverflow else .ok (t ++ [b])

/-- `emit16(v)` (R150), big-endian. -/
def emit16 (v : Word) (t : List Byte) : Except Fault (List Byte) :=
  if t.length + 2 > Config.txCap then .error .encodeOverflow else .ok (t ++ putWord v)

/-- Bytes in order. -/
def emitBytes : List Byte → List Byte → Except Fault (List Byte)
  | [], t => .ok t
  | b :: bs, t => do
    let t ← emit8 b t
    emitBytes bs t

/-- Words in order. -/
def emitWords : List Word → List Byte → Except Fault (List Byte)
  | [], t => .ok t
  | w :: ws, t => do
    let t ← emit16 w t
    emitWords ws t

/-- `finish()` (R150, R153): the trailer over every byte written so far, low byte first. -/
def finishFrame (t : List Byte) : Except Fault (List Byte) :=
  if t.length + 2 > Config.txCap then .error .encodeOverflow else .ok (t ++ trailer t)

/-- `begin(); emit8(slave); emit8(fn)` (R151): neither byte is checked or altered. -/
def beginFrame (slave fn : Byte) : Except Fault (List Byte) := do
  let t ← emit8 slave []
  emit8 fn t

/-- The frames with two word fields: every 8-byte frame (30_encoding.md R97 rows 1 and 2, R98 rows 3 and 4). -/
def encodeTwoWords (slave fn : Byte) (a b : Word) : Except Fault (List Byte) := do
  let t ← beginFrame slave fn
  let t ← emit16 a t
  let t ← emit16 b t
  finishFrame t

/-! Requests. -/

/-- REQ.RC (R155). -/
def encodeReqRC (r : Request) : Except Fault (List Byte) := encodeTwoWords r.slave Config.fcRC r.addr r.qty

/-- REQ.RHR (R156). -/
def encodeReqRHR (r : Request) : Except Fault (List Byte) := encodeTwoWords r.slave Config.fcRHR r.addr r.qty

/-- REQ.RIR (R157). -/
def encodeReqRIR (r : Request) : Except Fault (List Byte) := encodeTwoWords r.slave Config.fcRIR r.addr r.qty

/-- REQ.WSC (R158): any value that is not 0 goes out as 0xFF00. -/
def encodeReqWSC (r : Request) : Except Fault (List Byte) := do
  let w ← firstValue r.values
  encodeTwoWords r.slave Config.fcWSC r.addr (coilWord w)

/-- REQ.WSR (R159). -/
def encodeReqWSR (r : Request) : Except Fault (List Byte) := do
  let w ← firstValue r.values
  encodeTwoWords r.slave Config.fcWSR r.addr w

/-- REQ.WMC (R160). A Request with fewer values than its quantity has not the shape of 10_state.md R21 (log 13). -/
def encodeReqWMC (r : Request) : Except Fault (List Byte) :=
  if r.values.length < r.qty.toNat then .error .badShape
  else do
    let t ← beginFrame r.slave Config.fcWMC
    let t ← emit16 r.addr t
    let t ← emit16 r.qty t
    let t ← emit8 (BitVec.ofNat 8 (coilBytes r.qty.toNat)) t
    let t ← emitBytes (pack r.values r.qty.toNat) t
    finishFrame t

/-- REQ.WMR (R161). -/
def encodeReqWMR (r : Request) : Except Fault (List Byte) :=
  if r.values.length < r.qty.toNat then .error .badShape
  else do
    let t ← beginFrame r.slave Config.fcWMR
    let t ← emit16 r.addr t
    let t ← emit16 r.qty t
    let t ← emit8 (BitVec.ofNat 8 (2 * r.qty.toNat)) t
    let t ← emitWords (r.values.take r.qty.toNat) t
    finishFrame t

/-- REQ.RFR (R162): one fixed sub-request. -/
def encodeReqRFR (r : Request) : Except Fault (List Byte) := do
  let t ← beginFrame r.slave Config.fcRFR
  let t ← emit8 Config.rfrConst07 t
  let t ← emit8 Config.rfrConst06 t
  let t ← emit16 r.file t
  let t ← emit16 r.recno t
  let t ← emit16 r.reclen t
  finishFrame t

/-- `encode_request(R)` (R154). -/
def encodeRequest (r : Request) : Except Fault (List Byte) :=
  if r.fn = Config.fcRC then encodeReqRC r
  else if r.fn = Config.fcRHR then encodeReqRHR r
  else if r.fn = Config.fcRIR then encodeReqRIR r
  else if r.fn = Config.fcWSC then encodeReqWSC r
  else if r.fn = Config.fcWSR then encodeReqWSR r
  else if r.fn = Config.fcWMC then encodeReqWMC r
  else if r.fn = Config.fcWMR then encodeReqWMR r
  else if r.fn = Config.fcRFR then encodeReqRFR r
  else .error .encodeUnsupported

/-! Responses. -/

/-- RSP.RC (R164). Each value must be 0 or 1 (10_state.md R23, 60_exceptions.md R322). -/
def encodeRspRC (p : Normal) : Except Fault (List Byte) :=
  if p.values.length ≠ p.qty.toNat ∨ coilValues p.values = false then .error .badShape
  else do
    let t ← beginFrame p.slave Config.fcRC
    let t ← emit8 (BitVec.ofNat 8 (coilBytes p.qty.toNat)) t
    let t ← emitBytes (pack p.values p.qty.toNat) t
    finishFrame t

/-- The register responses: a byte count and words (30_encoding.md R98 row 2). -/
def encodeWordList (fn : Byte) (p : Normal) : Except Fault (List Byte) :=
  if p.values.length ≠ p.qty.toNat then .error .badShape
  else do
    let t ← beginFrame p.slave fn
    let t ← emit8 (BitVec.ofNat 8 (2 * p.qty.toNat)) t
    let t ← emitWords p.values t
    finishFrame t

/-- RSP.RHR (R165). -/
def encodeRspRHR (p : Normal) : Except Fault (List Byte) := encodeWordList Config.fcRHR p

/-- RSP.RIR (R166). -/
def encodeRspRIR (p : Normal) : Except Fault (List Byte) := encodeWordList Config.fcRIR p

/-- The one value of a write-single response, which has quantity 1 (10_state.md R23; log 12). -/
def singleValue (p : Normal) : Except Fault Word :=
  match p.values with
  | [w] => if p.qty = 1 then .ok w else .error .badShape
  | _ => .error .badShape

/-- RSP.WSC (R167). -/
def encodeRspWSC (p : Normal) : Except Fault (List Byte) := do
  let w ← singleValue p
  encodeTwoWords p.slave Config.fcWSC p.addr (coilWord w)

/-- RSP.WSR (R168). -/
def encodeRspWSR (p : Normal) : Except Fault (List Byte) := do
  let w ← singleValue p
  encodeTwoWords p.slave Config.fcWSR p.addr w

/-- The write-multiple responses echo address and quantity and carry no value (10_state.md R23; log 12). -/
def encodeEchoQty (fn : Byte) (p : Normal) : Except Fault (List Byte) :=
  if p.values.isEmpty then encodeTwoWords p.slave fn p.addr p.qty else .error .badShape

/-- RSP.WMC (R169). -/
def encodeRspWMC (p : Normal) : Except Fault (List Byte) := encodeEchoQty Config.fcWMC p

/-- RSP.WMR (R170). -/
def encodeRspWMR (p : Normal) : Except Fault (List Byte) := encodeEchoQty Config.fcWMR p

/-- RSP.RFR (R171). -/
def encodeRspRFR (p : Normal) : Except Fault (List Byte) :=
  if p.values.length ≠ p.qty.toNat then .error .badShape
  else do
    let t ← beginFrame p.slave Config.fcRFR
    let t ← emit8 (BitVec.ofNat 8 (2 * p.qty.toNat + 2)) t
    let t ← emit8 (BitVec.ofNat 8 (2 * p.qty.toNat + 1)) t
    let t ← emit8 Config.rfrConst06 t
    let t ← emitWords p.values t
    finishFrame t

/-- RSP.EXC (R172): the function byte already carries bit 7. -/
def encodeRspEXC (e : ExceptionRsp) : Except Fault (List Byte) := do
  let t ← beginFrame e.slave e.fn
  let t ← emit8 e.code t
  finishFrame t

/-- A Normal response, by its own function (R163). -/
def encodeNormal (p : Normal) : Except Fault (List Byte) :=
  if p.fn = Config.fcRC then encodeRspRC p
  else if p.fn = Config.fcRHR then encodeRspRHR p
  else if p.fn = Config.fcRIR then encodeRspRIR p
  else if p.fn = Config.fcWSC then encodeRspWSC p
  else if p.fn = Config.fcWSR then encodeRspWSR p
  else if p.fn = Config.fcWMC then encodeRspWMC p
  else if p.fn = Config.fcWMR then encodeRspWMR p
  else if p.fn = Config.fcRFR then encodeRspRFR p
  else .error .encodeUnsupported

/-- `encode_response(P)` (R163). -/
def encodeResponse : Response → Except Fault (List Byte)
  | .normal p => encodeNormal p
  | .exception e => encodeRspEXC e

end Sys2Proof.Machine
end

