-- ==== Sys2Proof/Machine/FrameDecode.lean ====
section
/-! DEFINITION. The Frame Codec, decode and synchronize side (43_frame_decode_sync.md): the CRC test, the two scans with
their length rules, and one decoder per frame kind. All are pure functions of the buffer's filled bytes `B` (whose length
is `RXN`) and, on the master side, of the current Request. Every read is bounds-checked (R182, 20_memory.md R64). -/

namespace Sys2Proof.Machine

/-- `crc_ok(off, len)` (R183). -/
def crcOk (B : List Byte) (off len : Nat) : Except Fault Bool := do
  let s ← memRead B off (len - 2)
  let t ← getWordFlip B (off + len - 2)
  .ok (crc16 Config.crcSeed s == t)

/-- What a scan located: the offset, the length, and, on the master side, whether it is an exception (R184). -/
structure Hit where
  off : Nat
  len : Nat
  exc : Bool
deriving DecidableEq, Repr

/-- The offsets a scan tries, ascending: 0 to `RXN - minLen`, none when `RXN < minLen` (R181). -/
def scanOffsets (B : List Byte) (minLen : Nat) : List Nat :=
  if B.length < minLen then [] else List.range (B.length - minLen + 1)

/-- The first offset the test accepts. -/
def scan (test : Nat → Except Fault (Option Hit)) : List Nat → Except Fault (Option Hit)
  | [] => .ok none
  | off :: rest => do
    match ← test off with
    | some h => .ok (some h)
    | none => scan test rest

/-! The master scan. -/

/-- `rsp_len(f, g, off)` (R185, 30_encoding.md R102). -/
def rspLen (B : List Byte) (f g : Byte) (off : Nat) : Except Fault (Option Nat) :=
  if g ≠ f then .ok (some 5)
  else if f = Config.fcRC ∨ f = Config.fcRHR ∨ f = Config.fcRIR ∨ f = Config.fcRFR then do
    let bc ← byteAt B (off + 2)
    .ok (some (5 + bc.toNat))
  else if f = Config.fcWSC ∨ f = Config.fcWSR ∨ f = Config.fcWMC ∨ f = Config.fcWMR then .ok (some 8)
  else .ok none

/-- The end of both candidate tests: the span must fit and its CRC must match (R182, R183). -/
def testSpan (B : List Byte) (off len : Nat) (exc : Bool) : Except Fault (Option Hit) :=
  if off + len > B.length then .ok none
  else do
    let good ← crcOk B off len
    .ok (if good then some ⟨off, len, exc⟩ else none)

/-- One turn of the loop of `find_M` (R184). -/
def testM (B : List Byte) (slave f : Byte) (off : Nat) : Except Fault (Option Hit) := do
  let a ← byteAt B off
  if a ≠ slave then .ok none
  else do
    let g ← byteAt B (off + 1)
    if g ≠ f ∧ g ≠ f ||| 0x80 then .ok none
    else do
      match ← rspLen B f g off with
      | none => .ok none
      | some len => testSpan B off len (g != f)

/-- `find_M(slave, f)` (R184). -/
def findM (B : List Byte) (slave f : Byte) : Except Fault (Option Hit) :=
  scan (testM B slave f) (scanOffsets B Config.minLenM)

/-! The slave scan. -/

/-- `req_len(g, off)` (R191, 30_encoding.md R103). -/
def reqLen (B : List Byte) (g : Byte) (off : Nat) : Except Fault (Option Nat) :=
  if g = Config.fcRC ∨ g = Config.fcRHR ∨ g = Config.fcRIR ∨ g = Config.fcWSC ∨ g = Config.fcWSR then .ok (some 8)
  else if g = Config.fcWMC ∨ g = Config.fcWMR then
    if off + 6 ≥ B.length then .ok none
    else do
      let bc ← byteAt B (off + 6)
      .ok (some (9 + bc.toNat))
  else if g = Config.fcRFR then .ok (some 12)
  else .ok (some (B.length - off))

/-- One turn of the loop of `find_S` (R190). -/
def testS (B : List Byte) (off : Nat) : Except Fault (Option Hit) := do
  let a ← byteAt B off
  if a ≥ Config.slaveScanBound then .ok none
  else do
    let g ← byteAt B (off + 1)
    match ← reqLen B g off with
    | none => .ok none
    | some len => testSpan B off len false

/-- `find_S()` (R190). -/
def findS (B : List Byte) : Except Fault (Option Hit) := scan (testS B) (scanOffsets B Config.minLenS)

/-! Master-side decoders (bytes to Response). -/

/-- DEC.RSP.EXC (R193). -/
def decRspEXC (B : List Byte) (off : Nat) : Except Fault (Option Response) := do
  let slave ← byteAt B off
  let fn ← byteAt B (off + 1)
  let code ← byteAt B (off + 2)
  .ok (some (.exception { slave := slave, fn := fn, code := code }))

/-- DEC.RSP.RC (R194). -/
def decRspRC (B : List Byte) (off : Nat) (r : Request) : Except Fault (Option Response) := do
  let bc ← byteAt B (off + 2)
  if 8 * bc.toNat < r.qty.toNat then .ok none
  else do
    let v ← getCoils B (off + 3) 0 r.qty.toNat
    let slave ← byteAt B off
    .ok (some (.normal { slave := slave, fn := Config.fcRC, addr := r.addr, qty := r.qty, values := v }))

/-- The body of R195 and R196, which differ in the function byte. -/
def decRegisters (fn : Byte) (B : List Byte) (off : Nat) (r : Request) : Except Fault (Option Response) := do
  let bc ← byteAt B (off + 2)
  if bc.toNat < 2 * r.qty.toNat then .ok none
  else do
    let v ← getWords B (off + 3) r.qty.toNat
    let slave ← byteAt B off
    .ok (some (.normal { slave := slave, fn := fn, addr := r.addr, qty := r.qty, values := v }))

/-- DEC.RSP.RHR (R195). -/
def decRspRHR (B : List Byte) (off : Nat) (r : Request) : Except Fault (Option Response) :=
  decRegisters Config.fcRHR B off r

/-- DEC.RSP.RIR (R196). -/
def decRspRIR (B : List Byte) (off : Nat) (r : Request) : Except Fault (Option Response) :=
  decRegisters Config.fcRIR B off r

/-- The body of R197 and R198: the echoed address, then the echoed word against the one the request put on the wire. -/
def decEchoValue (fn : Byte) (wire : Word → Word) (B : List Byte) (off : Nat) (r : Request) :
    Except Fault (Option Response) := do
  let a ← getWord B (off + 2)
  let w ← getWord B (off + 4)
  if a ≠ r.addr then .ok none
  else do
    let v ← firstValue r.values
    if w ≠ wire v then .ok none
    else do
      let slave ← byteAt B off
      .ok (some (.normal { slave := slave, fn := fn, addr := a, qty := 1, values := [w] }))

/-- DEC.RSP.WSC (R197). -/
def decRspWSC (B : List Byte) (off : Nat) (r : Request) : Except Fault (Option Response) :=
  decEchoValue Config.fcWSC coilWord B off r

/-- DEC.RSP.WSR (R198). -/
def decRspWSR (B : List Byte) (off : Nat) (r : Request) : Except Fault (Option Response) :=
  decEchoValue Config.fcWSR id B off r

/-- The body of R199 and R200: the echoed address and quantity. -/
def decEchoQty (fn : Byte) (B : List Byte) (off : Nat) (r : Request) : Except Fault (Option Response) := do
  let a ← getWord B (off + 2)
  let q ← getWord B (off + 4)
  if a ≠ r.addr ∨ q ≠ r.qty then .ok none
  else do
    let slave ← byteAt B off
    .ok (some (.normal { slave := slave, fn := fn, addr := a, qty := q, values := [] }))

/-- DEC.RSP.WMC (R199). -/
def decRspWMC (B : List Byte) (off : Nat) (r : Request) : Except Fault (Option Response) :=
  decEchoQty Config.fcWMC B off r

/-- DEC.RSP.WMR (R200). -/
def decRspWMR (B : List Byte) (off : Nat) (r : Request) : Except Fault (Option Response) :=
  decEchoQty Config.fcWMR B off r

/-- DEC.RSP.RFR (R201): the sub-response length and the reference type are not read, the request is not read. -/
def decRspRFR (B : List Byte) (off : Nat) : Except Fault (Option Response) := do
  let bc ← byteAt B (off + 2)
  if bc.toNat < 2 then .ok none
  else do
    let n := (bc.toNat - 2) / 2
    let v ← getWords B (off + 5) n
    let slave ← byteAt B off
    .ok (some (.normal { slave := slave, fn := Config.fcRFR, addr := 0, qty := BitVec.ofNat 16 n, values := v }))

/-- `decode_response(off, len, exc, R)` (R192). A function that is none of the eight cannot occur: no candidate of one
is accepted (R185). -/
def decodeResponse (B : List Byte) (h : Hit) (r : Request) : Except Fault (Option Response) :=
  if h.exc then decRspEXC B h.off
  else if r.fn = Config.fcRC then decRspRC B h.off r
  else if r.fn = Config.fcRHR then decRspRHR B h.off r
  else if r.fn = Config.fcRIR then decRspRIR B h.off r
  else if r.fn = Config.fcWSC then decRspWSC B h.off r
  else if r.fn = Config.fcWSR then decRspWSR B h.off r
  else if r.fn = Config.fcWMC then decRspWMC B h.off r
  else if r.fn = Config.fcWMR then decRspWMR B h.off r
  else if r.fn = Config.fcRFR then decRspRFR B h.off
  else .ok none

/-! Slave-side decoders (bytes to Request). -/

/-- The body of R203 to R205: address and quantity, not validated. -/
def decReadReq (fn : Byte) (B : List Byte) (off : Nat) : Except Fault (Option Request) := do
  let slave ← byteAt B off
  let a ← getWord B (off + 2)
  let q ← getWord B (off + 4)
  .ok (some { slave := slave, fn := fn, addr := a, qty := q })

/-- DEC.REQ.RC (R203). -/
def decReqRC (B : List Byte) (off : Nat) : Except Fault (Option Request) := decReadReq Config.fcRC B off

/-- DEC.REQ.RHR (R204). -/
def decReqRHR (B : List Byte) (off : Nat) : Except Fault (Option Request) := decReadReq Config.fcRHR B off

/-- DEC.REQ.RIR (R205). -/
def decReqRIR (B : List Byte) (off : Nat) : Except Fault (Option Request) := decReadReq Config.fcRIR B off

/-- The body of R206 and R207: address and value word, delivered raw. -/
def decWriteReq (fn : Byte) (B : List Byte) (off : Nat) : Except Fault (Option Request) := do
  let slave ← byteAt B off
  let a ← getWord B (off + 2)
  let w ← getWord B (off + 4)
  .ok (some { slave := slave, fn := fn, addr := a, qty := 1, values := [w] })

/-- DEC.REQ.WSC (R206). -/
def decReqWSC (B : List Byte) (off : Nat) : Except Fault (Option Request) := decWriteReq Config.fcWSC B off

/-- DEC.REQ.WSR (R207). -/
def decReqWSR (B : List Byte) (off : Nat) : Except Fault (Option Request) := decWriteReq Config.fcWSR B off

/-- DEC.REQ.WMC (R208). -/
def decReqWMC (B : List Byte) (off : Nat) : Except Fault (Option Request) := do
  let a ← getWord B (off + 2)
  let q ← getWord B (off + 4)
  let bc ← byteAt B (off + 6)
  if 8 * bc.toNat < q.toNat then .ok none
  else do
    let v ← getCoils B (off + 7) 0 q.toNat
    let slave ← byteAt B off
    .ok (some { slave := slave, fn := Config.fcWMC, addr := a, qty := q, values := v })

/-- DEC.REQ.WMR (R209). -/
def decReqWMR (B : List Byte) (off : Nat) : Except Fault (Option Request) := do
  let a ← getWord B (off + 2)
  let q ← getWord B (off + 4)
  let bc ← byteAt B (off + 6)
  if bc.toNat < 2 * q.toNat then .ok none
  else do
    let v ← getWords B (off + 7) q.toNat
    let slave ← byteAt B off
    .ok (some { slave := slave, fn := Config.fcWMR, addr := a, qty := q, values := v })

/-- DEC.REQ.RFR (R210): the two constant bytes are not read. -/
def decReqRFR (B : List Byte) (off : Nat) : Except Fault (Option Request) := do
  let slave ← byteAt B off
  let file ← getWord B (off + 4)
  let recno ← getWord B (off + 6)
  let reclen ← getWord B (off + 8)
  .ok (some { slave := slave, fn := Config.fcRFR, file := file, recno := recno, reclen := reclen })

/-- DEC.REQ.UNSUP (R211): the payload is not interpreted. -/
def decReqUNSUP (B : List Byte) (off : Nat) : Except Fault (Option Request) := do
  let slave ← byteAt B off
  let fn ← byteAt B (off + 1)
  .ok (some { slave := slave, fn := fn })

/-- `decode_request(off, len)` (R202). -/
def decodeRequest (B : List Byte) (off : Nat) : Except Fault (Option Request) := do
  let g ← byteAt B (off + 1)
  if g = Config.fcRC then decReqRC B off
  else if g = Config.fcRHR then decReqRHR B off
  else if g = Config.fcRIR then decReqRIR B off
  else if g = Config.fcWSC then decReqWSC B off
  else if g = Config.fcWSR then decReqWSR B off
  else if g = Config.fcWMC then decReqWMC B off
  else if g = Config.fcWMR then decReqWMR B off
  else if g = Config.fcRFR then decReqRFR B off
  else decReqUNSUP B off

end Sys2Proof.Machine
end

