-- ==== Sys2Proof/Machine/Master.lean ====
section
/-! DEFINITION. The Master Engine's state actions (44_master_engine.md R231 to R248), run by POLL. -/

namespace Sys2Proof.Machine

/-- `remove_head()` (R246): only while `CURQ` says that the head is the Request that was sent. -/
def removeHead (s : State) : State :=
  if s.curq then { s with q := s.q.tail, curq := false } else s

/-- `Q[0].retries <- v`. -/
def setHeadRetries (v : Retry) : List Request → List Request
  | [] => []
  | r :: rest => { r with retries := v } :: rest

/-- `fail()` (R245): the one failure path. -/
def failRequest (s : State) : State :=
  if s.cur.retries > 0 then
    { s with
      cur := { s.cur with retries := s.cur.retries - 1 },
      q := if s.curq then setHeadRetries (s.cur.retries - 1) s.q else s.q }
  else removeHead s

/-- What `transmit_head` does after the write, by its answer (R232, R233, R248). -/
def afterSend (ok : Bool) (r : Request) (s : State) : State :=
  if ok then
    if r.slave ≠ 0 then { s with mstate := .waitingForResponse }
    else if s.params.bcastDequeue then removeHead s else s
  else s

/-- `transmit_head()` (R232) for the head `r`: load `CUR`, encode, purge, tap, write, time stamp. -/
def transmitHead (now : Time) (r : Request) (s : State) : Except Fault State :=
  match encodeRequest r with
  | .error e => .error e
  | .ok f =>
    .ok (afterSend (txOk s) r (tx now f (purge (putFrame f { s with cur := r, curq := true }))))

/-- `idle_action()` (R231). -/
def idleAction (now : Time) (s : State) : Except Fault State :=
  match s.q with
  | [] => .ok s
  | r :: _ => if turnaroundPassed now s then transmitHead now r s else .ok s

/-- `timeout_action()` (R235). -/
def timeoutAction (s : State) : State :=
  { failRequest (raise (.timeout s.cur) s) with mstate := .idle }

/-- `dispatch_normal(p)` (R238): the generic callback, the specific one if it declined, then the removal whatever they
answered. The specific callback's answer is read and ignored. -/
def dispatchNormal (p : Normal) (s : State) : State :=
  let s1 := takeHandled (raise (.response s.cur p) s)
  removeHead (if handled s then s1 else takeHandled (raise (.responseFn p.fn s.cur p) s1))

/-- `dispatch_exception(e)` (R239). -/
def dispatchException (e : ExceptionRsp) (s : State) : State := failRequest (raise (.exception s.cur e) s)

/-- What follows the decode (R236): a rejected decode fails silently (R240). -/
def dispatch (p : Option Response) (s : State) : State :=
  match p with
  | none => failRequest s
  | some (.normal p) => dispatchNormal p s
  | some (.exception e) => dispatchException e s

/-- The scan and the decode of `received_action` (R236). -/
def findResponse (B : List Byte) (cur : Request) : Except Fault (Option Response) := do
  match ← findM B cur.slave cur.fn with
  | none => .ok none
  | some h => decodeResponse B h cur

/-- `received_action()` (R236), which always ends with the purge and the return to `Idle` (R244). -/
def receivedAction (s : State) : Except Fault State :=
  match findResponse (rxBytes s) s.cur with
  | .error e => .error e
  | .ok p => .ok { purge (dispatch p s) with mstate := .idle }

/-- `waiting_action()` (R234, R235, R242). -/
def waitingAction (now : Time) (s : State) : Except Fault State :=
  if frameEnded now s then receivedAction { s with mstate := .responseReceived }
  else if responseTimedOut now s then .ok (timeoutAction s)
  else .ok s

/-- The state action of a master POLL (R230). `ResponseReceived` never stands between commands (10_state.md R30): its
action is what is left to run there. -/
def masterAction (now : Time) (s : State) : Except Fault State :=
  match s.mstate with
  | .idle => idleAction now s
  | .waitingForResponse => waitingAction now s
  | .responseReceived => receivedAction s

end Sys2Proof.Machine
end

