-- ==== Sys2Proof/Machine/Slave.lean ====
section
/-! DEFINITION. The Slave Engine's state action (45_slave_engine.md R272 to R281), run by POLL. -/

namespace Sys2Proof.Machine

/-- The automatic exception that answers an unsupported function (R277). -/
def illegalFunction (r : Request) : Response :=
  .exception { slave := r.slave, fn := excFn r.fn, code := Config.exIllegalFunction }

/-- Encode a Response and transmit it (R278); `none` sends nothing (R279). -/
def respond (now : Time) (p : Option Response) (s : State) : Except Fault State :=
  match p with
  | none => .ok s
  | some p =>
    match encodeResponse p with
    | .error e => .error e
    | .ok f => .ok (tx now f (putFrame f s))

/-- The handlers' answer to a supported Request (R276): the generic handler, then, if it answers none, the specific one. -/
def askHandlers (r : Request) (s : State) : Option Response :=
  match handlerAnswer s with
  | some p => some p
  | none => handlerAnswer (takeAnswer (raise (.request r) s))

/-- The state after that exchange. -/
def raiseRequest (r : Request) (s : State) : State :=
  let s1 := takeAnswer (raise (.request r) s)
  match handlerAnswer s with
  | some _ => s1
  | none => takeAnswer (raise (.requestFn r.fn r) s1)

/-- What is done with the located Request (R274): an unsupported function is answered by the engine itself and no handler
is raised (R277). -/
def serve (now : Time) (r : Request) (s : State) : Except Fault State :=
  if isSupported r.fn then respond now (askHandlers r s) (raiseRequest r s)
  else respond now (some (illegalFunction r)) s

/-- The scan and the decode of `request_action` (R274). -/
def findRequest (B : List Byte) : Except Fault (Option Request) := do
  match ← findS B with
  | none => .ok none
  | some h => decodeRequest B h.off

/-- `request_action()` (R274) before its end: nothing is done where no Request was found (R275). -/
def requestBody (now : Time) (s : State) : Except Fault State :=
  match findRequest (rxBytes s) with
  | .error e => .error e
  | .ok none => .ok s
  | .ok (some r) => serve now r s

/-- `request_action()` (R274), which always ends with the purge and the return to `Idle` (R281). -/
def requestAction (now : Time) (s : State) : Except Fault State :=
  match requestBody now s with
  | .error e => .error e
  | .ok s => .ok { purge s with sstate := .idle }

/-- The state action of a slave POLL (R272). `RequestReceived` never stands between commands (10_state.md R36): its
action is what is left to run there. -/
def slaveAction (now : Time) (s : State) : Except Fault State :=
  match s.sstate with
  | .idle => if requestReady now s then requestAction now { s with sstate := .requestReceived } else .ok s
  | .requestReceived => requestAction now s

end Sys2Proof.Machine
end

