-- ==== Sys2Proof/Machine/Poll.lean ====
section
/-! DEFINITION. POLL on both roles (44_master_engine.md R230, 45_slave_engine.md R272): the chunk is appended first, then
exactly one state action runs. -/

namespace Sys2Proof.Machine

/-- The state action of the instance's role. -/
def stateAction (now : Time) (s : State) : Except Fault State :=
  match s.params.role with
  | .master => masterAction now s
  | .slave => slaveAction now s

/-- POLL (R230, R272). -/
def execPoll (now : Time) (chunk : List Byte) (s : State) : Host.Outcome State Fault Refusal :=
  finish (stateAction now (receive now chunk s))

end Sys2Proof.Machine
end

