-- ==== Sys2Proof/Machine/ReqFrames.lean ====
section
/-! DEFINITION. The request frame rows of the opcode table, each with its encode form and its decode form (42_frame_encode.md
R155 to R162, 43_frame_decode_sync.md R203 to R211; log 1). The encode form writes `TXB` and `TXN` and nothing else; the
decode form writes nothing. -/

namespace Sys2Proof.Machine

/-- The end of an encode form: the frame stands in `TXB` (R150), and on the result port. -/
def buildFrame (e : Except Fault (List Byte)) (s : State) : Host.Outcome State Fault Refusal :=
  match e with
  | .error f => .fault f
  | .ok t => answer (.frame t) (putFrame t s)

/-- The end of a request decode form: the Request, or none, on the result port. -/
def showRequest (e : Except Fault (Option Request)) (s : State) : Host.Outcome State Fault Refusal :=
  match e with
  | .error f => .fault f
  | .ok r => answer (.request r) s

/-- REQ.RC (R155, R203). -/
def execReqRC (f : ReqForm) (s : State) : Host.Outcome State Fault Refusal :=
  match f with
  | .enc d => buildFrame (encodeReqRC (d.toRequest Config.fcRC)) s
  | .dec off => showRequest (decReqRC (rxBytes s) off) s

/-- REQ.RHR (R156, R204). -/
def execReqRHR (f : ReqForm) (s : State) : Host.Outcome State Fault Refusal :=
  match f with
  | .enc d => buildFrame (encodeReqRHR (d.toRequest Config.fcRHR)) s
  | .dec off => showRequest (decReqRHR (rxBytes s) off) s

/-- REQ.RIR (R157, R205). -/
def execReqRIR (f : ReqForm) (s : State) : Host.Outcome State Fault Refusal :=
  match f with
  | .enc d => buildFrame (encodeReqRIR (d.toRequest Config.fcRIR)) s
  | .dec off => showRequest (decReqRIR (rxBytes s) off) s

/-- REQ.WSC (R158, R206). -/
def execReqWSC (f : ReqForm) (s : State) : Host.Outcome State Fault Refusal :=
  match f with
  | .enc d => buildFrame (encodeReqWSC (d.toRequest Config.fcWSC)) s
  | .dec off => showRequest (decReqWSC (rxBytes s) off) s

/-- REQ.WSR (R159, R207). -/
def execReqWSR (f : ReqForm) (s : State) : Host.Outcome State Fault Refusal :=
  match f with
  | .enc d => buildFrame (encodeReqWSR (d.toRequest Config.fcWSR)) s
  | .dec off => showRequest (decReqWSR (rxBytes s) off) s

/-- REQ.WMC (R160, R208). -/
def execReqWMC (f : ReqForm) (s : State) : Host.Outcome State Fault Refusal :=
  match f with
  | .enc d => buildFrame (encodeReqWMC (d.toRequest Config.fcWMC)) s
  | .dec off => showRequest (decReqWMC (rxBytes s) off) s

/-- REQ.WMR (R161, R209). -/
def execReqWMR (f : ReqForm) (s : State) : Host.Outcome State Fault Refusal :=
  match f with
  | .enc d => buildFrame (encodeReqWMR (d.toRequest Config.fcWMR)) s
  | .dec off => showRequest (decReqWMR (rxBytes s) off) s

/-- REQ.RFR (R162, R210). -/
def execReqRFR (f : ReqForm) (s : State) : Host.Outcome State Fault Refusal :=
  match f with
  | .enc d => buildFrame (encodeReqRFR (d.toRequest Config.fcRFR)) s
  | .dec off => showRequest (decReqRFR (rxBytes s) off) s

/-- REQ.UNSUP (R211): decoded only. The encoder of a Request whose function is none of the eight is `fault
EncodeUnsupported` (R154). -/
def execReqUNSUP (f : UnsupForm) (s : State) : Host.Outcome State Fault Refusal :=
  match f with
  | .enc slave fn => buildFrame (encodeRequest { slave := slave, fn := fn }) s
  | .dec off => showRequest (decReqUNSUP (rxBytes s) off) s

end Sys2Proof.Machine
end

