-- ==== Sys2Proof/Machine/RspFrames.lean ====
section
/-! DEFINITION. The response frame rows of the opcode table, each with its encode form and its decode form
(42_frame_encode.md R164 to R172, 43_frame_decode_sync.md R193 to R201; log 1). The decode form's current Request is an
operand (R192); POLL passes `CUR`. -/

namespace Sys2Proof.Machine

/-- The end of a response decode form: the Response, or none, on the result port. -/
def showResponse (e : Except Fault (Option Response)) (s : State) : Host.Outcome State Fault Refusal :=
  match e with
  | .error f => .fault f
  | .ok p => answer (.response p) s

/-- RSP.RC (R164, R194). -/
def execRspRC (f : RspForm) (s : State) : Host.Outcome State Fault Refusal :=
  match f with
  | .enc d => buildFrame (encodeRspRC (d.toNormal Config.fcRC)) s
  | .dec off cur => showResponse (decRspRC (rxBytes s) off (cur.toRequest Config.fcRC)) s

/-- RSP.RHR (R165, R195). -/
def execRspRHR (f : RspForm) (s : State) : Host.Outcome State Fault Refusal :=
  match f with
  | .enc d => buildFrame (encodeRspRHR (d.toNormal Config.fcRHR)) s
  | .dec off cur => showResponse (decRspRHR (rxBytes s) off (cur.toRequest Config.fcRHR)) s

/-- RSP.RIR (R166, R196). -/
def execRspRIR (f : RspForm) (s : State) : Host.Outcome State Fault Refusal :=
  match f with
  | .enc d => buildFrame (encodeRspRIR (d.toNormal Config.fcRIR)) s
  | .dec off cur => showResponse (decRspRIR (rxBytes s) off (cur.toRequest Config.fcRIR)) s

/-- RSP.WSC (R167, R197). -/
def execRspWSC (f : RspForm) (s : State) : Host.Outcome State Fault Refusal :=
  match f with
  | .enc d => buildFrame (encodeRspWSC (d.toNormal Config.fcWSC)) s
  | .dec off cur => showResponse (decRspWSC (rxBytes s) off (cur.toRequest Config.fcWSC)) s

/-- RSP.WSR (R168, R198). -/
def execRspWSR (f : RspForm) (s : State) : Host.Outcome State Fault Refusal :=
  match f with
  | .enc d => buildFrame (encodeRspWSR (d.toNormal Config.fcWSR)) s
  | .dec off cur => showResponse (decRspWSR (rxBytes s) off (cur.toRequest Config.fcWSR)) s

/-- RSP.WMC (R169, R199). -/
def execRspWMC (f : RspForm) (s : State) : Host.Outcome State Fault Refusal :=
  match f with
  | .enc d => buildFrame (encodeRspWMC (d.toNormal Config.fcWMC)) s
  | .dec off cur => showResponse (decRspWMC (rxBytes s) off (cur.toRequest Config.fcWMC)) s

/-- RSP.WMR (R170, R200). -/
def execRspWMR (f : RspForm) (s : State) : Host.Outcome State Fault Refusal :=
  match f with
  | .enc d => buildFrame (encodeRspWMR (d.toNormal Config.fcWMR)) s
  | .dec off cur => showResponse (decRspWMR (rxBytes s) off (cur.toRequest Config.fcWMR)) s

/-- RSP.RFR (R171, R201): the request is not read. -/
def execRspRFR (f : RspForm) (s : State) : Host.Outcome State Fault Refusal :=
  match f with
  | .enc d => buildFrame (encodeRspRFR (d.toNormal Config.fcRFR)) s
  | .dec off _ => showResponse (decRspRFR (rxBytes s) off) s

/-- RSP.EXC (R172, R193). -/
def execRspEXC (f : ExcForm) (s : State) : Host.Outcome State Fault Refusal :=
  match f with
  | .enc slave fn code => buildFrame (encodeRspEXC { slave := slave, fn := fn, code := code }) s
  | .dec off => showResponse (decRspEXC (rxBytes s) off) s

end Sys2Proof.Machine
end

