-- ==== Sys2Proof/Machine/Unit.lean ====
section
/-! DEFINITION. The unit commands: the CRC Engine and the Word Codec by themselves (40_crc.md R133, 41_word_codec.md
R141 to R144). They change no state; the value is on the result port. -/

namespace Sys2Proof.Machine

/-- CRC16 (R133). -/
def execCrc16 (seed : Word) (bytes : List Byte) (s : State) : Host.Outcome State Fault Refusal :=
  answer (.word (crc16 seed bytes)) s

/-- PUTW (R141). -/
def execPutw (value : Word) (s : State) : Host.Outcome State Fault Refusal :=
  answer (.bytePair (hiByte value) (loByte value)) s

/-- GETW (R142). -/
def execGetw (b0 b1 : Byte) (s : State) : Host.Outcome State Fault Refusal :=
  answer (.word (mkWord b0 b1)) s

/-- PUTWF (R143). -/
def execPutwf (value : Word) (s : State) : Host.Outcome State Fault Refusal :=
  answer (.bytePair (loByte value) (hiByte value)) s

/-- GETWF (R144). -/
def execGetwf (b0 b1 : Byte) (s : State) : Host.Outcome State Fault Refusal :=
  answer (.word (mkWord b1 b0)) s

end Sys2Proof.Machine
end

