-- ==== Sys2Proof/Machine/Dispatch.lean ====
section
/-! DEFINITION. One arm per constructor of Instr (opcode_table.json). -/

namespace Sys2Proof.Machine

/-- The effect of one instruction. -/
def exec (i : Instr) (s : State) : Host.Outcome State Fault Refusal :=
  match i with
  | .enqRC slave addr qty => Sys2Proof.Machine.execEnqRC slave addr qty s
  | .enqRHR slave addr qty => Sys2Proof.Machine.execEnqRHR slave addr qty s
  | .enqRIR slave addr qty => Sys2Proof.Machine.execEnqRIR slave addr qty s
  | .enqWSC slave addr value => Sys2Proof.Machine.execEnqWSC slave addr value s
  | .enqWSR slave addr value => Sys2Proof.Machine.execEnqWSR slave addr value s
  | .enqWMC slave addr values => Sys2Proof.Machine.execEnqWMC slave addr values s
  | .enqWMR slave addr values => Sys2Proof.Machine.execEnqWMR slave addr values s
  | .enqRFR slave file recno reclen => Sys2Proof.Machine.execEnqRFR slave file recno reclen s
  | .poll now chunk => Sys2Proof.Machine.execPoll now chunk s
  | .rxpush now chunk => Sys2Proof.Machine.execRxpush now chunk s
  | .cfgwr reg data => Sys2Proof.Machine.execCfgwr reg data s
  | .cfgrd reg => Sys2Proof.Machine.execCfgrd reg s
  | .qclear => Sys2Proof.Machine.execQclear s
  | .qcount => Sys2Proof.Machine.execQcount s
  | .qempty => Sys2Proof.Machine.execQempty s
  | .crc16 seed bytes => Sys2Proof.Machine.execCrc16 seed bytes s
  | .putw value => Sys2Proof.Machine.execPutw value s
  | .getw b0 b1 => Sys2Proof.Machine.execGetw b0 b1 s
  | .putwf value => Sys2Proof.Machine.execPutwf value s
  | .getwf b0 b1 => Sys2Proof.Machine.execGetwf b0 b1 s
  | .reqRC f => Sys2Proof.Machine.execReqRC f s
  | .reqRHR f => Sys2Proof.Machine.execReqRHR f s
  | .reqRIR f => Sys2Proof.Machine.execReqRIR f s
  | .reqWSC f => Sys2Proof.Machine.execReqWSC f s
  | .reqWSR f => Sys2Proof.Machine.execReqWSR f s
  | .reqWMC f => Sys2Proof.Machine.execReqWMC f s
  | .reqWMR f => Sys2Proof.Machine.execReqWMR f s
  | .reqRFR f => Sys2Proof.Machine.execReqRFR f s
  | .reqUNSUP f => Sys2Proof.Machine.execReqUNSUP f s
  | .rspRC f => Sys2Proof.Machine.execRspRC f s
  | .rspRHR f => Sys2Proof.Machine.execRspRHR f s
  | .rspRIR f => Sys2Proof.Machine.execRspRIR f s
  | .rspWSC f => Sys2Proof.Machine.execRspWSC f s
  | .rspWSR f => Sys2Proof.Machine.execRspWSR f s
  | .rspWMC f => Sys2Proof.Machine.execRspWMC f s
  | .rspWMR f => Sys2Proof.Machine.execRspWMR f s
  | .rspRFR f => Sys2Proof.Machine.execRspRFR f s
  | .rspEXC f => Sys2Proof.Machine.execRspEXC f s

end Sys2Proof.Machine
end

