-- ==== Sys2Proof/Machine/Present.lean ====
section
/-! DEFINITION. What a presented port word does before an instruction runs, and what one that is no instruction does. -/

namespace Sys2Proof.Machine

/-- A port word the decoder rejects. A reserved opcode is refused `ILLEGAL_CMD` (30_encoding.md R113). The other two can
be met at the frame rows only (log 19): a response function without a layout (42_frame_encode.md R163), an offset that
`RXB` does not have (20_memory.md R64). -/
def rejectWord (e : DecodeError) (s : State) : Host.Outcome State Fault Refusal :=
  match e with
  | .reservedOpcode _ => refuse .illegalCmd s
  | .noLayout _ => .fault .encodeUnsupported
  | .badOffset _ => .fault .outOfBounds

/-- One port word: decoded and run. -/
def present (p : PortWord) (s : State) : Host.Outcome State Fault Refusal :=
  match decode p with
  | .ok i => exec i s
  | .error e => rejectWord e s

/-- One input: the reset, which ignores a command beside it (70_reset_and_hazards.md R350), a command, or an overlapping
invocation, which the model does not take (00_scope.md R7). -/
def takeInput (i : Input) (s : State) : Host.Outcome State Fault Refusal :=
  match i with
  | .rst _ => .next (applyReset s)
  | .cmd p => present p s
  | .overlap _ _ => .refused .concurrentInvocation

end Sys2Proof.Machine
end

