-- ==== Sys2Proof/Machine/Step.lean ====
section
/-! DEFINITION. One step: the next input of the port is taken. With nothing presented, nothing happens (00_scope.md R6;
log 9). -/

namespace Sys2Proof.Machine

/-- One step of the instance. -/
def step (s : State) : Host.Outcome State Fault Refusal :=
  match s.inputs with
  | [] => .next s
  | i :: rest => takeInput i { s with inputs := rest }

/-- The state with a table word presented on the port as the next command, every operand port zero or empty (log 9, 18). -/
def State.withFetchWord (s : State) (_nbits w : Nat) : State :=
  { s with inputs := .cmd (tableWord w) :: s.inputs }

end Sys2Proof.Machine
end

