-- ==== Sys2Proof/Safety.lean ====
section
/-! DEFINITION. What counts as a safe run, in the terms the statements use: the invariant of 10_state.md R51, and what
makes a buffer offset an accepted candidate of a scan (43_frame_decode_sync.md R186, R214). -/

namespace Sys2Proof.Safety

open Sys2Proof.Machine

/-- Every listed address of a memory is below the fill count. -/
def cellsBelow (m : Memory) (n : Nat) : Bool := m.all fun c => decide (c.1 < n)

/-- A buffer in its canonical form within its capacity: what stands at or above the fill count is no state
(10_state.md R40, R42). -/
def bufferOk (m : Memory) (n cap : Nat) : Bool := Memory.wf m && cellsBelow m n && decide (n ≤ cap)

/-- A bounded queue does not pass its capacity (10_state.md R51 (a)). -/
def queueOk (s : State) : Bool :=
  match s.params.qdepth with
  | some d => decide (s.q.length ≤ d)
  | none => true

/-- `CURQ = 1` implies that the head of `Q` equals `CUR` in every field (10_state.md R51 (d)). -/
def headOk (s : State) : Bool := !s.curq || decide (s.q.head? = some s.cur)

/-- `MSTATE` between commands is `Idle` or `WaitingForResponse`, the latter only with a loaded `CUR` whose slave address
is not 0 (10_state.md R51 (b), (c)). -/
def mstateOk (s : State) : Bool :=
  match s.mstate with
  | .idle => true
  | .waitingForResponse => decide (s.cur.slave ≠ 0) && requestShape s.cur
  | .responseReceived => false

/-- A slave owns no queue and no master state (10_state.md R26, 45_slave_engine.md R270; log 15). -/
def roleOk (s : State) : Bool :=
  match s.params.role with
  | .master => true
  | .slave => s.q.isEmpty && !s.curq && decide (s.mstate = .idle)

/-- The invariant of 10_state.md R51: what every state between commands satisfies. -/
structure Inv (s : State) : Prop where
  rx      : bufferOk s.rxb s.rxn Config.rxCap = true
  tx      : bufferOk s.txb s.txn Config.txCap = true
  queue   : queueOk s = true
  entries : ∀ r ∈ s.q, requestShape r = true
  head    : headOk s = true
  mst     : mstateOk s = true
  sst     : s.sstate = .idle
  role    : roleOk s = true

/-- The CRC test of a span that lies in the buffer (43_frame_decode_sync.md R183, 40_crc.md R134): the CRC from seed 0xFFFF
of the span without its last two bytes, against those two, the low byte first. -/
def spanCrc (B : List Byte) (off len : Nat) : Prop :=
  ∃ lo hi : Byte, B[off + len - 2]? = some lo ∧ B[off + len - 1]? = some hi ∧
    (crc16 0xFFFF ((B.drop off).take (len - 2))).toNat = 256 * hi.toNat + lo.toNat

/-- The length of a response candidate with function byte `g` when `f` is expected, as a table (43_frame_decode_sync.md
R185). -/
def rspSpan (B : List Byte) (f g : Byte) (off len : Nat) : Prop :=
  (g ≠ f ∧ len = 5) ∨
  (g = f ∧ f ∈ [0x01, 0x03, 0x04, 0x14] ∧ ∃ bc, B[off + 2]? = some bc ∧ len = 5 + bc.toNat) ∨
  (g = f ∧ f ∈ [0x05, 0x06, 0x0F, 0x10] ∧ len = 8)

/-- The length of a request candidate with function byte `g`, as a table (43_frame_decode_sync.md R191). -/
def reqSpan (B : List Byte) (g : Byte) (off len : Nat) : Prop :=
  (g ∈ [0x01, 0x03, 0x04, 0x05, 0x06] ∧ len = 8) ∨
  (g ∈ [0x0F, 0x10] ∧ ∃ bc, B[off + 6]? = some bc ∧ len = 9 + bc.toNat) ∨
  (g = 0x14 ∧ len = 12) ∨
  (g ∉ [0x01, 0x03, 0x04, 0x05, 0x06, 0x0F, 0x10, 0x14] ∧ len = B.length - off)

/-- An offset `find_M` accepts, with the span it is accepted with (43_frame_decode_sync.md R186), in terms of the
buffer's bytes alone. -/
def validM (B : List Byte) (slave f : Byte) (h : Hit) : Prop :=
  h.off + 5 ≤ B.length ∧
  B[h.off]? = some slave ∧
  (∃ g, B[h.off + 1]? = some g ∧ (g = f ∨ g = f ||| 0x80) ∧ h.exc = (g != f) ∧ rspSpan B f g h.off h.len) ∧
  h.off + h.len ≤ B.length ∧
  spanCrc B h.off h.len

/-- An offset `find_S` accepts, with its span (43_frame_decode_sync.md R214), in terms of the buffer's bytes alone. -/
def validS (B : List Byte) (h : Hit) : Prop :=
  h.off + 4 ≤ B.length ∧
  (∃ a, B[h.off]? = some a ∧ a.toNat < 247) ∧
  (∃ g, B[h.off + 1]? = some g ∧ reqSpan B g h.off h.len) ∧
  h.off + h.len ≤ B.length ∧
  h.exc = false ∧
  spanCrc B h.off h.len

/-- A frame (30_encoding.md R90, R91): its body, slave address to payload, then the low and the high byte of the CRC of the
body from seed 0xFFFF (40_crc.md R134). -/
def sealed (body : List Byte) : List Byte :=
  body ++ [BitVec.ofNat 8 (crc16 0xFFFF body).toNat, BitVec.ofNat 8 ((crc16 0xFFFF body).toNat / 256)]

/-- The bytes of a list of big-endian words (20_memory.md R60). -/
def wordBytes (ws : List Word) : List Byte := ws.flatMap putWord

/-- The big-endian word at offset `a` of a buffer (30_encoding.md R100); zero bytes outside it. -/
def wordAt (B : List Byte) (a : Nat) : Word := mkWord (B.getD a 0) (B.getD (a + 1) 0)

/-- `n` big-endian words from offset `a` on. -/
def wordsAt (B : List Byte) (a n : Nat) : List Word := (List.range n).map fun i => wordAt B (a + 2 * i)

/-- `n` coils of the packed field at offset `a`: coil `i` is bit `i mod 8` of byte `i div 8`, as 0 or 1 (30_encoding.md R100). -/
def coilsAt (B : List Byte) (a n : Nat) : List Word :=
  (List.range n).map fun i => if (B.getD (a + i / 8) 0).getLsbD (i % 8) then 1 else 0

/-- The encode form of a frame row completes with this frame: it stands in `TXB` from offset 0 and nothing else has changed
(42_frame_encode.md R150, R154, R163) but the result port, which shows it (log 1). -/
def BuildsFrame (i : Instr) (s : State) (f : List Byte) : Prop :=
  ∃ t, exec i s = .next t ∧ txBytes t = f ∧ bufferOk t.txb f.length Config.txCap = true ∧
    t = { s with txb := t.txb, txn := f.length, result := some ⟨.ok, .frame f⟩ }

/-- The instruction completes with `OK` and this value on the result port and changes nothing else. -/
def Answers (i : Instr) (s : State) (v : Value) : Prop :=
  exec i s = .next { s with result := some ⟨.ok, v⟩ }

/-- The instruction is refused with this status and changes nothing else (60_exceptions.md R316). -/
def Refuses (i : Instr) (s : State) (st : Status) : Prop :=
  exec i s = .next { s with result := some ⟨st, .none⟩ }

/-- The coil values a decoder delivers for these: 1 for every value that is not 0 (43_frame_decode_sync.md R212). -/
def coilNorm (values : List Word) : List Word := values.map fun v => if v ≠ 0 then 1 else 0

/-- The codes of the eight functions (30_encoding.md R96). -/
def functionCodes : List Byte := [0x01, 0x03, 0x04, 0x05, 0x06, 0x0F, 0x10, 0x14]

/-- A Request as the wire carries it (42_frame_encode.md R175): the coil word of a write-single-coil value, coil values
reduced to 0 and 1, no retry counter. -/
def wireRequest (r : Request) : Request :=
  { r with
    values := if r.fn = Config.fcWSC then r.values.map coilWord
              else if r.fn = Config.fcWMC then coilNorm r.values else r.values
    retries := 0 }

/-- A Normal Response as the master decodes it against the Request `r` it answers (43_frame_decode_sync.md R213 (b)). -/
def wireNormal (p : Normal) (r : Request) : Normal :=
  { p with
    addr := if p.fn = Config.fcRC ∨ p.fn = Config.fcRHR ∨ p.fn = Config.fcRIR then r.addr
            else if p.fn = Config.fcRFR then 0 else p.addr
    values := if p.fn = Config.fcWSC then p.values.map coilWord
              else if p.fn = Config.fcRC then coilNorm p.values else p.values }

/-- A Response as the master decodes it. -/
def wireResponse (p : Response) (r : Request) : Response :=
  match p with
  | .normal p => .normal (wireNormal p r)
  | .exception e => .exception e

/-- The Request `r` that a Response answers (43_frame_decode_sync.md R213 (b)). -/
def matchesRequest (p : Response) (r : Request) : Prop :=
  r.fn ∈ functionCodes ∧
  match p with
  | .exception e => e.slave = r.slave ∧ e.fn = r.fn ||| 0x80
  | .normal p =>
    p.slave = r.slave ∧ p.fn = r.fn ∧
    ((r.fn = Config.fcRC ∨ r.fn = Config.fcRHR ∨ r.fn = Config.fcRIR) → p.qty = r.qty) ∧
    ((r.fn = Config.fcWSC ∨ r.fn = Config.fcWSR ∨ r.fn = Config.fcWMC ∨ r.fn = Config.fcWMR) → p.addr = r.addr) ∧
    ((r.fn = Config.fcWMC ∨ r.fn = Config.fcWMR) → p.qty = r.qty) ∧
    (r.fn = Config.fcWSC → p.values.map coilWord = r.values.map coilWord) ∧
    (r.fn = Config.fcWSR → p.values = r.values)

/-- Whether a Response is an exception. -/
def isException : Response → Bool
  | .normal _ => false
  | .exception _ => true

/-- How many frames an event record shows handed to the transport. -/
def sends : List Event → Nat
  | [] => 0
  | .tx _ :: es => sends es + 1
  | _ :: es => sends es

/-- The commands of send attempts that get no answer: a POLL that sends at `a`, a POLL at `b` that finds the timeout. -/
def attempts : List (Time × Time) → List Input
  | [] => []
  | (a, b) :: rest => .cmd (encode (.poll a [])) :: .cmd (encode (.poll b [])) :: attempts rest

/-- The times of those attempts are due: the turnaround has passed at each `a`, the response timeout at each `b`. -/
def attemptsDue (turn resp lastRx : Time) : Time → List (Time × Time) → Bool
  | _, [] => true
  | lastTx, (a, b) :: rest =>
    elapsed a lastRx turn && elapsed a lastTx turn && elapsed b a resp && attemptsDue turn resp lastRx a rest

/-- The commands of a host that only polls and pushes. -/
def pollsAndPushes : List Input → Bool
  | [] => true
  | .cmd p :: rest => (decide (p.lang = .command) && (decide (p.code = 0x80) || decide (p.code = 0x81))) && pollsAndPushes rest
  | _ :: _ => false

/-- The Request an enqueue command builds from its operands (44_master_engine.md R222 to R229). -/
def enqueued : Instr → Option Request
  | .enqRC slave addr qty => some { slave := slave, fn := 0x01, addr := addr, qty := qty }
  | .enqRHR slave addr qty => some { slave := slave, fn := 0x03, addr := addr, qty := qty }
  | .enqRIR slave addr qty => some { slave := slave, fn := 0x04, addr := addr, qty := qty }
  | .enqWSC slave addr value => some { slave := slave, fn := 0x05, addr := addr, qty := 1, values := [value] }
  | .enqWSR slave addr value => some { slave := slave, fn := 0x06, addr := addr, qty := 1, values := [value] }
  | .enqWMC slave addr values =>
    some { slave := slave, fn := 0x0F, addr := addr, qty := BitVec.ofNat 16 values.length, values := values }
  | .enqWMR slave addr values =>
    some { slave := slave, fn := 0x10, addr := addr, qty := BitVec.ofNat 16 values.length, values := values }
  | .enqRFR slave file recno reclen =>
    some { slave := slave, fn := 0x14, file := file, recno := recno, reclen := reclen }
  | _ => none

/-- The value list is longer than `VMAX` or 65535 (44_master_engine.md R221). -/
def listTooLong (s : State) (values : List Word) : Prop :=
  65535 < values.length ∨ ∃ v, s.params.vmax = some v ∧ v < values.length

/-- `QN = QDEPTH` (44_master_engine.md R221). -/
def queueAtDepth (s : State) : Prop := s.params.qdepth = some s.q.length

/-- The opcodes of 30_encoding.md R111. -/
def commandCodes : List Byte :=
  [0x01, 0x03, 0x04, 0x05, 0x06, 0x0F, 0x10, 0x14, 0x80, 0x81, 0x82, 0x83, 0x84, 0x85, 0x86, 0xC0, 0xC1, 0xC2, 0xC3,
    0xC4]

/-- What an instruction may change, by name: everything else is equal (46_transport_and_host.md R304; 42_frame_encode.md
R154, R163; 43_frame_decode_sync.md R192, R202 for the frame rows). -/
def frameOf (i : Instr) (s t : State) : Prop :=
  match i with
  | .enqRC _ _ _ | .enqRHR _ _ _ | .enqRIR _ _ _ | .enqWSC _ _ _ | .enqWSR _ _ _ | .enqWMC _ _ _ | .enqWMR _ _ _
  | .enqRFR _ _ _ _ => t = { s with q := t.q, result := t.result }
  | .qclear => t = { s with q := t.q, curq := t.curq, result := t.result }
  | .rxpush _ _ => t = { s with rxb := t.rxb, rxn := t.rxn, lastRx := t.lastRx, events := t.events, result := t.result }
  | .cfgwr _ _ =>
    t = { s with responseTo := t.responseTo, frameTo := t.frameTo, turnaround := t.turnaround, retries := t.retries,
                 respDelay := t.respDelay, result := t.result }
  | .poll _ _ =>
    match s.params.role with
    | .master =>
      t = { s with rxb := t.rxb, rxn := t.rxn, lastRx := t.lastRx, lastTx := t.lastTx, txb := t.txb, txn := t.txn,
                   mstate := t.mstate, cur := t.cur, curq := t.curq, q := t.q, events := t.events, txAns := t.txAns,
                   handledAns := t.handledAns, draws := t.draws, result := t.result }
    | .slave =>
      t = { s with rxb := t.rxb, rxn := t.rxn, lastRx := t.lastRx, lastTx := t.lastTx, txb := t.txb, txn := t.txn,
                   sstate := t.sstate, events := t.events, txAns := t.txAns, respAns := t.respAns, draws := t.draws,
                   result := t.result }
  | .cfgrd _ | .qcount | .qempty | .crc16 _ _ | .putw _ | .getw _ _ | .putwf _ | .getwf _ _ =>
    t = { s with result := t.result }
  | .reqRC (.enc _) | .reqRHR (.enc _) | .reqRIR (.enc _) | .reqWSC (.enc _) | .reqWSR (.enc _) | .reqWMC (.enc _)
  | .reqWMR (.enc _) | .reqRFR (.enc _) | .reqUNSUP (.enc _ _) | .rspRC (.enc _) | .rspRHR (.enc _) | .rspRIR (.enc _)
  | .rspWSC (.enc _) | .rspWSR (.enc _) | .rspWMC (.enc _) | .rspWMR (.enc _) | .rspRFR (.enc _)
  | .rspEXC (.enc _ _ _) => t = { s with txb := t.txb, txn := t.txn, result := t.result }
  | .reqRC (.dec _) | .reqRHR (.dec _) | .reqRIR (.dec _) | .reqWSC (.dec _) | .reqWSR (.dec _) | .reqWMC (.dec _)
  | .reqWMR (.dec _) | .reqRFR (.dec _) | .reqUNSUP (.dec _) | .rspRC (.dec _ _) | .rspRHR (.dec _ _)
  | .rspRIR (.dec _ _) | .rspWSC (.dec _ _) | .rspWSR (.dec _ _) | .rspWMC (.dec _ _) | .rspWMR (.dec _ _)
  | .rspRFR (.dec _ _) | .rspEXC (.dec _) => t = { s with result := t.result }

/-- An event record that shows a frame handed to the transport and no failed write. -/
def sentOk : List Event → Bool
  | [] => false
  | .tx _ :: es => !es.contains (.diag .txFailed)
  | _ :: es => sentOk es

/-- How the handlers are consulted about a supported Request (45_slave_engine.md R276): the generic one, and the specific
one only if it answers none. `s` is the state before, `s'` the state with the answers read, `evs` the events raised,
`ans` what came of it. -/
def consulted (r : Request) (s s' : State) (evs : List Event) (ans : Option Response) : Prop :=
  (∃ p, handlerAnswer s = some p ∧ s' = takeAnswer s ∧ evs = [.request r] ∧ ans = some p) ∨
  (handlerAnswer s = none ∧ s' = takeAnswer (takeAnswer s) ∧ evs = [.request r, .requestFn r.fn r] ∧
    ans = handlerAnswer (takeAnswer s))

end Sys2Proof.Safety
end

