-- ==== Sys2Proof/Certificates/Slice0/Obligations.lean ====
section
/-! DEFINITION. The statements for the provers, each with the rule of the spec it formalises. `s1` is everywhere the state
after the receive with which a POLL begins (46_transport_and_host.md R297), and `rxBytes s` the bytes of `RXB` below
`RXN`. Answers of the environment are `txOk`, `handled` and `handlerAnswer` of the state they are read in: the next
element of State's list, or a free value past its end (log 6), so every statement holds for every answer. -/

section Statements

open Sys2Proof Sys2Proof.Machine Sys2Proof.Safety

/-! The port. -/

/-- A step takes the next command and runs the instruction it decodes to (00_scope.md R6, 30_encoding.md R110; the port as a
list of inputs is log 9). -/
def Obligations.StepRunsDecodedInstruction : Prop :=
  ∀ (s : State) (p : PortWord) (rest : List Input) (i : Instr),
    s.inputs = .cmd p :: rest → decode p = .ok i → step s = exec i { s with inputs := rest }

/-- The decoder reads back every well-formed instruction from its encoding with every operand, and decodes to well-formed
instructions only (30_encoding.md R96, R110, R111; the ports of the frame rows are log 1). -/
def Obligations.DecodeInvertsEncode : Prop :=
  (∀ i : Instr, i.wf = true → decode (encode i) = .ok i) ∧
  (∀ (p : PortWord) (i : Instr), decode p = .ok i → i.wf = true)

/-- Port words written out from the code tables (30_encoding.md R96, R111), one of every family; the port that tells the
frame rows from the commands is log 1. -/
def Obligations.DecodedWords : Prop :=
  decode { code := 0x03, slave := 1, addr := 0, qty := 2 } = .ok (.enqRHR 1 0 2) ∧
  decode { code := 0x80, now := 130, chunk := [0x01, 0x03] } = .ok (.poll 130 [0x01, 0x03]) ∧
  decode { code := 0x82, reg := 0x03, data := 300 } = .ok (.cfgwr 0x03 300) ∧
  decode { code := 0x85 } = .ok .qcount ∧
  decode { code := 0xC2, b0 := 0x12, b1 := 0x34 } = .ok (.getw 0x12 0x34) ∧
  decode { lang := .request, code := 0x14, slave := 1, file := 4, recno := 1, reclen := 2 } =
    .ok (.reqRFR (.enc { slave := 1, file := 4, recno := 1, reclen := 2 })) ∧
  decode { lang := .response, code := 0x83, slave := 1, excCode := 2 } = .ok (.rspEXC (.enc 1 0x83 2))

/-- 30_encoding.md R113: an opcode that R111 does not list is refused `ILLEGAL_CMD` and changes no state. -/
def Obligations.ReservedOpcodeRefused : Prop :=
  ∀ (s : State) (p : PortWord) (rest : List Input),
    s.inputs = .cmd p :: rest → p.lang = .command → p.code ∉ commandCodes →
    step s = .next { s with inputs := rest, result := some ⟨.illegalCmd, .none⟩ }

/-- What no frame row stands for: a response function without a layout (42_frame_encode.md R163), in either form, and an
offset that `RXB` does not have (20_memory.md R64). The model's choice for its frame rows: log 19. -/
def Obligations.RejectedFrameWords : Prop :=
  ∀ (s : State) (p : PortWord) (rest : List Input), s.inputs = .cmd p :: rest →
    (p.lang = .response → (p.form = .dec → p.off < 8192) → p.code ∉ functionCodes → p.code.getLsbD 7 = false →
      step s = .fault .encodeUnsupported) ∧
    (p.lang ≠ .command → p.form = .dec → 8192 ≤ p.off → step s = .fault .outOfBounds)

/-- 70_reset_and_hazards.md R350 with the table of 10_state.md R50: the reset input gives every piece of state its reset
value; a command beside it is ignored and no status is returned; no event is raised. That the parameters, the inputs to
come, the answers to come and the event record stay as they are is the model's (log 20). -/
def Obligations.ResetInput : Prop :=
  ∀ (s : State) (beside : Option PortWord) (rest : List Input), s.inputs = .rst beside :: rest →
    ∃ t, step s = .next t ∧
      t.mstate = .idle ∧ t.sstate = .idle ∧ t.rxn = 0 ∧ t.txn = 0 ∧ t.q = [] ∧ t.curq = false ∧ t.lastRx = 0 ∧
      t.lastTx = 0 ∧ t.responseTo = s.params.responseToRst ∧ t.frameTo = s.params.frameToRst ∧
      t.turnaround = s.params.turnaroundRst ∧ t.retries = s.params.retriesRst ∧
      t.respDelay = s.params.respDelayRst ∧
      t.params = s.params ∧ t.result = none ∧ t.events = s.events ∧ t.inputs = rest ∧ t.txAns = s.txAns ∧
      t.handledAns = s.handledAns ∧ t.respAns = s.respAns

/-- 00_scope.md R7: two commands presented to one instance at once are refused by the model. -/
def Obligations.OverlapRefused : Prop :=
  ∀ (s : State) (p q : PortWord) (rest : List Input),
    s.inputs = .overlap p q :: rest → step s = .refused .concurrentInvocation

/-- 00_scope.md R6: no state changes except by a command or by reset (that such a step exists is log 9). -/
def Obligations.NothingPresented : Prop := ∀ s : State, s.inputs = [] → step s = .next s

/-! The Word Codec and the CRC Engine. -/

/-- 41_word_codec.md R141 to R144: the four commands and their values; no state is written. -/
def Obligations.WordCommands : Prop :=
  ∀ (s : State) (v : Word) (b0 b1 : Byte),
    (∃ hi lo : Byte, hi.toNat = v.toNat / 256 ∧ lo.toNat = v.toNat % 256 ∧
      Answers (.putw v) s (.bytePair hi lo) ∧ Answers (.putwf v) s (.bytePair lo hi)) ∧
    (∃ w : Word, w.toNat = 256 * b0.toNat + b1.toNat ∧ Answers (.getw b0 b1) s (.word w)) ∧
    (∃ w : Word, w.toNat = 256 * b1.toNat + b0.toNat ∧ Answers (.getwf b0 b1) s (.word w))

/-- 41_word_codec.md R145: the round trips, and where the two byte orders disagree. -/
def Obligations.WordRoundTrips : Prop :=
  (∀ (s : State) (v : Word), ∃ hi lo : Byte, Answers (.putw v) s (.bytePair hi lo) ∧
    Answers (.putwf v) s (.bytePair lo hi) ∧ Answers (.getw hi lo) s (.word v) ∧ Answers (.getwf lo hi) s (.word v) ∧
    (Answers (.getwf hi lo) s (.word v) ↔ hi = lo) ∧ (Answers (.getw lo hi) s (.word v) ↔ hi = lo)) ∧
  (∀ (s : State) (b0 b1 : Byte), ∃ v w : Word, Answers (.getw b0 b1) s (.word v) ∧
    Answers (.getwf b0 b1) s (.word w) ∧ Answers (.putw v) s (.bytePair b0 b1) ∧
    Answers (.putwf w) s (.bytePair b0 b1))

/-- 40_crc.md R131 to R133: CRC16 folds the byte step over the bytes in ascending order, from the seed; the step is the
exclusive or of the byte and eight shift-XOR steps. No state is written. -/
def Obligations.Crc16Command : Prop :=
  ∀ (s : State) (seed : Word) (bytes : List Byte),
    Answers (.crc16 seed bytes) s (.word (bytes.foldl
      (fun c b => (fun x : Word => if x.getLsbD 0 then (x >>> 1) ^^^ 0xA001 else x >>> 1)^[8] (c ^^^ b.setWidth 16))
      seed))

/-- 40_crc.md R132 and R135 (c): a range can be computed in pieces; the step is linear. -/
def Obligations.CrcLaws : Prop :=
  (∀ (seed : Word) (s t : List Byte), crc16 seed (s ++ t) = crc16 (crc16 seed s) t) ∧
  (∀ x y : Word, crcStep (x ^^^ y) 0 = crcStep x 0 ^^^ crcStep y 0) ∧
  (∀ (c : Word) (b : Byte), crcStep c b = crcStep (c ^^^ b.setWidth 16) 0)

/-- 40_crc.md R135 (e): a span followed by its trailer has CRC zero, and only its trailer does that. -/
def Obligations.CrcResidue : Prop :=
  ∀ (seed : Word) (s : List Byte) (lo hi : Byte),
    crc16 seed (s ++ [lo, hi]) = 0 ↔ lo = loByte (crc16 seed s) ∧ hi = hiByte (crc16 seed s)

/-- 40_crc.md R135 (d): changing one bit changes the CRC; more, changing one byte does. -/
def Obligations.CrcSensitivity : Prop :=
  ∀ (seed : Word) (pre post : List Byte) (b b' : Byte),
    b ≠ b' → crc16 seed (pre ++ b :: post) ≠ crc16 seed (pre ++ b' :: post)

/-! The Frame Codec, encode side. That a frame row is an instruction which runs on both roles and shows its frame on the
result port is the model's choice (logs 1, 26); the frames and what else is written are the rules'. -/

/-- 42_frame_encode.md R155 to R159, R162: the request frames of fixed length, whatever the operands; `coilword` of R158
is written out. The encode form as an instruction with its result is log 1, its running on both roles log 26. -/
def Obligations.RequestFramesFixed : Prop :=
  ∀ (s : State) (d : FrameOps) (v : Word) (vs : List Word),
    BuildsFrame (.reqRC (.enc d)) s (sealed ([d.slave, 0x01] ++ putWord d.addr ++ putWord d.qty)) ∧
    BuildsFrame (.reqRHR (.enc d)) s (sealed ([d.slave, 0x03] ++ putWord d.addr ++ putWord d.qty)) ∧
    BuildsFrame (.reqRIR (.enc d)) s (sealed ([d.slave, 0x04] ++ putWord d.addr ++ putWord d.qty)) ∧
    (d.values = v :: vs →
      BuildsFrame (.reqWSC (.enc d)) s
        (sealed ([d.slave, 0x05] ++ putWord d.addr ++ putWord (if v = 0 then 0x0000 else 0xFF00)))) ∧
    (d.values = v :: vs →
      BuildsFrame (.reqWSR (.enc d)) s (sealed ([d.slave, 0x06] ++ putWord d.addr ++ putWord v))) ∧
    BuildsFrame (.reqRFR (.enc d)) s
      (sealed ([d.slave, 0x14, 0x07, 0x06] ++ putWord d.file ++ putWord d.recno ++ putWord d.reclen))

/-- 42_frame_encode.md R160, R161: the write-multiple request frames, and the quantities from which they overflow. The
encode form as an instruction with its result is log 1, its running on both roles log 26. -/
def Obligations.RequestFramesWithLists : Prop :=
  ∀ (s : State) (d : FrameOps), d.qty.toNat ≤ d.values.length →
    (d.qty.toNat ≤ 1976 →
      BuildsFrame (.reqWMC (.enc d)) s (sealed ([d.slave, 0x0F] ++ putWord d.addr ++ putWord d.qty ++
        [BitVec.ofNat 8 ((d.qty.toNat + 7) / 8)] ++ pack d.values d.qty.toNat))) ∧
    (1976 < d.qty.toNat → exec (.reqWMC (.enc d)) s = .fault .encodeOverflow) ∧
    (d.qty.toNat ≤ 123 →
      BuildsFrame (.reqWMR (.enc d)) s (sealed ([d.slave, 0x10] ++ putWord d.addr ++ putWord d.qty ++
        [BitVec.ofNat 8 (2 * d.qty.toNat)] ++ wordBytes (d.values.take d.qty.toNat)))) ∧
    (123 < d.qty.toNat → exec (.reqWMR (.enc d)) s = .fault .encodeOverflow)

/-- 42_frame_encode.md R167 to R170, R172: the response frames of fixed length, for the shapes of 10_state.md R23 (log 12).
The encode form as an instruction with its result is log 1, its running on both roles log 26. -/
def Obligations.ResponseFramesFixed : Prop :=
  ∀ (s : State) (d : FrameOps) (v : Word) (slave fn code : Byte),
    (d.qty = 1 → d.values = [v] →
      BuildsFrame (.rspWSC (.enc d)) s
        (sealed ([d.slave, 0x05] ++ putWord d.addr ++ putWord (if v = 0 then 0x0000 else 0xFF00)))) ∧
    (d.qty = 1 → d.values = [v] →
      BuildsFrame (.rspWSR (.enc d)) s (sealed ([d.slave, 0x06] ++ putWord d.addr ++ putWord v))) ∧
    (d.values = [] →
      BuildsFrame (.rspWMC (.enc d)) s (sealed ([d.slave, 0x0F] ++ putWord d.addr ++ putWord d.qty))) ∧
    (d.values = [] →
      BuildsFrame (.rspWMR (.enc d)) s (sealed ([d.slave, 0x10] ++ putWord d.addr ++ putWord d.qty))) ∧
    BuildsFrame (.rspEXC (.enc slave fn code)) s (sealed [slave, fn, code])

/-- 42_frame_encode.md R164 to R166, R171: the read response frames, and the quantities from which they overflow, for the
shapes of 10_state.md R23 (log 12). The encode form as an instruction with its result is log 1, its running on both
roles log 26. -/
def Obligations.ResponseFramesWithLists : Prop :=
  ∀ (s : State) (d : FrameOps), d.values.length = d.qty.toNat →
    ((∀ v ∈ d.values, v = 0 ∨ v = 1) → d.qty.toNat ≤ 2008 →
      BuildsFrame (.rspRC (.enc d)) s
        (sealed ([d.slave, 0x01, BitVec.ofNat 8 ((d.qty.toNat + 7) / 8)] ++ pack d.values d.qty.toNat))) ∧
    ((∀ v ∈ d.values, v = 0 ∨ v = 1) → 2008 < d.qty.toNat → exec (.rspRC (.enc d)) s = .fault .encodeOverflow) ∧
    (d.qty.toNat ≤ 125 →
      BuildsFrame (.rspRHR (.enc d)) s
        (sealed ([d.slave, 0x03, BitVec.ofNat 8 (2 * d.qty.toNat)] ++ wordBytes d.values)) ∧
      BuildsFrame (.rspRIR (.enc d)) s
        (sealed ([d.slave, 0x04, BitVec.ofNat 8 (2 * d.qty.toNat)] ++ wordBytes d.values))) ∧
    (125 < d.qty.toNat → exec (.rspRHR (.enc d)) s = .fault .encodeOverflow ∧
      exec (.rspRIR (.enc d)) s = .fault .encodeOverflow) ∧
    (d.qty.toNat ≤ 124 →
      BuildsFrame (.rspRFR (.enc d)) s
        (sealed ([d.slave, 0x14, BitVec.ofNat 8 (2 * d.qty.toNat + 2), BitVec.ofNat 8 (2 * d.qty.toNat + 1), 0x06] ++
          wordBytes d.values))) ∧
    (124 < d.qty.toNat → exec (.rspRFR (.enc d)) s = .fault .encodeOverflow)

/-- Descriptors that have not the shape their function needs, or no layout, fault by name (42_frame_encode.md R154, R163,
60_exceptions.md R322). The tests of the shape of 10_state.md R23 are log 12, those of a Request log 13; that a wrong
shape is reported before a length is log 22; the encode forms as instructions are log 1. -/
def Obligations.EncodeFaults : Prop :=
  ∀ (s : State) (d : FrameOps) (slave fn : Byte),
    (fn ∉ functionCodes → exec (.reqUNSUP (.enc slave fn)) s = .fault .encodeUnsupported) ∧
    (d.values = [] → exec (.reqWSC (.enc d)) s = .fault .badShape ∧ exec (.reqWSR (.enc d)) s = .fault .badShape) ∧
    (d.values.length < d.qty.toNat →
      exec (.reqWMC (.enc d)) s = .fault .badShape ∧ exec (.reqWMR (.enc d)) s = .fault .badShape) ∧
    (d.values.length ≠ d.qty.toNat →
      exec (.rspRC (.enc d)) s = .fault .badShape ∧ exec (.rspRHR (.enc d)) s = .fault .badShape ∧
      exec (.rspRIR (.enc d)) s = .fault .badShape ∧ exec (.rspRFR (.enc d)) s = .fault .badShape) ∧
    ((∃ v ∈ d.values, 1 < v.toNat) → exec (.rspRC (.enc d)) s = .fault .badShape) ∧
    (¬ (d.qty = 1 ∧ d.values.length = 1) →
      exec (.rspWSC (.enc d)) s = .fault .badShape ∧ exec (.rspWSR (.enc d)) s = .fault .badShape) ∧
    (d.values ≠ [] →
      exec (.rspWMC (.enc d)) s = .fault .badShape ∧ exec (.rspWMR (.enc d)) s = .fault .badShape)

/-- 42_frame_encode.md R151 to R153, 40_crc.md R134: every frame an encoder returns begins with the slave address and the
function byte as they stand and ends with the low and then the high byte of the CRC, from seed 0xFFFF, of every byte
before them; it is at most 256 bytes. -/
def Obligations.EncodedFramesAreSealed : Prop :=
  (∀ (r : Request) (f : List Byte), encodeRequest r = .ok f →
    f.length ≤ 256 ∧ ∃ (payload : List Byte) (lo hi : Byte), f = r.slave :: r.fn :: payload ++ [lo, hi] ∧
      (crc16 0xFFFF (r.slave :: r.fn :: payload)).toNat = 256 * hi.toNat + lo.toNat) ∧
  (∀ (p : Normal) (f : List Byte), encodeResponse (.normal p) = .ok f →
    f.length ≤ 256 ∧ ∃ (payload : List Byte) (lo hi : Byte), f = p.slave :: p.fn :: payload ++ [lo, hi] ∧
      (crc16 0xFFFF (p.slave :: p.fn :: payload)).toNat = 256 * hi.toNat + lo.toNat) ∧
  (∀ (e : ExceptionRsp) (f : List Byte), encodeResponse (.exception e) = .ok f →
    ∃ lo hi : Byte, f = [e.slave, e.fn, e.code, lo, hi] ∧
      (crc16 0xFFFF [e.slave, e.fn, e.code]).toNat = 256 * hi.toNat + lo.toNat)

/-- 42_frame_encode.md R173: the number of packed bytes, and every bit of every one of them. -/
def Obligations.PackCoils : Prop :=
  ∀ (values : List Word) (qty : Nat), qty ≤ values.length →
    (pack values qty).length = (qty + 7) / 8 ∧
    ∀ k j, k < (qty + 7) / 8 → j < 8 →
      ((pack values qty).getD k 0).getLsbD j =
        (decide (8 * k + j < qty) && decide (values.getD (8 * k + j) 0 ≠ 0))

/-- 43_frame_decode_sync.md R212: unpacking what was packed gives 1 for every value that is not 0 and 0 for the others,
wherever the packed bytes stand. -/
def Obligations.UnpackInvertsPack : Prop :=
  ∀ (values : List Word) (qty : Nat) (pre post : List Byte), qty ≤ values.length →
    getCoils (pre ++ pack values qty ++ post) pre.length 0 qty = .ok (coilNorm (values.take qty))

/-! The Frame Codec, decode side. That a frame row is an instruction with a free offset, which shows what it decodes on the
result port (log 1), runs on both roles and takes the current Request as an operand (log 26) is the model's choice; what
is decoded is the rules'. -/

/-- 43_frame_decode_sync.md R203 to R207, R210, R211: the request decoders that validate nothing, at every offset whose
frame is buffered. The decode form as an instruction is log 1, its running on both roles log 26. -/
def Obligations.RequestDecodeFixed : Prop :=
  ∀ (s : State) (off : Nat) (B : List Byte), B = rxBytes s →
    (off + 6 ≤ B.length →
      Answers (.reqRC (.dec off)) s (.request (some {
          slave := B.getD off 0, fn := 0x01, addr := wordAt B (off + 2), qty := wordAt B (off + 4) })) ∧
      Answers (.reqRHR (.dec off)) s (.request (some {
          slave := B.getD off 0, fn := 0x03, addr := wordAt B (off + 2), qty := wordAt B (off + 4) })) ∧
      Answers (.reqRIR (.dec off)) s (.request (some {
          slave := B.getD off 0, fn := 0x04, addr := wordAt B (off + 2), qty := wordAt B (off + 4) })) ∧
      Answers (.reqWSC (.dec off)) s (.request (some {
          slave := B.getD off 0, fn := 0x05, addr := wordAt B (off + 2),
          qty := 1, values := [wordAt B (off + 4)] })) ∧
      Answers (.reqWSR (.dec off)) s (.request (some {
          slave := B.getD off 0, fn := 0x06, addr := wordAt B (off + 2),
          qty := 1, values := [wordAt B (off + 4)] }))) ∧
    (off + 10 ≤ B.length →
      Answers (.reqRFR (.dec off)) s (.request (some {
          slave := B.getD off 0, fn := 0x14, file := wordAt B (off + 4),
          recno := wordAt B (off + 6), reclen := wordAt B (off + 8) }))) ∧
    (off + 2 ≤ B.length →
      Answers (.reqUNSUP (.dec off)) s (.request (some { slave := B.getD off 0, fn := B.getD (off + 1) 0 })))

/-- 43_frame_decode_sync.md R208, R209: the write-multiple request decoders, with the test of the byte count, and what
20_memory.md R64 gives where the bytes they need are not all buffered. The decode form as an instruction is log 1, its
running on both roles log 26. -/
def Obligations.RequestDecodeLists : Prop :=
  ∀ (s : State) (off : Nat) (B : List Byte) (q : Word) (bc : Nat), B = rxBytes s → q = wordAt B (off + 4) →
    bc = (B.getD (off + 6) 0).toNat → off + 7 ≤ B.length →
    (8 * bc < q.toNat → Answers (.reqWMC (.dec off)) s (.request none)) ∧
    (q.toNat ≤ 8 * bc → off + 7 + (q.toNat + 7) / 8 ≤ B.length →
      Answers (.reqWMC (.dec off)) s (.request (some {
          slave := B.getD off 0, fn := 0x0F, addr := wordAt B (off + 2),
          qty := q, values := coilsAt B (off + 7) q.toNat }))) ∧
    (q.toNat ≤ 8 * bc → B.length < off + 7 + (q.toNat + 7) / 8 →
      exec (.reqWMC (.dec off)) s = .fault .outOfBounds) ∧
    (bc < 2 * q.toNat → Answers (.reqWMR (.dec off)) s (.request none)) ∧
    (2 * q.toNat ≤ bc → off + 7 + 2 * q.toNat ≤ B.length →
      Answers (.reqWMR (.dec off)) s (.request (some {
          slave := B.getD off 0, fn := 0x10, addr := wordAt B (off + 2),
          qty := q, values := wordsAt B (off + 7) q.toNat }))) ∧
    (2 * q.toNat ≤ bc → B.length < off + 7 + 2 * q.toNat → exec (.reqWMR (.dec off)) s = .fault .outOfBounds)

/-- 43_frame_decode_sync.md R194 to R196, R201: the read response decoders; count and address come from the Request; and
what 20_memory.md R64 gives where the bytes they need are not all buffered. The decode form as an instruction is log 1,
its running on both roles and the Request as its operand log 26. -/
def Obligations.ResponseDecodeReads : Prop :=
  ∀ (s : State) (off : Nat) (B : List Byte) (bc n : Nat) (cur : FrameOps), B = rxBytes s →
    bc = (B.getD (off + 2) 0).toNat → n = (bc - 2) / 2 → off + 3 ≤ B.length →
    (8 * bc < cur.qty.toNat → Answers (.rspRC (.dec off cur)) s (.response none)) ∧
    (cur.qty.toNat ≤ 8 * bc → off + 3 + (cur.qty.toNat + 7) / 8 ≤ B.length →
      Answers (.rspRC (.dec off cur)) s (.response (some (.normal {
          slave := B.getD off 0, fn := 0x01,
          addr := cur.addr, qty := cur.qty, values := coilsAt B (off + 3) cur.qty.toNat })))) ∧
    (cur.qty.toNat ≤ 8 * bc → B.length < off + 3 + (cur.qty.toNat + 7) / 8 →
      exec (.rspRC (.dec off cur)) s = .fault .outOfBounds) ∧
    (bc < 2 * cur.qty.toNat →
      Answers (.rspRHR (.dec off cur)) s (.response none) ∧ Answers (.rspRIR (.dec off cur)) s (.response none)) ∧
    (2 * cur.qty.toNat ≤ bc → off + 3 + 2 * cur.qty.toNat ≤ B.length →
      Answers (.rspRHR (.dec off cur)) s (.response (some (.normal {
          slave := B.getD off 0, fn := 0x03,
          addr := cur.addr, qty := cur.qty, values := wordsAt B (off + 3) cur.qty.toNat }))) ∧
      Answers (.rspRIR (.dec off cur)) s (.response (some (.normal {
          slave := B.getD off 0, fn := 0x04,
          addr := cur.addr, qty := cur.qty, values := wordsAt B (off + 3) cur.qty.toNat })))) ∧
    (2 * cur.qty.toNat ≤ bc → B.length < off + 3 + 2 * cur.qty.toNat →
      exec (.rspRHR (.dec off cur)) s = .fault .outOfBounds ∧
      exec (.rspRIR (.dec off cur)) s = .fault .outOfBounds) ∧
    (bc < 2 → Answers (.rspRFR (.dec off cur)) s (.response none)) ∧
    (2 ≤ bc → (n = 0 ∨ off + 5 + 2 * n ≤ B.length) →
      Answers (.rspRFR (.dec off cur)) s (.response (some (.normal {
          slave := B.getD off 0, fn := 0x14, addr := 0,
          qty := BitVec.ofNat 16 n, values := wordsAt B (off + 5) n })))) ∧
    (0 < n → B.length < off + 5 + 2 * n → exec (.rspRFR (.dec off cur)) s = .fault .outOfBounds)

/-- 43_frame_decode_sync.md R193, R197 to R200: the exception decoder, and the echo-type decoders with their
cross-checks against the Request. A Request without the value the cross-check needs is log 13; the decode form as an
instruction is log 1, its running on both roles and the Request as its operand log 26. -/
def Obligations.ResponseDecodeEchoes : Prop :=
  ∀ (s : State) (off : Nat) (B : List Byte) (cur : FrameOps) (v : Word) (vs : List Word) (a w wire : Word),
    B = rxBytes s → a = wordAt B (off + 2) → w = wordAt B (off + 4) → wire = (if v = 0 then 0x0000 else 0xFF00) →
    (off + 3 ≤ B.length →
      Answers (.rspEXC (.dec off)) s (.response (some (.exception {
          slave := B.getD off 0, fn := B.getD (off + 1) 0, code := B.getD (off + 2) 0 })))) ∧
    (off + 6 ≤ B.length → cur.values = v :: vs →
      (a ≠ cur.addr ∨ w ≠ wire → Answers (.rspWSC (.dec off cur)) s (.response none)) ∧
      (a = cur.addr → w = wire →
        Answers (.rspWSC (.dec off cur)) s (.response (some (.normal {
            slave := B.getD off 0, fn := 0x05, addr := a, qty := 1, values := [w] })))) ∧
      (a ≠ cur.addr ∨ w ≠ v → Answers (.rspWSR (.dec off cur)) s (.response none)) ∧
      (a = cur.addr → w = v →
        Answers (.rspWSR (.dec off cur)) s (.response (some (.normal {
            slave := B.getD off 0, fn := 0x06, addr := a, qty := 1, values := [w] }))))) ∧
    (off + 6 ≤ B.length → cur.values = [] →
      (a ≠ cur.addr → Answers (.rspWSC (.dec off cur)) s (.response none) ∧
        Answers (.rspWSR (.dec off cur)) s (.response none)) ∧
      (a = cur.addr → exec (.rspWSC (.dec off cur)) s = .fault .badShape ∧
        exec (.rspWSR (.dec off cur)) s = .fault .badShape)) ∧
    (off + 6 ≤ B.length →
      (a ≠ cur.addr ∨ w ≠ cur.qty → Answers (.rspWMC (.dec off cur)) s (.response none) ∧
        Answers (.rspWMR (.dec off cur)) s (.response none)) ∧
      (a = cur.addr → w = cur.qty →
        Answers (.rspWMC (.dec off cur)) s (.response (some (.normal {
            slave := B.getD off 0, fn := 0x0F, addr := a, qty := w }))) ∧
        Answers (.rspWMR (.dec off cur)) s (.response (some (.normal {
            slave := B.getD off 0, fn := 0x10, addr := a, qty := w })))))

/-- 20_memory.md R64: a decode whose fixed part is not all below the fill count is `fault OutOfBounds` (for the list parts
see RequestDecodeLists and ResponseDecodeReads). The decode form as an instruction with a free offset is log 1. -/
def Obligations.DecodeOutOfBounds : Prop :=
  ∀ (s : State) (off : Nat) (cur : FrameOps),
    (s.rxn < off + 6 → ∀ i ∈ [Instr.reqRC (.dec off), .reqRHR (.dec off), .reqRIR (.dec off), .reqWSC (.dec off),
        .reqWSR (.dec off), .rspWSC (.dec off cur), .rspWSR (.dec off cur), .rspWMC (.dec off cur),
        .rspWMR (.dec off cur)], exec i s = .fault .outOfBounds) ∧
    (s.rxn < off + 10 → exec (.reqRFR (.dec off)) s = .fault .outOfBounds) ∧
    (s.rxn < off + 7 → exec (.reqWMC (.dec off)) s = .fault .outOfBounds ∧
      exec (.reqWMR (.dec off)) s = .fault .outOfBounds) ∧
    (s.rxn < off + 2 → exec (.reqUNSUP (.dec off)) s = .fault .outOfBounds) ∧
    (s.rxn < off + 3 → ∀ i ∈ [Instr.rspEXC (.dec off), .rspRC (.dec off cur), .rspRHR (.dec off cur),
        .rspRIR (.dec off cur), .rspRFR (.dec off cur)], exec i s = .fault .outOfBounds)

/-- 42_frame_encode.md R175: encoding a Request of a supported function and its shape, then scanning and decoding the
frame as a slave does, gives the Request back up to the wire's normalisations. -/
def Obligations.RequestRoundTrip : Prop :=
  ∀ (r : Request) (f : List Byte), r.fn ∈ functionCodes → requestShape r = true → r.slave.toNat < 247 →
    encodeRequest r = .ok f →
    findS f = .ok (some ⟨0, f.length, false⟩) ∧ decodeRequest f 0 = .ok (some (wireRequest r))

/-- 43_frame_decode_sync.md R213 (b): encoding a Response that answers a Request, then scanning and decoding the frame as
a master does for that Request, gives the Response back up to the wire's normalisations. -/
def Obligations.ResponseRoundTrip : Prop :=
  ∀ (p : Response) (r : Request) (f : List Byte), matchesRequest p r → requestShape r = true →
    encodeResponse p = .ok f →
    findM f r.slave r.fn = .ok (some ⟨0, f.length, isException p⟩) ∧
    decodeResponse f ⟨0, f.length, isException p⟩ r = .ok (some (wireResponse p r))

/-- 43_frame_decode_sync.md R186: the master scan always answers, with the least valid offset and its span, or none when
there is none. `validM` is said of the buffer's bytes: the length table of R185 and the CRC test of R183 written out. -/
def Obligations.MasterScanFindsLeast : Prop :=
  ∀ (B : List Byte) (slave f : Byte),
    (∃ h, findM B slave f = .ok (some h) ∧ validM B slave f h ∧ ∀ h', validM B slave f h' → h.off ≤ h'.off) ∨
    (findM B slave f = .ok none ∧ ∀ h, ¬ validM B slave f h)

/-- 43_frame_decode_sync.md R214: the same of the slave scan, with the length table of R191 written out in `validS`. -/
def Obligations.SlaveScanFindsLeast : Prop :=
  ∀ B : List Byte,
    (∃ h, findS B = .ok (some h) ∧ validS B h ∧ ∀ h', validS B h' → h.off ≤ h'.off) ∨
    (findS B = .ok none ∧ ∀ h, ¬ validS B h)

/-- 43_frame_decode_sync.md R191: zero bytes after a request with an unsupported function do not hide it. -/
def Obligations.TrailingZerosDoNotHide : Prop :=
  ∀ (slave fn : Byte) (payload : List Byte) (k : Nat), slave.toNat < 247 → fn ∉ functionCodes →
    ∀ B, B = sealed (slave :: fn :: payload) ++ List.replicate k 0 →
      findS B = .ok (some ⟨0, B.length, false⟩) ∧
      decodeRequest B 0 = .ok (some { slave := slave, fn := fn })

/-! Enqueue and queue commands. -/

/-- 44_master_engine.md R221 for the eight commands of R222 to R229: the role, then the list, then the capacity decide;
otherwise the Request is appended at the tail with the configured retry count, and nothing else changes. A later
configuration write does not change what is queued. -/
def Obligations.EnqueueCommand : Prop :=
  ∀ (i : Instr) (r : Request) (s : State), enqueued i = some r →
    (s.params.role = .slave → Refuses i s .illegalCmd) ∧
    (s.params.role = .master → listTooLong s r.values → Refuses i s .badShape) ∧
    (s.params.role = .master → ¬ listTooLong s r.values → queueAtDepth s → Refuses i s .qfull) ∧
    (s.params.role = .master → ¬ listTooLong s r.values → ¬ queueAtDepth s →
      exec i s = .next { s with q := s.q ++ [{ r with retries := s.retries }], result := some ⟨.ok, .none⟩ }) ∧
    (∀ reg data t, exec (.cfgwr reg data) s = .next t → t.q = s.q)

/-- 44_master_engine.md R250, R251: the two queries, refused on a slave. -/
def Obligations.QueueQueries : Prop :=
  ∀ s : State,
    (s.params.role = .master → Answers .qcount s (.count s.q.length) ∧
      Answers .qempty s (.bool (decide (s.q.length = 0)))) ∧
    (s.params.role = .slave → Refuses .qcount s .illegalCmd ∧ Refuses .qempty s .illegalCmd)

/-- 44_master_engine.md R249: the queue is emptied and `CURQ` cleared, nothing else is touched; refused on a slave. -/
def Obligations.QueueClear : Prop :=
  ∀ s : State,
    (s.params.role = .master →
      exec .qclear s = .next { s with q := [], curq := false, result := some ⟨.ok, .none⟩ }) ∧
    (s.params.role = .slave → Refuses .qclear s .illegalCmd)

/-- 44_master_engine.md R249: the cycle in flight after a clear removes nothing from the queue and changes no entry of it,
however it ends. -/
def Obligations.ClearedCycleSparesQueue : Prop :=
  ∀ (s t : State) (now : Time) (chunk : List Byte), s.params.role = .master → s.mstate ≠ .idle → s.curq = false →
    exec (.poll now chunk) s = .next t → t.q = s.q ∧ t.curq = false

/-! Configuration. -/

/-- 46_transport_and_host.md R300 over the register table of 10_state.md R39. -/
def Obligations.ConfigWrite : Prop :=
  ∀ (s : State) (reg : Byte) (data : Time),
    (s.params.role = .master →
      exec (.cfgwr 0x00 data) s = .next { s with responseTo := data, result := some ⟨.ok, .none⟩ } ∧
      exec (.cfgwr 0x02 data) s = .next { s with turnaround := data, result := some ⟨.ok, .none⟩ } ∧
      exec (.cfgwr 0x03 data) s =
        .next { s with retries := BitVec.ofNat 8 (data.toNat % 256), result := some ⟨.ok, .none⟩ }) ∧
    exec (.cfgwr 0x01 data) s = .next { s with frameTo := data, result := some ⟨.ok, .none⟩ } ∧
    (s.params.role = .slave →
      exec (.cfgwr 0x04 data) s = .next { s with respDelay := data, result := some ⟨.ok, .none⟩ }) ∧
    (s.params.role = .master → reg ∉ [0x00, 0x01, 0x02, 0x03] → Refuses (.cfgwr reg data) s .badReg) ∧
    (s.params.role = .slave → reg ∉ [0x01, 0x04] → Refuses (.cfgwr reg data) s .badReg)

/-- 46_transport_and_host.md R301 over the register table of 10_state.md R39, in the states that stand between commands
(R30, R36). That `QN` is read modulo 2^32 when the queue has 2^32 entries or more is the model's choice (log 16). -/
def Obligations.ConfigRead : Prop :=
  ∀ (s : State) (reg : Byte),
    Answers (.cfgrd 0x01) s (.time s.frameTo) ∧
    Answers (.cfgrd 0x11) s (.time (BitVec.ofNat 32 s.rxn)) ∧
    Answers (.cfgrd 0x13) s (.time s.lastRx) ∧
    Answers (.cfgrd 0x14) s (.time s.lastTx) ∧
    (s.params.role = .master →
      Answers (.cfgrd 0x00) s (.time s.responseTo) ∧ Answers (.cfgrd 0x02) s (.time s.turnaround) ∧
      Answers (.cfgrd 0x03) s (.time (BitVec.ofNat 32 s.retries.toNat)) ∧
      (s.mstate = .idle → Answers (.cfgrd 0x10) s (.time 0)) ∧
      (s.mstate = .waitingForResponse → Answers (.cfgrd 0x10) s (.time 1)) ∧
      Answers (.cfgrd 0x12) s (.time (BitVec.ofNat 32 s.q.length)) ∧
      Answers (.cfgrd 0x15) s (.time (if s.curq then 1 else 0)) ∧
      (reg ∉ [0x00, 0x01, 0x02, 0x03, 0x10, 0x11, 0x12, 0x13, 0x14, 0x15] → Refuses (.cfgrd reg) s .badReg)) ∧
    (s.params.role = .slave →
      Answers (.cfgrd 0x04) s (.time s.respDelay) ∧
      (s.sstate = .idle → Answers (.cfgrd 0x10) s (.time 0)) ∧
      (reg ∉ [0x01, 0x04, 0x10, 0x11, 0x13, 0x14] → Refuses (.cfgrd reg) s .badReg))

/-! The receive path and time. -/

/-- 46_transport_and_host.md R290, R291: an empty chunk changes nothing; a chunk that fits is stored at the fill count,
byte for byte, and no other byte of `RXB` changes; one that does not empties the buffer and is lost; either way the time
is stamped and the tap fires, and nothing else changes. -/
def Obligations.RxPush : Prop :=
  ∀ (s : State) (now : Time) (chunk : List Byte), bufferOk s.rxb s.rxn 8192 = true →
    (chunk = [] → Answers (.rxpush now chunk) s .none) ∧
    (chunk ≠ [] → s.rxn + chunk.length ≤ 8192 → ∃ t, exec (.rxpush now chunk) s = .next t ∧
      rxBytes t = rxBytes s ++ chunk ∧ bufferOk t.rxb t.rxn 8192 = true ∧
      (∀ a, Memory.read t.rxb a =
        if s.rxn ≤ a ∧ a < s.rxn + chunk.length then chunk.getD (a - s.rxn) 0 else Memory.read s.rxb a) ∧
      t = { s with rxb := t.rxb, rxn := s.rxn + chunk.length, lastRx := now, events := s.events ++ [.rx chunk],
                   result := some ⟨.ok, .none⟩ }) ∧
    (8192 < s.rxn + chunk.length → chunk ≠ [] →
      exec (.rxpush now chunk) s = .next { s with
          rxb := [], rxn := 0, lastRx := now, events := s.events ++ [.rx chunk], result := some ⟨.ok, .none⟩ })

/-- 46_transport_and_host.md R297, 30_encoding.md R121 (e): the pull path is the push path followed by an empty POLL, when
both carry the same time. -/
def Obligations.PollIsPushThenPoll : Prop :=
  ∀ (s t : State) (now : Time) (chunk : List Byte),
    exec (.rxpush now chunk) s = .next t → exec (.poll now chunk) s = exec (.poll now []) t

/-- 60_exceptions.md R331: elapsed time is taken modulo 2^32, and a comparison with a threshold is unsigned and passes on
equality. -/
def Obligations.ElapsedTime : Prop :=
  ∀ now t threshold : Time,
    ((delta now t).toNat : Int) = ((now.toNat : Int) - t.toNat) % (2 ^ 32 : Nat) ∧
    (elapsed now t threshold = true ↔ threshold.toNat ≤ (delta now t).toNat)

/-- 10_state.md R37: `LASTRX` is written with `now` by every non-empty append, `LASTTX` with `now` by every successful
transmission, and neither by anything else. -/
def Obligations.TimeRegisterWriters : Prop :=
  ∀ (i : Instr) (s t : State), exec i s = .next t →
    (∀ now chunk, i = .poll now chunk →
      t.lastRx = (if chunk = [] then s.lastRx else now) ∧
      ∃ es, t.events = s.events ++ es ∧ t.lastTx = (if sentOk es then now else s.lastTx)) ∧
    (∀ now chunk, i = .rxpush now chunk →
      t.lastRx = (if chunk = [] then s.lastRx else now) ∧ t.lastTx = s.lastTx) ∧
    ((∀ now chunk, i ≠ .poll now chunk ∧ i ≠ .rxpush now chunk) → t.lastRx = s.lastRx ∧ t.lastTx = s.lastTx)

/-- 46_transport_and_host.md R304: what every instruction may change. All that it does not name is left as it was, so only
POLL and RXPUSH raise events, only POLL moves `MSTATE` and `SSTATE` (10_state.md R31), and no command changes the
parameters (00_scope.md R2). -/
def Obligations.CommandFrames : Prop := ∀ (i : Instr) (s t : State), exec i s = .next t → frameOf i s t

/-! POLL on a master. -/

/-- 44_master_engine.md R231, R242: the POLLs that do nothing beyond the append. -/
def Obligations.MasterPollsThatWait : Prop :=
  ∀ (s s1 : State) (now : Time) (chunk : List Byte), s1 = receive now chunk s → s.params.role = .master →
    (s.mstate = .idle ∧ (s.q = [] ∨ delta now s1.lastRx < s.turnaround ∨ delta now s.lastTx < s.turnaround) ∨
     s.mstate = .waitingForResponse ∧ (s1.rxn ≠ 0 ∧ delta now s1.lastRx < s.frameTo ∨
       s1.rxn = 0 ∧ delta now s.lastTx < s.responseTo)) →
    exec (.poll now chunk) s = .next { s1 with result := some ⟨.ok, .none⟩ }

/-- 44_master_engine.md R232, R233: the transmission of the head, with a successful and with a failed write, to one slave
and as a broadcast (R248); an encode that faults is the POLL's fault. -/
def Obligations.MasterTransmitsHead : Prop :=
  ∀ (s s1 : State) (now : Time) (chunk : List Byte) (r : Request) (rest : List Request),
    s1 = receive now chunk s → s.params.role = .master → s.mstate = .idle → s.q = r :: rest →
    s.turnaround ≤ delta now s1.lastRx → s.turnaround ≤ delta now s.lastTx →
    (∀ e, encodeRequest r = .error e → exec (.poll now chunk) s = .fault e) ∧
    (∀ f, encodeRequest r = .ok f → ∃ t, exec (.poll now chunk) s = .next t ∧
      txBytes t = f ∧ bufferOk t.txb f.length 256 = true ∧
      t = { takeTx s1 with
            cur := r, curq := t.curq, q := t.q, mstate := t.mstate, rxb := [], rxn := 0, txb := t.txb,
            txn := f.length, lastTx := if txOk s1 then now else s.lastTx,
            events := s1.events ++ .tx f :: (if txOk s1 then [] else [.diag .txFailed]),
            result := some ⟨.ok, .none⟩ } ∧
      (txOk s1 = true → r.slave ≠ 0 → t.mstate = .waitingForResponse ∧ t.q = s.q ∧ t.curq = true) ∧
      (txOk s1 = true → r.slave = 0 → s.params.bcastDequeue = false →
        t.mstate = .idle ∧ t.q = s.q ∧ t.curq = true) ∧
      (txOk s1 = true → r.slave = 0 → s.params.bcastDequeue = true →
        t.mstate = .idle ∧ t.q = rest ∧ t.curq = false) ∧
      (txOk s1 = false → t.mstate = .idle ∧ t.q = s.q ∧ t.curq = true))

/-- 44_master_engine.md R235: the response timeout. -/
def Obligations.MasterTimesOut : Prop :=
  ∀ (s s1 : State) (now : Time) (chunk : List Byte), s1 = receive now chunk s → s.params.role = .master →
    s.mstate = .waitingForResponse → s1.rxn = 0 → s.responseTo ≤ delta now s.lastTx →
    exec (.poll now chunk) s = .next { failRequest { s1 with events := s1.events ++ [.timeout s.cur] } with
      mstate := .idle, result := some ⟨.ok, .none⟩ }

/-- 44_master_engine.md R240: no frame, or a rejected decode, is `fail()` alone and raises nothing; then the purge and
`Idle` (R244). -/
def Obligations.MasterFindsNothing : Prop :=
  ∀ (s s1 : State) (now : Time) (chunk : List Byte), s1 = receive now chunk s → s.params.role = .master →
    s.mstate = .waitingForResponse → s1.rxn ≠ 0 → s.frameTo ≤ delta now s1.lastRx →
    (findM (rxBytes s1) s.cur.slave s.cur.fn = .ok none ∨
      ∃ h, findM (rxBytes s1) s.cur.slave s.cur.fn = .ok (some h) ∧ decodeResponse (rxBytes s1) h s.cur = .ok none) →
    exec (.poll now chunk) s = .next { failRequest s1 with
      rxb := [], rxn := 0, mstate := .idle, result := some ⟨.ok, .none⟩ }

/-- 44_master_engine.md R239: an exception response is always reported, then treated as a failure; then the purge and
`Idle` (R244). -/
def Obligations.MasterMeetsException : Prop :=
  ∀ (s s1 : State) (now : Time) (chunk : List Byte) (h : Hit) (e : ExceptionRsp), s1 = receive now chunk s →
    s.params.role = .master → s.mstate = .waitingForResponse → s1.rxn ≠ 0 → s.frameTo ≤ delta now s1.lastRx →
    findM (rxBytes s1) s.cur.slave s.cur.fn = .ok (some h) →
    decodeResponse (rxBytes s1) h s.cur = .ok (some (.exception e)) →
    exec (.poll now chunk) s = .next { failRequest { s1 with events := s1.events ++ [.exception s.cur e] } with
      rxb := [], rxn := 0, mstate := .idle, result := some ⟨.ok, .none⟩ }

/-- 44_master_engine.md R238: a normal response goes to the generic callback, to the specific one only if the generic one
declined, and then the request is removed whatever they answered; then the purge and `Idle` (R244). -/
def Obligations.MasterMeetsNormal : Prop :=
  ∀ (s s1 s2 : State) (now : Time) (chunk : List Byte) (h : Hit) (p : Normal) (es : List Event),
    s1 = receive now chunk s → s.params.role = .master → s.mstate = .waitingForResponse → s1.rxn ≠ 0 →
    s.frameTo ≤ delta now s1.lastRx → findM (rxBytes s1) s.cur.slave s.cur.fn = .ok (some h) →
    decodeResponse (rxBytes s1) h s.cur = .ok (some (.normal p)) →
    (handled s1 = true ∧ s2 = takeHandled s1 ∧ es = [.response s.cur p] ∨
     handled s1 = false ∧ s2 = takeHandled (takeHandled s1) ∧
       es = [.response s.cur p, .responseFn p.fn s.cur p]) →
    exec (.poll now chunk) s = .next { s2 with
      events := s1.events ++ es, q := if s.curq then s.q.tail else s.q, curq := false, rxb := [], rxn := 0,
      mstate := .idle, result := some ⟨.ok, .none⟩ }

/-- 44_master_engine.md R244, 43_frame_decode_sync.md R192: once the end of a frame is seen, the POLL always completes,
whatever is buffered: the buffer is empty and the state `Idle`. -/
def Obligations.MasterCycleEnds : Prop :=
  ∀ (s s1 : State) (now : Time) (chunk : List Byte), s1 = receive now chunk s → s.params.role = .master →
    s.mstate = .waitingForResponse → requestShape s.cur = true → s1.rxn ≠ 0 → s.frameTo ≤ delta now s1.lastRx →
    ∃ t, exec (.poll now chunk) s = .next t ∧ t.rxn = 0 ∧ t.mstate = .idle ∧ t.lastRx = s1.lastRx ∧
      t.lastTx = s.lastTx ∧ t.txb = s.txb ∧ t.txn = s.txn

/-- 44_master_engine.md R245, R246: the one failure path and the removal of the head. With `CURQ = 0` neither touches the
queue, whatever it holds; `CURQ = 1` comes with a head (10_state.md R51 (d)). -/
def Obligations.FailAndRemove : Prop :=
  (∀ s : State, s.curq = false →
    removeHead s = s ∧
    (s.cur.retries = 0 → failRequest s = s) ∧
    (s.cur.retries ≠ 0 → failRequest s = { s with cur := { s.cur with retries := s.cur.retries - 1 } })) ∧
  (∀ (s : State) (r : Request) (rest : List Request), s.curq = true → s.q = r :: rest →
    removeHead s = { s with q := rest, curq := false } ∧
    (s.cur.retries = 0 → failRequest s = { s with q := rest, curq := false }) ∧
    (s.cur.retries ≠ 0 →
      failRequest s = { s with cur := { s.cur with
          retries := s.cur.retries - 1 }, q := { r with retries := s.cur.retries - 1 } :: rest }))

/-- 44_master_engine.md R247: a request with retry count N that gets no answer is sent once per attempt, stays at the head
with one retry less after each of the first N attempts, and is removed after attempt N + 1. -/
def Obligations.RetryExhaustion : Prop :=
  ∀ (s : State) (r : Request) (rest : List Request) (f : List Byte) (times : List (Time × Time)),
    s.params.role = .master → s.mstate = .idle → s.q = r :: rest → r.slave ≠ 0 → encodeRequest r = .ok f →
    s.inputs = attempts times → times.length ≤ r.retries.toNat + 1 →
    attemptsDue s.turnaround s.responseTo s.lastRx s.lastTx times = true →
    times.length ≤ s.txAns.length → (∀ b ∈ s.txAns.take times.length, b = true) →
    ∃ t, Sys2Proof.core.run (2 * times.length) s = .next t ∧ t.mstate = .idle ∧
      sends t.events = sends s.events + times.length ∧
      t.q = if times.length = r.retries.toNat + 1 then rest
            else { r with retries := r.retries - BitVec.ofNat 8 times.length } :: rest

/-- 44_master_engine.md R248: with `BCAST_DEQUEUE = false` a broadcast request at the head stays there through any number
of POLLs and pushes: the engine never waits for a response, and nothing but that request's frame is ever sent. -/
def Obligations.BroadcastBlocksQueue : Prop :=
  ∀ (s : State) (r : Request) (rest : List Request) (f : List Byte) (n : Nat),
    s.params.role = .master → s.params.bcastDequeue = false → s.mstate = .idle → s.q = r :: rest → r.slave = 0 →
    encodeRequest r = .ok f → pollsAndPushes s.inputs = true →
    ∃ t es, Sys2Proof.core.run n s = .next t ∧ t.mstate = .idle ∧ t.q = r :: rest ∧ t.events = s.events ++ es ∧
      ∀ e ∈ es, (∃ chunk, e = .rx chunk) ∨ e = .tx f ∨ e = .diag .txFailed

/-! POLL on a slave. -/

/-- 45_slave_engine.md R272, R273: the POLLs that do nothing beyond the append. -/
def Obligations.SlavePollsThatWait : Prop :=
  ∀ (s s1 : State) (now : Time) (chunk : List Byte), s1 = receive now chunk s → s.params.role = .slave →
    s.sstate = .idle →
    (s1.rxn = 0 ∨ delta now s1.lastRx < s.frameTo ∨ delta now s1.lastRx < s.respDelay) →
    exec (.poll now chunk) s = .next { s1 with result := some ⟨.ok, .none⟩ }

/-- 45_slave_engine.md R275: no frame, or a rejected decode: nothing is transmitted, no event is raised, the buffer is
purged and the state is `Idle`. -/
def Obligations.SlaveDropsBadFrames : Prop :=
  ∀ (s s1 : State) (now : Time) (chunk : List Byte), s1 = receive now chunk s → s.params.role = .slave →
    s.sstate = .idle → s1.rxn ≠ 0 → s.frameTo ≤ delta now s1.lastRx → s.respDelay ≤ delta now s1.lastRx →
    (findS (rxBytes s1) = .ok none ∨
      ∃ h, findS (rxBytes s1) = .ok (some h) ∧ decodeRequest (rxBytes s1) h.off = .ok none) →
    exec (.poll now chunk) s = .next { s1 with rxb := [], rxn := 0, result := some ⟨.ok, .none⟩ }

/-- 45_slave_engine.md R277: an unsupported function is answered with the ILLEGAL_FUNCTION exception, to the address byte
received, and no handler is raised; then the purge (R281). -/
def Obligations.SlaveAnswersUnsupported : Prop :=
  ∀ (s s1 : State) (now : Time) (chunk : List Byte) (h : Hit) (r : Request), s1 = receive now chunk s →
    s.params.role = .slave → s.sstate = .idle → s1.rxn ≠ 0 → s.frameTo ≤ delta now s1.lastRx →
    s.respDelay ≤ delta now s1.lastRx → findS (rxBytes s1) = .ok (some h) →
    decodeRequest (rxBytes s1) h.off = .ok (some r) → r.fn ∉ functionCodes →
    ∃ t, exec (.poll now chunk) s = .next t ∧ txBytes t = sealed [r.slave, 0x80 ||| r.fn, 0x01] ∧
      bufferOk t.txb 5 256 = true ∧
      t = { takeTx s1 with
            rxb := [], rxn := 0, txb := t.txb, txn := 5, lastTx := if txOk s1 then now else s.lastTx,
            events := s1.events ++ .tx (sealed [r.slave, 0x80 ||| r.fn, 0x01]) ::
              (if txOk s1 then [] else [.diag .txFailed]),
            result := some ⟨.ok, .none⟩ }

/-- 45_slave_engine.md R276, R278, R279: a supported Request is handed to the generic handler, and to the specific one only
if the generic one answers none; a Response is encoded from its own fields and transmitted; none sends nothing; a
Response that cannot be encoded is the POLL's fault. -/
def Obligations.SlaveServesRequest : Prop :=
  ∀ (s s1 s2 : State) (now : Time) (chunk : List Byte) (h : Hit) (r : Request) (es : List Event)
    (ans : Option Response), s1 = receive now chunk s → s.params.role = .slave → s.sstate = .idle → s1.rxn ≠ 0 →
    s.frameTo ≤ delta now s1.lastRx → s.respDelay ≤ delta now s1.lastRx → findS (rxBytes s1) = .ok (some h) →
    decodeRequest (rxBytes s1) h.off = .ok (some r) → r.fn ∈ functionCodes → consulted r s1 s2 es ans →
    (ans = none →
      exec (.poll now chunk) s = .next { s2 with
          events := s1.events ++ es, rxb := [], rxn := 0, result := some ⟨.ok, .none⟩ }) ∧
    (∀ p e, ans = some p → encodeResponse p = .error e → exec (.poll now chunk) s = .fault e) ∧
    (∀ p f, ans = some p → encodeResponse p = .ok f →
      ∃ t, exec (.poll now chunk) s = .next t ∧ txBytes t = f ∧ bufferOk t.txb f.length 256 = true ∧
        t = { takeTx s2 with
              rxb := [], rxn := 0, txb := t.txb, txn := f.length, lastTx := if txOk s2 then now else s.lastTx,
              events := s1.events ++ es ++ .tx f :: (if txOk s2 then [] else [.diag .txFailed]),
              result := some ⟨.ok, .none⟩ })

/-! The whole machine. -/

/-- 10_state.md R51: the invariant holds after reset, whatever the parameters. -/
def Obligations.InvHoldsAtReset : Prop := (∀ p : Params, Inv (State.resetOf p)) ∧ Inv State.reset

/-- 10_state.md R51: every command, and the reset input, keeps the invariant. -/
def Obligations.StepKeepsInv : Prop := ∀ s t : State, Inv s → step s = .next t → Inv t

/-- 60_exceptions.md R315, 20_memory.md R64: from a state that meets the invariant a POLL is never refused and never reads
out of bounds; on a master it can fault only with a frame that does not fit. -/
def Obligations.PollFaultsByName : Prop :=
  ∀ (s : State) (now : Time) (chunk : List Byte), Inv s →
    (∃ t, exec (.poll now chunk) s = .next t) ∨
    exec (.poll now chunk) s = .fault .encodeOverflow ∨
    s.params.role = .slave ∧ (exec (.poll now chunk) s = .fault .encodeUnsupported ∨
      exec (.poll now chunk) s = .fault .badShape)

end Statements
end

