-- ==== Sys2Proof/Laws/Memory.lean ====
section
/-! SUPPORT. What the byte memory does: read after write, the canonical form, and the bytes of a filled buffer. -/

namespace Sys2Proof.Laws

open Sys2Proof.Machine Sys2Proof.Safety

/-- Every listed address is above `a`. -/
def AllAbove (a : Nat) (m : Memory) : Prop := ∀ c ∈ m, a < c.1

theorem wf_cons {c : Host.Cell} {m : Memory} :
    Memory.wf (c :: m) = true ↔ c.2 ≠ Memory.blank ∧ AllAbove c.1 m ∧ Memory.wf m = true := by
  induction m generalizing c with
  | nil => simp [Memory.wf, AllAbove]
  | cons d m ih =>
    rw [Memory.wf, Bool.and_eq_true, Bool.and_eq_true, decide_eq_true_eq, decide_eq_true_eq, ih]
    constructor
    · rintro ⟨⟨hc, hlt⟩, hd, hab, hm⟩
      refine ⟨hc, ?_, hd, hab, hm⟩
      intro e he
      rcases List.mem_cons.mp he with rfl | he
      · exact hlt
      · exact Nat.lt_trans hlt (hab e he)
    · rintro ⟨hc, hab, hd, hab', hm⟩
      exact ⟨⟨hc, hab d (List.mem_cons_self ..)⟩, hd, hab', hm⟩

theorem wf_nil : Memory.wf [] = true := rfl

theorem read_of_allAbove {m : Memory} {a k : Nat} (h : AllAbove k m) (hk : a ≤ k) :
    Memory.read m a = Memory.blank := by
  induction m with
  | nil => rfl
  | cons c m ih =>
    have hc := h c (List.mem_cons_self ..)
    have : c.1 ≠ a := by omega
    simp only [Memory.read, this, if_false]
    exact ih fun d hd => h d (List.mem_cons_of_mem _ hd)

theorem mem_write {m : Memory} {a : Nat} {b : Byte} {c : Host.Cell} (h : c ∈ Memory.write m a b) :
    c ∈ m ∨ c = (a, b) := by
  induction m with
  | nil =>
    simp only [Memory.write] at h
    split at h <;> simp_all
  | cons d m ih =>
    simp only [Memory.write] at h
    split at h
    · split at h
      · exact .inl h
      · rcases List.mem_cons.mp h with h | h
        · exact .inr h
        · exact .inl h
    · split at h
      · split at h
        · exact .inl (List.mem_cons_of_mem _ h)
        · rcases List.mem_cons.mp h with h | h
          · exact .inr h
          · exact .inl (List.mem_cons_of_mem _ h)
      · rcases List.mem_cons.mp h with h | h
        · exact .inl (h ▸ List.mem_cons_self ..)
        · rcases ih h with h | h
          · exact .inl (List.mem_cons_of_mem _ h)
          · exact .inr h

/-- A write keeps the canonical form. -/
theorem write_wf {m : Memory} (a : Nat) (b : Byte) (h : Memory.wf m = true) :
    Memory.wf (Memory.write m a b) = true := by
  induction m with
  | nil =>
    simp only [Memory.write]
    split
    · rfl
    · rename_i hb
      exact wf_cons.mpr ⟨hb, fun c hc => absurd hc (List.not_mem_nil), rfl⟩
  | cons d m ih =>
    obtain ⟨hd, hab, hm⟩ := wf_cons.mp h
    simp only [Memory.write]
    split
    · rename_i hlt
      split
      · exact h
      · rename_i hb
        refine wf_cons.mpr ⟨hb, ?_, h⟩
        intro c hc
        rcases List.mem_cons.mp hc with rfl | hc
        · exact hlt
        · exact Nat.lt_trans hlt (hab c hc)
    · split
      · rename_i heq
        split
        · exact hm
        · rename_i hb
          exact wf_cons.mpr ⟨hb, fun c hc => heq ▸ hab c hc, hm⟩
      · refine wf_cons.mpr ⟨hd, ?_, ih hm⟩
        intro c hc
        rcases mem_write hc with hc | hc
        · exact hab c hc
        · subst hc
          simp only
          omega

/-- Read after write at the same address. -/
theorem read_write_same {m : Memory} (a : Nat) (b : Byte) (h : Memory.wf m = true) :
    Memory.read (Memory.write m a b) a = b := by
  induction m with
  | nil =>
    simp only [Memory.write]
    split
    · rename_i hb
      simp [Memory.read, hb]
    · simp [Memory.read]
  | cons d m ih =>
    obtain ⟨hd, hab, hm⟩ := wf_cons.mp h
    simp only [Memory.write]
    split
    · rename_i hlt
      split
      · rename_i hb
        have hne : d.1 ≠ a := by omega
        simp only [Memory.read, hne, if_false]
        rw [read_of_allAbove hab (by omega), hb]
      · simp [Memory.read]
    · split
      · rename_i heq
        split
        · rename_i hb
          rw [read_of_allAbove hab (by omega), hb]
        · simp [Memory.read]
      · rename_i hne
        have hne' : d.1 ≠ a := fun h => hne h.symm
        simp only [Memory.read, hne', if_false]
        exact ih hm

/-- A write leaves every other address alone. -/
theorem read_write_other {m : Memory} {a a' : Nat} (b : Byte) (hne : a' ≠ a) :
    Memory.read (Memory.write m a b) a' = Memory.read m a' := by
  induction m with
  | nil =>
    simp only [Memory.write]
    split
    · rfl
    · simp [Memory.read, Ne.symm hne]
  | cons d m ih =>
    simp only [Memory.write]
    split
    · split
      · rfl
      · simp [Memory.read, Ne.symm hne]
    · split
      · rename_i heq
        have : d.1 ≠ a' := by omega
        split
        · simp [Memory.read, this]
        · simp [Memory.read, this, Ne.symm hne]
      · simp only [Memory.read, ih]

theorem writeBytes_wf {m : Memory} (a : Nat) (bs : List Byte) (h : Memory.wf m = true) :
    Memory.wf (Memory.writeBytes m a bs) = true := by
  induction bs generalizing m a with
  | nil => exact h
  | cons b bs ih => exact ih (a + 1) (write_wf a b h)

theorem read_writeBytes_below {m : Memory} {a a' : Nat} (bs : List Byte) (h : a' < a) :
    Memory.read (Memory.writeBytes m a bs) a' = Memory.read m a' := by
  induction bs generalizing m a with
  | nil => rfl
  | cons b bs ih =>
    rw [Memory.writeBytes, ih (by omega), read_write_other b (by omega)]

/-- The bytes of a chunk read back at their offsets. -/
theorem read_writeBytes_at {m : Memory} {a : Nat} {bs : List Byte} {i : Nat} (h : Memory.wf m = true)
    (hi : i < bs.length) : Memory.read (Memory.writeBytes m a bs) (a + i) = bs[i] := by
  induction bs generalizing m a i with
  | nil => simp at hi
  | cons b bs ih =>
    cases i with
    | zero => simpa [Memory.writeBytes, read_writeBytes_below] using read_write_same a b h
    | succ i =>
      have := ih (m := Memory.write m a b) (a := a + 1) (i := i) (write_wf a b h) (by simpa using hi)
      simpa [Memory.writeBytes, Nat.add_assoc, Nat.add_comm 1 i] using this

theorem read_writeBytes_above {m : Memory} {a a' : Nat} (bs : List Byte) (h : a + bs.length ≤ a') :
    Memory.read (Memory.writeBytes m a bs) a' = Memory.read m a' := by
  induction bs generalizing m a with
  | nil => rfl
  | cons b bs ih =>
    simp only [List.length_cons] at h
    rw [Memory.writeBytes, ih (by omega), read_write_other b (by omega)]

theorem mem_writeBytes {m : Memory} {a : Nat} {bs : List Byte} {c : Host.Cell}
    (h : c ∈ Memory.writeBytes m a bs) : c ∈ m ∨ c.1 < a + bs.length := by
  induction bs generalizing m a with
  | nil => exact .inl h
  | cons b bs ih =>
    rcases ih h with h | h
    · rcases mem_write h with h | h
      · exact .inl h
      · subst h
        right
        simp
    · right
      simp only [List.length_cons]
      omega

@[simp] theorem bytes_length (m : Memory) (n : Nat) : (Memory.bytes m n).length = n := by simp [Memory.bytes]

@[simp] theorem rxBytes_length (s : State) : (rxBytes s).length = s.rxn := by simp [rxBytes]

@[simp] theorem txBytes_length (s : State) : (txBytes s).length = s.txn := by simp [txBytes]

/-- Storing a chunk at the fill count appends it to the buffer's bytes. -/
theorem bytes_writeBytes {m : Memory} (n : Nat) (bs : List Byte) (h : Memory.wf m = true) :
    Memory.bytes (Memory.writeBytes m n bs) (n + bs.length) = Memory.bytes m n ++ bs := by
  apply List.ext_getElem
  · simp
  · intro i h1 h2
    by_cases hi : i < n
    · rw [List.getElem_append_left (by simpa using hi)]
      simp [Memory.bytes, read_writeBytes_below bs hi]
    · obtain ⟨j, rfl⟩ := Nat.exists_eq_add_of_le (Nat.le_of_not_lt hi)
      have hj : j < bs.length := by simpa using h1
      rw [List.getElem_append_right (by simp)]
      simp [Memory.bytes, read_writeBytes_at h hj]

/-- A buffer built from bytes holds exactly them. -/
theorem bytes_ofBytes (bs : List Byte) : Memory.bytes (Memory.ofBytes bs) bs.length = bs := by
  simpa [Memory.ofBytes, Memory.bytes] using bytes_writeBytes (m := []) 0 bs rfl

theorem ofBytes_bufferOk {bs : List Byte} {cap : Nat} (h : bs.length ≤ cap) :
    bufferOk (Memory.ofBytes bs) bs.length cap = true := by
  simp only [bufferOk, cellsBelow, Bool.and_eq_true, List.all_eq_true, decide_eq_true_eq]
  refine ⟨⟨writeBytes_wf 0 bs rfl, fun c hc => ?_⟩, h⟩
  rcases mem_writeBytes hc with hc | hc
  · simp at hc
  · simpa using hc

theorem writeBytes_bufferOk {m : Memory} {n cap : Nat} {bs : List Byte} (h : bufferOk m n cap = true)
    (hfit : n + bs.length ≤ cap) : bufferOk (Memory.writeBytes m n bs) (n + bs.length) cap = true := by
  simp only [bufferOk, cellsBelow, Bool.and_eq_true, List.all_eq_true, decide_eq_true_eq] at h ⊢
  refine ⟨⟨writeBytes_wf n bs h.1.1, fun c hc => ?_⟩, hfit⟩
  rcases mem_writeBytes hc with hc | hc
  · have := h.1.2 c hc
    omega
  · exact hc

/-- Reset's memories have the canonical form. -/
theorem reset_memories_wf (p : Params) :
    Memory.wf (State.resetOf p).rxb = true ∧ Memory.wf (State.resetOf p).txb = true := ⟨rfl, rfl⟩

theorem empty_bufferOk (cap : Nat) : bufferOk [] 0 cap = true := by
  simp [bufferOk, cellsBelow, Memory.wf]

end Sys2Proof.Laws
end

