-- ==== Sys2Proof/Laws/State.lean ====
section
/-! SUPPORT. One lemma per field of State for each update, so that no later proof unfolds a record update. -/

namespace Sys2Proof.Laws

open Sys2Proof.Machine

/-! `purge`. -/

@[simp] theorem purge_params (s : State) : (purge s).params = s.params := rfl
@[simp] theorem purge_mstate (s : State) : (purge s).mstate = s.mstate := rfl
@[simp] theorem purge_sstate (s : State) : (purge s).sstate = s.sstate := rfl
@[simp] theorem purge_rxb (s : State) : (purge s).rxb = [] := rfl
@[simp] theorem purge_rxn (s : State) : (purge s).rxn = 0 := rfl
@[simp] theorem purge_txb (s : State) : (purge s).txb = s.txb := rfl
@[simp] theorem purge_txn (s : State) : (purge s).txn = s.txn := rfl
@[simp] theorem purge_q (s : State) : (purge s).q = s.q := rfl
@[simp] theorem purge_cur (s : State) : (purge s).cur = s.cur := rfl
@[simp] theorem purge_curq (s : State) : (purge s).curq = s.curq := rfl
@[simp] theorem purge_lastRx (s : State) : (purge s).lastRx = s.lastRx := rfl
@[simp] theorem purge_lastTx (s : State) : (purge s).lastTx = s.lastTx := rfl
@[simp] theorem purge_responseTo (s : State) : (purge s).responseTo = s.responseTo := rfl
@[simp] theorem purge_frameTo (s : State) : (purge s).frameTo = s.frameTo := rfl
@[simp] theorem purge_turnaround (s : State) : (purge s).turnaround = s.turnaround := rfl
@[simp] theorem purge_retries (s : State) : (purge s).retries = s.retries := rfl
@[simp] theorem purge_respDelay (s : State) : (purge s).respDelay = s.respDelay := rfl
@[simp] theorem purge_inputs (s : State) : (purge s).inputs = s.inputs := rfl
@[simp] theorem purge_result (s : State) : (purge s).result = s.result := rfl
@[simp] theorem purge_events (s : State) : (purge s).events = s.events := rfl
@[simp] theorem purge_txAns (s : State) : (purge s).txAns = s.txAns := rfl
@[simp] theorem purge_handledAns (s : State) : (purge s).handledAns = s.handledAns := rfl
@[simp] theorem purge_respAns (s : State) : (purge s).respAns = s.respAns := rfl
@[simp] theorem purge_draws (s : State) : (purge s).draws = s.draws := rfl

/-! `putFrame`. -/

@[simp] theorem putFrame_params (f : List Byte) (s : State) : (putFrame f s).params = s.params := rfl
@[simp] theorem putFrame_mstate (f : List Byte) (s : State) : (putFrame f s).mstate = s.mstate := rfl
@[simp] theorem putFrame_sstate (f : List Byte) (s : State) : (putFrame f s).sstate = s.sstate := rfl
@[simp] theorem putFrame_rxb (f : List Byte) (s : State) : (putFrame f s).rxb = s.rxb := rfl
@[simp] theorem putFrame_rxn (f : List Byte) (s : State) : (putFrame f s).rxn = s.rxn := rfl
@[simp] theorem putFrame_txb (f : List Byte) (s : State) : (putFrame f s).txb = Memory.ofBytes f := rfl
@[simp] theorem putFrame_txn (f : List Byte) (s : State) : (putFrame f s).txn = f.length := rfl
@[simp] theorem putFrame_q (f : List Byte) (s : State) : (putFrame f s).q = s.q := rfl
@[simp] theorem putFrame_cur (f : List Byte) (s : State) : (putFrame f s).cur = s.cur := rfl
@[simp] theorem putFrame_curq (f : List Byte) (s : State) : (putFrame f s).curq = s.curq := rfl
@[simp] theorem putFrame_lastRx (f : List Byte) (s : State) : (putFrame f s).lastRx = s.lastRx := rfl
@[simp] theorem putFrame_lastTx (f : List Byte) (s : State) : (putFrame f s).lastTx = s.lastTx := rfl
@[simp] theorem putFrame_responseTo (f : List Byte) (s : State) : (putFrame f s).responseTo = s.responseTo := rfl
@[simp] theorem putFrame_frameTo (f : List Byte) (s : State) : (putFrame f s).frameTo = s.frameTo := rfl
@[simp] theorem putFrame_turnaround (f : List Byte) (s : State) : (putFrame f s).turnaround = s.turnaround := rfl
@[simp] theorem putFrame_retries (f : List Byte) (s : State) : (putFrame f s).retries = s.retries := rfl
@[simp] theorem putFrame_respDelay (f : List Byte) (s : State) : (putFrame f s).respDelay = s.respDelay := rfl
@[simp] theorem putFrame_inputs (f : List Byte) (s : State) : (putFrame f s).inputs = s.inputs := rfl
@[simp] theorem putFrame_result (f : List Byte) (s : State) : (putFrame f s).result = s.result := rfl
@[simp] theorem putFrame_events (f : List Byte) (s : State) : (putFrame f s).events = s.events := rfl
@[simp] theorem putFrame_txAns (f : List Byte) (s : State) : (putFrame f s).txAns = s.txAns := rfl
@[simp] theorem putFrame_handledAns (f : List Byte) (s : State) : (putFrame f s).handledAns = s.handledAns := rfl
@[simp] theorem putFrame_respAns (f : List Byte) (s : State) : (putFrame f s).respAns = s.respAns := rfl
@[simp] theorem putFrame_draws (f : List Byte) (s : State) : (putFrame f s).draws = s.draws := rfl

/-! `raise`. -/

@[simp] theorem raise_params (e : Event) (s : State) : (raise e s).params = s.params := rfl
@[simp] theorem raise_mstate (e : Event) (s : State) : (raise e s).mstate = s.mstate := rfl
@[simp] theorem raise_sstate (e : Event) (s : State) : (raise e s).sstate = s.sstate := rfl
@[simp] theorem raise_rxb (e : Event) (s : State) : (raise e s).rxb = s.rxb := rfl
@[simp] theorem raise_rxn (e : Event) (s : State) : (raise e s).rxn = s.rxn := rfl
@[simp] theorem raise_txb (e : Event) (s : State) : (raise e s).txb = s.txb := rfl
@[simp] theorem raise_txn (e : Event) (s : State) : (raise e s).txn = s.txn := rfl
@[simp] theorem raise_q (e : Event) (s : State) : (raise e s).q = s.q := rfl
@[simp] theorem raise_cur (e : Event) (s : State) : (raise e s).cur = s.cur := rfl
@[simp] theorem raise_curq (e : Event) (s : State) : (raise e s).curq = s.curq := rfl
@[simp] theorem raise_lastRx (e : Event) (s : State) : (raise e s).lastRx = s.lastRx := rfl
@[simp] theorem raise_lastTx (e : Event) (s : State) : (raise e s).lastTx = s.lastTx := rfl
@[simp] theorem raise_responseTo (e : Event) (s : State) : (raise e s).responseTo = s.responseTo := rfl
@[simp] theorem raise_frameTo (e : Event) (s : State) : (raise e s).frameTo = s.frameTo := rfl
@[simp] theorem raise_turnaround (e : Event) (s : State) : (raise e s).turnaround = s.turnaround := rfl
@[simp] theorem raise_retries (e : Event) (s : State) : (raise e s).retries = s.retries := rfl
@[simp] theorem raise_respDelay (e : Event) (s : State) : (raise e s).respDelay = s.respDelay := rfl
@[simp] theorem raise_inputs (e : Event) (s : State) : (raise e s).inputs = s.inputs := rfl
@[simp] theorem raise_result (e : Event) (s : State) : (raise e s).result = s.result := rfl
@[simp] theorem raise_events (e : Event) (s : State) : (raise e s).events = s.events ++ [e] := rfl
@[simp] theorem raise_txAns (e : Event) (s : State) : (raise e s).txAns = s.txAns := rfl
@[simp] theorem raise_handledAns (e : Event) (s : State) : (raise e s).handledAns = s.handledAns := rfl
@[simp] theorem raise_respAns (e : Event) (s : State) : (raise e s).respAns = s.respAns := rfl
@[simp] theorem raise_draws (e : Event) (s : State) : (raise e s).draws = s.draws := rfl

/-! `setResult`. -/

@[simp] theorem setResult_params (st : Status) (v : Value) (s : State) : (setResult st v s).params = s.params := rfl
@[simp] theorem setResult_mstate (st : Status) (v : Value) (s : State) : (setResult st v s).mstate = s.mstate := rfl
@[simp] theorem setResult_sstate (st : Status) (v : Value) (s : State) : (setResult st v s).sstate = s.sstate := rfl
@[simp] theorem setResult_rxb (st : Status) (v : Value) (s : State) : (setResult st v s).rxb = s.rxb := rfl
@[simp] theorem setResult_rxn (st : Status) (v : Value) (s : State) : (setResult st v s).rxn = s.rxn := rfl
@[simp] theorem setResult_txb (st : Status) (v : Value) (s : State) : (setResult st v s).txb = s.txb := rfl
@[simp] theorem setResult_txn (st : Status) (v : Value) (s : State) : (setResult st v s).txn = s.txn := rfl
@[simp] theorem setResult_q (st : Status) (v : Value) (s : State) : (setResult st v s).q = s.q := rfl
@[simp] theorem setResult_cur (st : Status) (v : Value) (s : State) : (setResult st v s).cur = s.cur := rfl
@[simp] theorem setResult_curq (st : Status) (v : Value) (s : State) : (setResult st v s).curq = s.curq := rfl
@[simp] theorem setResult_lastRx (st : Status) (v : Value) (s : State) : (setResult st v s).lastRx = s.lastRx := rfl
@[simp] theorem setResult_lastTx (st : Status) (v : Value) (s : State) : (setResult st v s).lastTx = s.lastTx := rfl
@[simp] theorem setResult_responseTo (st : Status) (v : Value) (s : State) : (setResult st v s).responseTo = s.responseTo := rfl
@[simp] theorem setResult_frameTo (st : Status) (v : Value) (s : State) : (setResult st v s).frameTo = s.frameTo := rfl
@[simp] theorem setResult_turnaround (st : Status) (v : Value) (s : State) : (setResult st v s).turnaround = s.turnaround := rfl
@[simp] theorem setResult_retries (st : Status) (v : Value) (s : State) : (setResult st v s).retries = s.retries := rfl
@[simp] theorem setResult_respDelay (st : Status) (v : Value) (s : State) : (setResult st v s).respDelay = s.respDelay := rfl
@[simp] theorem setResult_inputs (st : Status) (v : Value) (s : State) : (setResult st v s).inputs = s.inputs := rfl
@[simp] theorem setResult_result (st : Status) (v : Value) (s : State) : (setResult st v s).result = some ⟨st, v⟩ := rfl
@[simp] theorem setResult_events (st : Status) (v : Value) (s : State) : (setResult st v s).events = s.events := rfl
@[simp] theorem setResult_txAns (st : Status) (v : Value) (s : State) : (setResult st v s).txAns = s.txAns := rfl
@[simp] theorem setResult_handledAns (st : Status) (v : Value) (s : State) : (setResult st v s).handledAns = s.handledAns := rfl
@[simp] theorem setResult_respAns (st : Status) (v : Value) (s : State) : (setResult st v s).respAns = s.respAns := rfl
@[simp] theorem setResult_draws (st : Status) (v : Value) (s : State) : (setResult st v s).draws = s.draws := rfl

/-! `applyReset` (10_state.md R50). -/

@[simp] theorem applyReset_params (s : State) : (applyReset s).params = s.params := rfl
@[simp] theorem applyReset_mstate (s : State) : (applyReset s).mstate = .idle := rfl
@[simp] theorem applyReset_sstate (s : State) : (applyReset s).sstate = .idle := rfl
@[simp] theorem applyReset_rxb (s : State) : (applyReset s).rxb = [] := rfl
@[simp] theorem applyReset_rxn (s : State) : (applyReset s).rxn = 0 := rfl
@[simp] theorem applyReset_txb (s : State) : (applyReset s).txb = [] := rfl
@[simp] theorem applyReset_txn (s : State) : (applyReset s).txn = 0 := rfl
@[simp] theorem applyReset_q (s : State) : (applyReset s).q = [] := rfl
@[simp] theorem applyReset_cur (s : State) : (applyReset s).cur = zeroRequest := rfl
@[simp] theorem applyReset_curq (s : State) : (applyReset s).curq = false := rfl
@[simp] theorem applyReset_lastRx (s : State) : (applyReset s).lastRx = 0 := rfl
@[simp] theorem applyReset_lastTx (s : State) : (applyReset s).lastTx = 0 := rfl
@[simp] theorem applyReset_responseTo (s : State) : (applyReset s).responseTo = s.params.responseToRst := rfl
@[simp] theorem applyReset_frameTo (s : State) : (applyReset s).frameTo = s.params.frameToRst := rfl
@[simp] theorem applyReset_turnaround (s : State) : (applyReset s).turnaround = s.params.turnaroundRst := rfl
@[simp] theorem applyReset_retries (s : State) : (applyReset s).retries = s.params.retriesRst := rfl
@[simp] theorem applyReset_respDelay (s : State) : (applyReset s).respDelay = s.params.respDelayRst := rfl
@[simp] theorem applyReset_inputs (s : State) : (applyReset s).inputs = s.inputs := rfl
@[simp] theorem applyReset_result (s : State) : (applyReset s).result = none := rfl
@[simp] theorem applyReset_events (s : State) : (applyReset s).events = s.events := rfl
@[simp] theorem applyReset_txAns (s : State) : (applyReset s).txAns = s.txAns := rfl
@[simp] theorem applyReset_handledAns (s : State) : (applyReset s).handledAns = s.handledAns := rfl
@[simp] theorem applyReset_respAns (s : State) : (applyReset s).respAns = s.respAns := rfl
@[simp] theorem applyReset_draws (s : State) : (applyReset s).draws = s.draws := rfl

/-! `takeTx`: an answer list or the counter moves. -/

@[simp] theorem takeTx_params (s : State) : (takeTx s).params = s.params := by
  unfold takeTx; split <;> rfl
@[simp] theorem takeTx_mstate (s : State) : (takeTx s).mstate = s.mstate := by
  unfold takeTx; split <;> rfl
@[simp] theorem takeTx_sstate (s : State) : (takeTx s).sstate = s.sstate := by
  unfold takeTx; split <;> rfl
@[simp] theorem takeTx_rxb (s : State) : (takeTx s).rxb = s.rxb := by
  unfold takeTx; split <;> rfl
@[simp] theorem takeTx_rxn (s : State) : (takeTx s).rxn = s.rxn := by
  unfold takeTx; split <;> rfl
@[simp] theorem takeTx_txb (s : State) : (takeTx s).txb = s.txb := by
  unfold takeTx; split <;> rfl
@[simp] theorem takeTx_txn (s : State) : (takeTx s).txn = s.txn := by
  unfold takeTx; split <;> rfl
@[simp] theorem takeTx_q (s : State) : (takeTx s).q = s.q := by
  unfold takeTx; split <;> rfl
@[simp] theorem takeTx_cur (s : State) : (takeTx s).cur = s.cur := by
  unfold takeTx; split <;> rfl
@[simp] theorem takeTx_curq (s : State) : (takeTx s).curq = s.curq := by
  unfold takeTx; split <;> rfl
@[simp] theorem takeTx_lastRx (s : State) : (takeTx s).lastRx = s.lastRx := by
  unfold takeTx; split <;> rfl
@[simp] theorem takeTx_lastTx (s : State) : (takeTx s).lastTx = s.lastTx := by
  unfold takeTx; split <;> rfl
@[simp] theorem takeTx_responseTo (s : State) : (takeTx s).responseTo = s.responseTo := by
  unfold takeTx; split <;> rfl
@[simp] theorem takeTx_frameTo (s : State) : (takeTx s).frameTo = s.frameTo := by
  unfold takeTx; split <;> rfl
@[simp] theorem takeTx_turnaround (s : State) : (takeTx s).turnaround = s.turnaround := by
  unfold takeTx; split <;> rfl
@[simp] theorem takeTx_retries (s : State) : (takeTx s).retries = s.retries := by
  unfold takeTx; split <;> rfl
@[simp] theorem takeTx_respDelay (s : State) : (takeTx s).respDelay = s.respDelay := by
  unfold takeTx; split <;> rfl
@[simp] theorem takeTx_inputs (s : State) : (takeTx s).inputs = s.inputs := by
  unfold takeTx; split <;> rfl
@[simp] theorem takeTx_result (s : State) : (takeTx s).result = s.result := by
  unfold takeTx; split <;> rfl
@[simp] theorem takeTx_events (s : State) : (takeTx s).events = s.events := by
  unfold takeTx; split <;> rfl
@[simp] theorem takeTx_handledAns (s : State) : (takeTx s).handledAns = s.handledAns := by
  unfold takeTx; split <;> rfl
@[simp] theorem takeTx_respAns (s : State) : (takeTx s).respAns = s.respAns := by
  unfold takeTx; split <;> rfl

/-! `takeHandled`. -/

@[simp] theorem takeHandled_params (s : State) : (takeHandled s).params = s.params := by
  unfold takeHandled; split <;> rfl
@[simp] theorem takeHandled_mstate (s : State) : (takeHandled s).mstate = s.mstate := by
  unfold takeHandled; split <;> rfl
@[simp] theorem takeHandled_sstate (s : State) : (takeHandled s).sstate = s.sstate := by
  unfold takeHandled; split <;> rfl
@[simp] theorem takeHandled_rxb (s : State) : (takeHandled s).rxb = s.rxb := by
  unfold takeHandled; split <;> rfl
@[simp] theorem takeHandled_rxn (s : State) : (takeHandled s).rxn = s.rxn := by
  unfold takeHandled; split <;> rfl
@[simp] theorem takeHandled_txb (s : State) : (takeHandled s).txb = s.txb := by
  unfold takeHandled; split <;> rfl
@[simp] theorem takeHandled_txn (s : State) : (takeHandled s).txn = s.txn := by
  unfold takeHandled; split <;> rfl
@[simp] theorem takeHandled_q (s : State) : (takeHandled s).q = s.q := by
  unfold takeHandled; split <;> rfl
@[simp] theorem takeHandled_cur (s : State) : (takeHandled s).cur = s.cur := by
  unfold takeHandled; split <;> rfl
@[simp] theorem takeHandled_curq (s : State) : (takeHandled s).curq = s.curq := by
  unfold takeHandled; split <;> rfl
@[simp] theorem takeHandled_lastRx (s : State) : (takeHandled s).lastRx = s.lastRx := by
  unfold takeHandled; split <;> rfl
@[simp] theorem takeHandled_lastTx (s : State) : (takeHandled s).lastTx = s.lastTx := by
  unfold takeHandled; split <;> rfl
@[simp] theorem takeHandled_responseTo (s : State) : (takeHandled s).responseTo = s.responseTo := by
  unfold takeHandled; split <;> rfl
@[simp] theorem takeHandled_frameTo (s : State) : (takeHandled s).frameTo = s.frameTo := by
  unfold takeHandled; split <;> rfl
@[simp] theorem takeHandled_turnaround (s : State) : (takeHandled s).turnaround = s.turnaround := by
  unfold takeHandled; split <;> rfl
@[simp] theorem takeHandled_retries (s : State) : (takeHandled s).retries = s.retries := by
  unfold takeHandled; split <;> rfl
@[simp] theorem takeHandled_respDelay (s : State) : (takeHandled s).respDelay = s.respDelay := by
  unfold takeHandled; split <;> rfl
@[simp] theorem takeHandled_inputs (s : State) : (takeHandled s).inputs = s.inputs := by
  unfold takeHandled; split <;> rfl
@[simp] theorem takeHandled_result (s : State) : (takeHandled s).result = s.result := by
  unfold takeHandled; split <;> rfl
@[simp] theorem takeHandled_events (s : State) : (takeHandled s).events = s.events := by
  unfold takeHandled; split <;> rfl
@[simp] theorem takeHandled_txAns (s : State) : (takeHandled s).txAns = s.txAns := by
  unfold takeHandled; split <;> rfl
@[simp] theorem takeHandled_respAns (s : State) : (takeHandled s).respAns = s.respAns := by
  unfold takeHandled; split <;> rfl

/-! `takeAnswer`. -/

@[simp] theorem takeAnswer_params (s : State) : (takeAnswer s).params = s.params := by
  unfold takeAnswer; split <;> rfl
@[simp] theorem takeAnswer_mstate (s : State) : (takeAnswer s).mstate = s.mstate := by
  unfold takeAnswer; split <;> rfl
@[simp] theorem takeAnswer_sstate (s : State) : (takeAnswer s).sstate = s.sstate := by
  unfold takeAnswer; split <;> rfl
@[simp] theorem takeAnswer_rxb (s : State) : (takeAnswer s).rxb = s.rxb := by
  unfold takeAnswer; split <;> rfl
@[simp] theorem takeAnswer_rxn (s : State) : (takeAnswer s).rxn = s.rxn := by
  unfold takeAnswer; split <;> rfl
@[simp] theorem takeAnswer_txb (s : State) : (takeAnswer s).txb = s.txb := by
  unfold takeAnswer; split <;> rfl
@[simp] theorem takeAnswer_txn (s : State) : (takeAnswer s).txn = s.txn := by
  unfold takeAnswer; split <;> rfl
@[simp] theorem takeAnswer_q (s : State) : (takeAnswer s).q = s.q := by
  unfold takeAnswer; split <;> rfl
@[simp] theorem takeAnswer_cur (s : State) : (takeAnswer s).cur = s.cur := by
  unfold takeAnswer; split <;> rfl
@[simp] theorem takeAnswer_curq (s : State) : (takeAnswer s).curq = s.curq := by
  unfold takeAnswer; split <;> rfl
@[simp] theorem takeAnswer_lastRx (s : State) : (takeAnswer s).lastRx = s.lastRx := by
  unfold takeAnswer; split <;> rfl
@[simp] theorem takeAnswer_lastTx (s : State) : (takeAnswer s).lastTx = s.lastTx := by
  unfold takeAnswer; split <;> rfl
@[simp] theorem takeAnswer_responseTo (s : State) : (takeAnswer s).responseTo = s.responseTo := by
  unfold takeAnswer; split <;> rfl
@[simp] theorem takeAnswer_frameTo (s : State) : (takeAnswer s).frameTo = s.frameTo := by
  unfold takeAnswer; split <;> rfl
@[simp] theorem takeAnswer_turnaround (s : State) : (takeAnswer s).turnaround = s.turnaround := by
  unfold takeAnswer; split <;> rfl
@[simp] theorem takeAnswer_retries (s : State) : (takeAnswer s).retries = s.retries := by
  unfold takeAnswer; split <;> rfl
@[simp] theorem takeAnswer_respDelay (s : State) : (takeAnswer s).respDelay = s.respDelay := by
  unfold takeAnswer; split <;> rfl
@[simp] theorem takeAnswer_inputs (s : State) : (takeAnswer s).inputs = s.inputs := by
  unfold takeAnswer; split <;> rfl
@[simp] theorem takeAnswer_result (s : State) : (takeAnswer s).result = s.result := by
  unfold takeAnswer; split <;> rfl
@[simp] theorem takeAnswer_events (s : State) : (takeAnswer s).events = s.events := by
  unfold takeAnswer; split <;> rfl
@[simp] theorem takeAnswer_txAns (s : State) : (takeAnswer s).txAns = s.txAns := by
  unfold takeAnswer; split <;> rfl
@[simp] theorem takeAnswer_handledAns (s : State) : (takeAnswer s).handledAns = s.handledAns := by
  unfold takeAnswer; split <;> rfl

/-! `store`. -/

@[simp] theorem store_params (chunk : List Byte) (s : State) : (store chunk s).params = s.params := by
  unfold store; split <;> rfl
@[simp] theorem store_mstate (chunk : List Byte) (s : State) : (store chunk s).mstate = s.mstate := by
  unfold store; split <;> rfl
@[simp] theorem store_sstate (chunk : List Byte) (s : State) : (store chunk s).sstate = s.sstate := by
  unfold store; split <;> rfl
@[simp] theorem store_txb (chunk : List Byte) (s : State) : (store chunk s).txb = s.txb := by
  unfold store; split <;> rfl
@[simp] theorem store_txn (chunk : List Byte) (s : State) : (store chunk s).txn = s.txn := by
  unfold store; split <;> rfl
@[simp] theorem store_q (chunk : List Byte) (s : State) : (store chunk s).q = s.q := by
  unfold store; split <;> rfl
@[simp] theorem store_cur (chunk : List Byte) (s : State) : (store chunk s).cur = s.cur := by
  unfold store; split <;> rfl
@[simp] theorem store_curq (chunk : List Byte) (s : State) : (store chunk s).curq = s.curq := by
  unfold store; split <;> rfl
@[simp] theorem store_lastRx (chunk : List Byte) (s : State) : (store chunk s).lastRx = s.lastRx := by
  unfold store; split <;> rfl
@[simp] theorem store_lastTx (chunk : List Byte) (s : State) : (store chunk s).lastTx = s.lastTx := by
  unfold store; split <;> rfl
@[simp] theorem store_responseTo (chunk : List Byte) (s : State) : (store chunk s).responseTo = s.responseTo := by
  unfold store; split <;> rfl
@[simp] theorem store_frameTo (chunk : List Byte) (s : State) : (store chunk s).frameTo = s.frameTo := by
  unfold store; split <;> rfl
@[simp] theorem store_turnaround (chunk : List Byte) (s : State) : (store chunk s).turnaround = s.turnaround := by
  unfold store; split <;> rfl
@[simp] theorem store_retries (chunk : List Byte) (s : State) : (store chunk s).retries = s.retries := by
  unfold store; split <;> rfl
@[simp] theorem store_respDelay (chunk : List Byte) (s : State) : (store chunk s).respDelay = s.respDelay := by
  unfold store; split <;> rfl
@[simp] theorem store_inputs (chunk : List Byte) (s : State) : (store chunk s).inputs = s.inputs := by
  unfold store; split <;> rfl
@[simp] theorem store_result (chunk : List Byte) (s : State) : (store chunk s).result = s.result := by
  unfold store; split <;> rfl
@[simp] theorem store_events (chunk : List Byte) (s : State) : (store chunk s).events = s.events := by
  unfold store; split <;> rfl
@[simp] theorem store_txAns (chunk : List Byte) (s : State) : (store chunk s).txAns = s.txAns := by
  unfold store; split <;> rfl
@[simp] theorem store_handledAns (chunk : List Byte) (s : State) : (store chunk s).handledAns = s.handledAns := by
  unfold store; split <;> rfl
@[simp] theorem store_respAns (chunk : List Byte) (s : State) : (store chunk s).respAns = s.respAns := by
  unfold store; split <;> rfl
@[simp] theorem store_draws (chunk : List Byte) (s : State) : (store chunk s).draws = s.draws := by
  unfold store; split <;> rfl

/-! `append`. -/

@[simp] theorem append_params (now : Time) (chunk : List Byte) (s : State) : (append now chunk s).params = s.params := by
  simp [append]
@[simp] theorem append_mstate (now : Time) (chunk : List Byte) (s : State) : (append now chunk s).mstate = s.mstate := by
  simp [append]
@[simp] theorem append_sstate (now : Time) (chunk : List Byte) (s : State) : (append now chunk s).sstate = s.sstate := by
  simp [append]
@[simp] theorem append_rxb (now : Time) (chunk : List Byte) (s : State) : (append now chunk s).rxb = (store chunk s).rxb := by
  simp [append]
@[simp] theorem append_rxn (now : Time) (chunk : List Byte) (s : State) : (append now chunk s).rxn = (store chunk s).rxn := by
  simp [append]
@[simp] theorem append_txb (now : Time) (chunk : List Byte) (s : State) : (append now chunk s).txb = s.txb := by
  simp [append]
@[simp] theorem append_txn (now : Time) (chunk : List Byte) (s : State) : (append now chunk s).txn = s.txn := by
  simp [append]
@[simp] theorem append_q (now : Time) (chunk : List Byte) (s : State) : (append now chunk s).q = s.q := by
  simp [append]
@[simp] theorem append_cur (now : Time) (chunk : List Byte) (s : State) : (append now chunk s).cur = s.cur := by
  simp [append]
@[simp] theorem append_curq (now : Time) (chunk : List Byte) (s : State) : (append now chunk s).curq = s.curq := by
  simp [append]
@[simp] theorem append_lastRx (now : Time) (chunk : List Byte) (s : State) : (append now chunk s).lastRx = now := by
  simp [append]
@[simp] theorem append_lastTx (now : Time) (chunk : List Byte) (s : State) : (append now chunk s).lastTx = s.lastTx := by
  simp [append]
@[simp] theorem append_responseTo (now : Time) (chunk : List Byte) (s : State) : (append now chunk s).responseTo = s.responseTo := by
  simp [append]
@[simp] theorem append_frameTo (now : Time) (chunk : List Byte) (s : State) : (append now chunk s).frameTo = s.frameTo := by
  simp [append]
@[simp] theorem append_turnaround (now : Time) (chunk : List Byte) (s : State) : (append now chunk s).turnaround = s.turnaround := by
  simp [append]
@[simp] theorem append_retries (now : Time) (chunk : List Byte) (s : State) : (append now chunk s).retries = s.retries := by
  simp [append]
@[simp] theorem append_respDelay (now : Time) (chunk : List Byte) (s : State) : (append now chunk s).respDelay = s.respDelay := by
  simp [append]
@[simp] theorem append_inputs (now : Time) (chunk : List Byte) (s : State) : (append now chunk s).inputs = s.inputs := by
  simp [append]
@[simp] theorem append_result (now : Time) (chunk : List Byte) (s : State) : (append now chunk s).result = s.result := by
  simp [append]
@[simp] theorem append_events (now : Time) (chunk : List Byte) (s : State) : (append now chunk s).events = s.events ++ [.rx chunk] := by
  simp [append]
@[simp] theorem append_txAns (now : Time) (chunk : List Byte) (s : State) : (append now chunk s).txAns = s.txAns := by
  simp [append]
@[simp] theorem append_handledAns (now : Time) (chunk : List Byte) (s : State) : (append now chunk s).handledAns = s.handledAns := by
  simp [append]
@[simp] theorem append_respAns (now : Time) (chunk : List Byte) (s : State) : (append now chunk s).respAns = s.respAns := by
  simp [append]
@[simp] theorem append_draws (now : Time) (chunk : List Byte) (s : State) : (append now chunk s).draws = s.draws := by
  simp [append]

/-! `receive`. -/

@[simp] theorem receive_params (now : Time) (chunk : List Byte) (s : State) : (receive now chunk s).params = s.params := by
  unfold receive; split <;> simp
@[simp] theorem receive_mstate (now : Time) (chunk : List Byte) (s : State) : (receive now chunk s).mstate = s.mstate := by
  unfold receive; split <;> simp
@[simp] theorem receive_sstate (now : Time) (chunk : List Byte) (s : State) : (receive now chunk s).sstate = s.sstate := by
  unfold receive; split <;> simp
@[simp] theorem receive_txb (now : Time) (chunk : List Byte) (s : State) : (receive now chunk s).txb = s.txb := by
  unfold receive; split <;> simp
@[simp] theorem receive_txn (now : Time) (chunk : List Byte) (s : State) : (receive now chunk s).txn = s.txn := by
  unfold receive; split <;> simp
@[simp] theorem receive_q (now : Time) (chunk : List Byte) (s : State) : (receive now chunk s).q = s.q := by
  unfold receive; split <;> simp
@[simp] theorem receive_cur (now : Time) (chunk : List Byte) (s : State) : (receive now chunk s).cur = s.cur := by
  unfold receive; split <;> simp
@[simp] theorem receive_curq (now : Time) (chunk : List Byte) (s : State) : (receive now chunk s).curq = s.curq := by
  unfold receive; split <;> simp
@[simp] theorem receive_lastTx (now : Time) (chunk : List Byte) (s : State) : (receive now chunk s).lastTx = s.lastTx := by
  unfold receive; split <;> simp
@[simp] theorem receive_responseTo (now : Time) (chunk : List Byte) (s : State) : (receive now chunk s).responseTo = s.responseTo := by
  unfold receive; split <;> simp
@[simp] theorem receive_frameTo (now : Time) (chunk : List Byte) (s : State) : (receive now chunk s).frameTo = s.frameTo := by
  unfold receive; split <;> simp
@[simp] theorem receive_turnaround (now : Time) (chunk : List Byte) (s : State) : (receive now chunk s).turnaround = s.turnaround := by
  unfold receive; split <;> simp
@[simp] theorem receive_retries (now : Time) (chunk : List Byte) (s : State) : (receive now chunk s).retries = s.retries := by
  unfold receive; split <;> simp
@[simp] theorem receive_respDelay (now : Time) (chunk : List Byte) (s : State) : (receive now chunk s).respDelay = s.respDelay := by
  unfold receive; split <;> simp
@[simp] theorem receive_inputs (now : Time) (chunk : List Byte) (s : State) : (receive now chunk s).inputs = s.inputs := by
  unfold receive; split <;> simp
@[simp] theorem receive_result (now : Time) (chunk : List Byte) (s : State) : (receive now chunk s).result = s.result := by
  unfold receive; split <;> simp
@[simp] theorem receive_txAns (now : Time) (chunk : List Byte) (s : State) : (receive now chunk s).txAns = s.txAns := by
  unfold receive; split <;> simp
@[simp] theorem receive_handledAns (now : Time) (chunk : List Byte) (s : State) : (receive now chunk s).handledAns = s.handledAns := by
  unfold receive; split <;> simp
@[simp] theorem receive_respAns (now : Time) (chunk : List Byte) (s : State) : (receive now chunk s).respAns = s.respAns := by
  unfold receive; split <;> simp
@[simp] theorem receive_draws (now : Time) (chunk : List Byte) (s : State) : (receive now chunk s).draws = s.draws := by
  unfold receive; split <;> simp

/-! `tx`. -/

@[simp] theorem tx_params (now : Time) (f : List Byte) (s : State) : (tx now f s).params = s.params := by
  unfold tx; split <;> simp
@[simp] theorem tx_mstate (now : Time) (f : List Byte) (s : State) : (tx now f s).mstate = s.mstate := by
  unfold tx; split <;> simp
@[simp] theorem tx_sstate (now : Time) (f : List Byte) (s : State) : (tx now f s).sstate = s.sstate := by
  unfold tx; split <;> simp
@[simp] theorem tx_rxb (now : Time) (f : List Byte) (s : State) : (tx now f s).rxb = s.rxb := by
  unfold tx; split <;> simp
@[simp] theorem tx_rxn (now : Time) (f : List Byte) (s : State) : (tx now f s).rxn = s.rxn := by
  unfold tx; split <;> simp
@[simp] theorem tx_txb (now : Time) (f : List Byte) (s : State) : (tx now f s).txb = s.txb := by
  unfold tx; split <;> simp
@[simp] theorem tx_txn (now : Time) (f : List Byte) (s : State) : (tx now f s).txn = s.txn := by
  unfold tx; split <;> simp
@[simp] theorem tx_q (now : Time) (f : List Byte) (s : State) : (tx now f s).q = s.q := by
  unfold tx; split <;> simp
@[simp] theorem tx_cur (now : Time) (f : List Byte) (s : State) : (tx now f s).cur = s.cur := by
  unfold tx; split <;> simp
@[simp] theorem tx_curq (now : Time) (f : List Byte) (s : State) : (tx now f s).curq = s.curq := by
  unfold tx; split <;> simp
@[simp] theorem tx_lastRx (now : Time) (f : List Byte) (s : State) : (tx now f s).lastRx = s.lastRx := by
  unfold tx; split <;> simp
@[simp] theorem tx_responseTo (now : Time) (f : List Byte) (s : State) : (tx now f s).responseTo = s.responseTo := by
  unfold tx; split <;> simp
@[simp] theorem tx_frameTo (now : Time) (f : List Byte) (s : State) : (tx now f s).frameTo = s.frameTo := by
  unfold tx; split <;> simp
@[simp] theorem tx_turnaround (now : Time) (f : List Byte) (s : State) : (tx now f s).turnaround = s.turnaround := by
  unfold tx; split <;> simp
@[simp] theorem tx_retries (now : Time) (f : List Byte) (s : State) : (tx now f s).retries = s.retries := by
  unfold tx; split <;> simp
@[simp] theorem tx_respDelay (now : Time) (f : List Byte) (s : State) : (tx now f s).respDelay = s.respDelay := by
  unfold tx; split <;> simp
@[simp] theorem tx_inputs (now : Time) (f : List Byte) (s : State) : (tx now f s).inputs = s.inputs := by
  unfold tx; split <;> simp
@[simp] theorem tx_result (now : Time) (f : List Byte) (s : State) : (tx now f s).result = s.result := by
  unfold tx; split <;> simp
@[simp] theorem tx_handledAns (now : Time) (f : List Byte) (s : State) : (tx now f s).handledAns = s.handledAns := by
  unfold tx; split <;> simp
@[simp] theorem tx_respAns (now : Time) (f : List Byte) (s : State) : (tx now f s).respAns = s.respAns := by
  unfold tx; split <;> simp

/-! `removeHead`. -/

@[simp] theorem removeHead_params (s : State) : (removeHead s).params = s.params := by
  unfold removeHead; split <;> simp_all
@[simp] theorem removeHead_mstate (s : State) : (removeHead s).mstate = s.mstate := by
  unfold removeHead; split <;> simp_all
@[simp] theorem removeHead_sstate (s : State) : (removeHead s).sstate = s.sstate := by
  unfold removeHead; split <;> simp_all
@[simp] theorem removeHead_rxb (s : State) : (removeHead s).rxb = s.rxb := by
  unfold removeHead; split <;> simp_all
@[simp] theorem removeHead_rxn (s : State) : (removeHead s).rxn = s.rxn := by
  unfold removeHead; split <;> simp_all
@[simp] theorem removeHead_txb (s : State) : (removeHead s).txb = s.txb := by
  unfold removeHead; split <;> simp_all
@[simp] theorem removeHead_txn (s : State) : (removeHead s).txn = s.txn := by
  unfold removeHead; split <;> simp_all
@[simp] theorem removeHead_cur (s : State) : (removeHead s).cur = s.cur := by
  unfold removeHead; split <;> simp_all
@[simp] theorem removeHead_curq (s : State) : (removeHead s).curq = false := by
  unfold removeHead; split <;> simp_all
@[simp] theorem removeHead_lastRx (s : State) : (removeHead s).lastRx = s.lastRx := by
  unfold removeHead; split <;> simp_all
@[simp] theorem removeHead_lastTx (s : State) : (removeHead s).lastTx = s.lastTx := by
  unfold removeHead; split <;> simp_all
@[simp] theorem removeHead_responseTo (s : State) : (removeHead s).responseTo = s.responseTo := by
  unfold removeHead; split <;> simp_all
@[simp] theorem removeHead_frameTo (s : State) : (removeHead s).frameTo = s.frameTo := by
  unfold removeHead; split <;> simp_all
@[simp] theorem removeHead_turnaround (s : State) : (removeHead s).turnaround = s.turnaround := by
  unfold removeHead; split <;> simp_all
@[simp] theorem removeHead_retries (s : State) : (removeHead s).retries = s.retries := by
  unfold removeHead; split <;> simp_all
@[simp] theorem removeHead_respDelay (s : State) : (removeHead s).respDelay = s.respDelay := by
  unfold removeHead; split <;> simp_all
@[simp] theorem removeHead_inputs (s : State) : (removeHead s).inputs = s.inputs := by
  unfold removeHead; split <;> simp_all
@[simp] theorem removeHead_result (s : State) : (removeHead s).result = s.result := by
  unfold removeHead; split <;> simp_all
@[simp] theorem removeHead_events (s : State) : (removeHead s).events = s.events := by
  unfold removeHead; split <;> simp_all
@[simp] theorem removeHead_txAns (s : State) : (removeHead s).txAns = s.txAns := by
  unfold removeHead; split <;> simp_all
@[simp] theorem removeHead_handledAns (s : State) : (removeHead s).handledAns = s.handledAns := by
  unfold removeHead; split <;> simp_all
@[simp] theorem removeHead_respAns (s : State) : (removeHead s).respAns = s.respAns := by
  unfold removeHead; split <;> simp_all
@[simp] theorem removeHead_draws (s : State) : (removeHead s).draws = s.draws := by
  unfold removeHead; split <;> simp_all

/-! `failRequest`. -/

@[simp] theorem failRequest_params (s : State) : (failRequest s).params = s.params := by
  unfold failRequest; split <;> simp
@[simp] theorem failRequest_mstate (s : State) : (failRequest s).mstate = s.mstate := by
  unfold failRequest; split <;> simp
@[simp] theorem failRequest_sstate (s : State) : (failRequest s).sstate = s.sstate := by
  unfold failRequest; split <;> simp
@[simp] theorem failRequest_rxb (s : State) : (failRequest s).rxb = s.rxb := by
  unfold failRequest; split <;> simp
@[simp] theorem failRequest_rxn (s : State) : (failRequest s).rxn = s.rxn := by
  unfold failRequest; split <;> simp
@[simp] theorem failRequest_txb (s : State) : (failRequest s).txb = s.txb := by
  unfold failRequest; split <;> simp
@[simp] theorem failRequest_txn (s : State) : (failRequest s).txn = s.txn := by
  unfold failRequest; split <;> simp
@[simp] theorem failRequest_lastRx (s : State) : (failRequest s).lastRx = s.lastRx := by
  unfold failRequest; split <;> simp
@[simp] theorem failRequest_lastTx (s : State) : (failRequest s).lastTx = s.lastTx := by
  unfold failRequest; split <;> simp
@[simp] theorem failRequest_responseTo (s : State) : (failRequest s).responseTo = s.responseTo := by
  unfold failRequest; split <;> simp
@[simp] theorem failRequest_frameTo (s : State) : (failRequest s).frameTo = s.frameTo := by
  unfold failRequest; split <;> simp
@[simp] theorem failRequest_turnaround (s : State) : (failRequest s).turnaround = s.turnaround := by
  unfold failRequest; split <;> simp
@[simp] theorem failRequest_retries (s : State) : (failRequest s).retries = s.retries := by
  unfold failRequest; split <;> simp
@[simp] theorem failRequest_respDelay (s : State) : (failRequest s).respDelay = s.respDelay := by
  unfold failRequest; split <;> simp
@[simp] theorem failRequest_inputs (s : State) : (failRequest s).inputs = s.inputs := by
  unfold failRequest; split <;> simp
@[simp] theorem failRequest_result (s : State) : (failRequest s).result = s.result := by
  unfold failRequest; split <;> simp
@[simp] theorem failRequest_events (s : State) : (failRequest s).events = s.events := by
  unfold failRequest; split <;> simp
@[simp] theorem failRequest_txAns (s : State) : (failRequest s).txAns = s.txAns := by
  unfold failRequest; split <;> simp
@[simp] theorem failRequest_handledAns (s : State) : (failRequest s).handledAns = s.handledAns := by
  unfold failRequest; split <;> simp
@[simp] theorem failRequest_respAns (s : State) : (failRequest s).respAns = s.respAns := by
  unfold failRequest; split <;> simp
@[simp] theorem failRequest_draws (s : State) : (failRequest s).draws = s.draws := by
  unfold failRequest; split <;> simp

/-! `raiseRequest`. -/

@[simp] theorem raiseRequest_params (r : Request) (s : State) : (raiseRequest r s).params = s.params := by
  unfold raiseRequest; split <;> simp
@[simp] theorem raiseRequest_mstate (r : Request) (s : State) : (raiseRequest r s).mstate = s.mstate := by
  unfold raiseRequest; split <;> simp
@[simp] theorem raiseRequest_sstate (r : Request) (s : State) : (raiseRequest r s).sstate = s.sstate := by
  unfold raiseRequest; split <;> simp
@[simp] theorem raiseRequest_rxb (r : Request) (s : State) : (raiseRequest r s).rxb = s.rxb := by
  unfold raiseRequest; split <;> simp
@[simp] theorem raiseRequest_rxn (r : Request) (s : State) : (raiseRequest r s).rxn = s.rxn := by
  unfold raiseRequest; split <;> simp
@[simp] theorem raiseRequest_txb (r : Request) (s : State) : (raiseRequest r s).txb = s.txb := by
  unfold raiseRequest; split <;> simp
@[simp] theorem raiseRequest_txn (r : Request) (s : State) : (raiseRequest r s).txn = s.txn := by
  unfold raiseRequest; split <;> simp
@[simp] theorem raiseRequest_q (r : Request) (s : State) : (raiseRequest r s).q = s.q := by
  unfold raiseRequest; split <;> simp
@[simp] theorem raiseRequest_cur (r : Request) (s : State) : (raiseRequest r s).cur = s.cur := by
  unfold raiseRequest; split <;> simp
@[simp] theorem raiseRequest_curq (r : Request) (s : State) : (raiseRequest r s).curq = s.curq := by
  unfold raiseRequest; split <;> simp
@[simp] theorem raiseRequest_lastRx (r : Request) (s : State) : (raiseRequest r s).lastRx = s.lastRx := by
  unfold raiseRequest; split <;> simp
@[simp] theorem raiseRequest_lastTx (r : Request) (s : State) : (raiseRequest r s).lastTx = s.lastTx := by
  unfold raiseRequest; split <;> simp
@[simp] theorem raiseRequest_responseTo (r : Request) (s : State) : (raiseRequest r s).responseTo = s.responseTo := by
  unfold raiseRequest; split <;> simp
@[simp] theorem raiseRequest_frameTo (r : Request) (s : State) : (raiseRequest r s).frameTo = s.frameTo := by
  unfold raiseRequest; split <;> simp
@[simp] theorem raiseRequest_turnaround (r : Request) (s : State) : (raiseRequest r s).turnaround = s.turnaround := by
  unfold raiseRequest; split <;> simp
@[simp] theorem raiseRequest_retries (r : Request) (s : State) : (raiseRequest r s).retries = s.retries := by
  unfold raiseRequest; split <;> simp
@[simp] theorem raiseRequest_respDelay (r : Request) (s : State) : (raiseRequest r s).respDelay = s.respDelay := by
  unfold raiseRequest; split <;> simp
@[simp] theorem raiseRequest_inputs (r : Request) (s : State) : (raiseRequest r s).inputs = s.inputs := by
  unfold raiseRequest; split <;> simp
@[simp] theorem raiseRequest_result (r : Request) (s : State) : (raiseRequest r s).result = s.result := by
  unfold raiseRequest; split <;> simp
@[simp] theorem raiseRequest_txAns (r : Request) (s : State) : (raiseRequest r s).txAns = s.txAns := by
  unfold raiseRequest; split <;> simp
@[simp] theorem raiseRequest_handledAns (r : Request) (s : State) : (raiseRequest r s).handledAns = s.handledAns := by
  unfold raiseRequest; split <;> simp

/-! `dispatchNormal`. -/

@[simp] theorem dispatchNormal_params (p : Normal) (s : State) : (dispatchNormal p s).params = s.params := by
  unfold dispatchNormal; dsimp only; split <;> simp
@[simp] theorem dispatchNormal_mstate (p : Normal) (s : State) : (dispatchNormal p s).mstate = s.mstate := by
  unfold dispatchNormal; dsimp only; split <;> simp
@[simp] theorem dispatchNormal_sstate (p : Normal) (s : State) : (dispatchNormal p s).sstate = s.sstate := by
  unfold dispatchNormal; dsimp only; split <;> simp
@[simp] theorem dispatchNormal_rxb (p : Normal) (s : State) : (dispatchNormal p s).rxb = s.rxb := by
  unfold dispatchNormal; dsimp only; split <;> simp
@[simp] theorem dispatchNormal_rxn (p : Normal) (s : State) : (dispatchNormal p s).rxn = s.rxn := by
  unfold dispatchNormal; dsimp only; split <;> simp
@[simp] theorem dispatchNormal_txb (p : Normal) (s : State) : (dispatchNormal p s).txb = s.txb := by
  unfold dispatchNormal; dsimp only; split <;> simp
@[simp] theorem dispatchNormal_txn (p : Normal) (s : State) : (dispatchNormal p s).txn = s.txn := by
  unfold dispatchNormal; dsimp only; split <;> simp
@[simp] theorem dispatchNormal_cur (p : Normal) (s : State) : (dispatchNormal p s).cur = s.cur := by
  unfold dispatchNormal; dsimp only; split <;> simp
@[simp] theorem dispatchNormal_curq (p : Normal) (s : State) : (dispatchNormal p s).curq = false := by
  unfold dispatchNormal; dsimp only; split <;> simp
@[simp] theorem dispatchNormal_lastRx (p : Normal) (s : State) : (dispatchNormal p s).lastRx = s.lastRx := by
  unfold dispatchNormal; dsimp only; split <;> simp
@[simp] theorem dispatchNormal_lastTx (p : Normal) (s : State) : (dispatchNormal p s).lastTx = s.lastTx := by
  unfold dispatchNormal; dsimp only; split <;> simp
@[simp] theorem dispatchNormal_responseTo (p : Normal) (s : State) : (dispatchNormal p s).responseTo = s.responseTo := by
  unfold dispatchNormal; dsimp only; split <;> simp
@[simp] theorem dispatchNormal_frameTo (p : Normal) (s : State) : (dispatchNormal p s).frameTo = s.frameTo := by
  unfold dispatchNormal; dsimp only; split <;> simp
@[simp] theorem dispatchNormal_turnaround (p : Normal) (s : State) : (dispatchNormal p s).turnaround = s.turnaround := by
  unfold dispatchNormal; dsimp only; split <;> simp
@[simp] theorem dispatchNormal_retries (p : Normal) (s : State) : (dispatchNormal p s).retries = s.retries := by
  unfold dispatchNormal; dsimp only; split <;> simp
@[simp] theorem dispatchNormal_respDelay (p : Normal) (s : State) : (dispatchNormal p s).respDelay = s.respDelay := by
  unfold dispatchNormal; dsimp only; split <;> simp
@[simp] theorem dispatchNormal_inputs (p : Normal) (s : State) : (dispatchNormal p s).inputs = s.inputs := by
  unfold dispatchNormal; dsimp only; split <;> simp
@[simp] theorem dispatchNormal_result (p : Normal) (s : State) : (dispatchNormal p s).result = s.result := by
  unfold dispatchNormal; dsimp only; split <;> simp
@[simp] theorem dispatchNormal_txAns (p : Normal) (s : State) : (dispatchNormal p s).txAns = s.txAns := by
  unfold dispatchNormal; dsimp only; split <;> simp
@[simp] theorem dispatchNormal_respAns (p : Normal) (s : State) : (dispatchNormal p s).respAns = s.respAns := by
  unfold dispatchNormal; dsimp only; split <;> simp

end Sys2Proof.Laws
end

