-- ==== Sys2Proof/Laws/Codec.lean ====
section
/-! SUPPORT. What the codec's primitives do: the CRC over concatenations, the emits with their overflow test, the
guarded reads, and the length of every frame an encoder returns. -/

namespace Sys2Proof.Laws

open Sys2Proof.Machine Sys2Proof.Safety

/-! Sequencing of operations that may fault. -/

@[simp] theorem except_bind_ok {α β : Type} (a : α) (f : α → Except Fault β) : (Except.ok a >>= f) = f a := rfl

@[simp] theorem except_bind_error {α β : Type} (e : Fault) (f : α → Except Fault β) :
    ((Except.error e : Except Fault α) >>= f) = Except.error e := rfl

/-- A sequence that succeeds: its first part succeeded, and the rest did from there. -/
theorem bind_eq_ok {α β : Type} {x : Except Fault α} {f : α → Except Fault β} {b : β} :
    (x >>= f) = .ok b ↔ ∃ a, x = .ok a ∧ f a = .ok b := by
  cases x <;> simp

/-- A sequence that faults: its first part did, or the rest did from there. -/
theorem bind_eq_error {α β : Type} {x : Except Fault α} {f : α → Except Fault β} {e : Fault} :
    (x >>= f) = .error e ↔ x = .error e ∨ ∃ a, x = .ok a ∧ f a = .error e := by
  cases x <;> simp

/-! The word codec and the CRC. -/

@[simp] theorem putWord_length (v : Word) : (putWord v).length = 2 := rfl

@[simp] theorem putWordFlip_length (v : Word) : (putWordFlip v).length = 2 := rfl

@[simp] theorem trailer_length (t : List Byte) : (trailer t).length = 2 := rfl

@[simp] theorem sealed_length (t : List Byte) : (sealed t).length = t.length + 2 := by simp [sealed]

/-- The bytes `finish` appends are the ones a frame ends with (40_crc.md R134). -/
theorem trailer_eq (t : List Byte) :
    trailer t = [BitVec.ofNat 8 (crc16 0xFFFF t).toNat, BitVec.ofNat 8 ((crc16 0xFFFF t).toNat / 256)] := by
  simp [trailer, putWordFlip, loByte, hiByte, BitVec.extractLsb', Nat.shiftRight_eq_div_pow]

theorem sealed_eq (t : List Byte) : sealed t = t ++ trailer t := by rw [trailer_eq]; rfl

theorem hiByte_toNat (v : Word) : (hiByte v).toNat = v.toNat / 256 := by
  have := v.isLt
  simp [hiByte, BitVec.extractLsb', Nat.shiftRight_eq_div_pow]
  omega

theorem loByte_toNat (v : Word) : (loByte v).toNat = v.toNat % 256 := by
  simp [loByte, BitVec.extractLsb']

theorem mkWord_toNat (hi lo : Byte) : (mkWord hi lo).toNat = hi.toNat * 256 + lo.toNat := by
  have h1 := hi.isLt
  have h2 := lo.isLt
  have h3 : hi.toNat <<< 8 ||| lo.toNat = hi.toNat <<< 8 + lo.toNat := (Nat.shiftLeft_add_eq_or_of_lt h2 _).symm
  have h4 : hi.toNat <<< 8 = hi.toNat * 256 := by rw [Nat.shiftLeft_eq]
  simp only [mkWord, BitVec.toNat_or, BitVec.toNat_shiftLeft, BitVec.toNat_setWidth]
  rw [Nat.mod_eq_of_lt (a := hi.toNat) (by omega), Nat.mod_eq_of_lt (a := lo.toNat) (by omega), h4,
    Nat.mod_eq_of_lt (by omega), ← h4, h3]

@[simp] theorem mkWord_hi_lo (v : Word) : mkWord (hiByte v) (loByte v) = v := by
  apply BitVec.eq_of_toNat_eq
  rw [mkWord_toNat, hiByte_toNat, loByte_toNat]
  omega

@[simp] theorem hiByte_mkWord (hi lo : Byte) : hiByte (mkWord hi lo) = hi := by
  apply BitVec.eq_of_toNat_eq
  have := lo.isLt
  rw [hiByte_toNat, mkWord_toNat]
  omega

@[simp] theorem loByte_mkWord (hi lo : Byte) : loByte (mkWord hi lo) = lo := by
  apply BitVec.eq_of_toNat_eq
  have := lo.isLt
  rw [loByte_toNat, mkWord_toNat]
  omega

@[simp] theorem crc16_nil (seed : Word) : crc16 seed [] = seed := rfl

@[simp] theorem crc16_cons (seed : Word) (b : Byte) (s : List Byte) :
    crc16 seed (b :: s) = crc16 (crcStep seed b) s := rfl

/-! The supported functions (30_encoding.md R96). -/

theorem isSupported_iff (fn : Byte) : isSupported fn = true ↔ fn ∈ functionCodes := List.contains_iff_mem

theorem isSupported_eq_false_iff (fn : Byte) : isSupported fn = false ↔ fn ∉ functionCodes := by
  rw [← isSupported_iff, Bool.not_eq_true]

/-! The emits (42_frame_encode.md R150). -/

theorem emit8_eq {b : Byte} {t : List Byte} (h : t.length + 1 ≤ Config.txCap) : emit8 b t = .ok (t ++ [b]) := by
  simp [emit8, Nat.not_lt.mpr h]

theorem emit16_eq {v : Word} {t : List Byte} (h : t.length + 2 ≤ Config.txCap) :
    emit16 v t = .ok (t ++ putWord v) := by
  simp [emit16, Nat.not_lt.mpr h]

theorem finishFrame_eq {t : List Byte} (h : t.length + 2 ≤ Config.txCap) : finishFrame t = .ok (sealed t) := by
  simp [finishFrame, sealed_eq, Nat.not_lt.mpr h]

theorem beginFrame_eq (slave fn : Byte) : beginFrame slave fn = .ok [slave, fn] := rfl

/-- Emitting bytes one by one stores them all, or faults when they do not all fit. -/
theorem emitBytes_eq (bs t : List Byte) (h : t.length ≤ Config.txCap) :
    emitBytes bs t =
      if t.length + bs.length ≤ Config.txCap then .ok (t ++ bs) else .error .encodeOverflow := by
  induction bs generalizing t with
  | nil => simp [emitBytes, h]
  | cons b bs ih =>
    by_cases hfit : t.length + 1 ≤ Config.txCap
    · rw [emitBytes, emit8_eq hfit, except_bind_ok, ih _ (by simpa using hfit)]
      simp [Nat.add_assoc, Nat.add_comm 1]
    · rw [emitBytes]
      have : ¬ t.length + (b :: bs).length ≤ Config.txCap := by
        simp only [List.length_cons]
        omega
      simp only [this, if_false]
      simp [emit8, Nat.lt_of_not_le hfit]

@[simp] theorem wordBytes_nil : wordBytes [] = [] := rfl

@[simp] theorem wordBytes_cons (w : Word) (ws : List Word) : wordBytes (w :: ws) = putWord w ++ wordBytes ws := rfl

@[simp] theorem wordBytes_length (ws : List Word) : (wordBytes ws).length = 2 * ws.length := by
  induction ws with
  | nil => rfl
  | cons w ws ih =>
    simp only [wordBytes_cons, List.length_append, putWord_length, ih, List.length_cons]
    omega

/-- Emitting words one by one stores them all, or faults when they do not all fit. -/
theorem emitWords_eq (ws : List Word) (t : List Byte) (h : t.length ≤ Config.txCap) :
    emitWords ws t =
      if t.length + 2 * ws.length ≤ Config.txCap then .ok (t ++ wordBytes ws) else .error .encodeOverflow := by
  induction ws generalizing t with
  | nil => simp [emitWords, h]
  | cons w ws ih =>
    by_cases hfit : t.length + 2 ≤ Config.txCap
    · rw [emitWords, emit16_eq hfit, except_bind_ok, ih _ (by simpa using hfit)]
      have : t.length + 2 + 2 * ws.length = t.length + 2 * (ws.length + 1) := by omega
      simp [this]
    · rw [emitWords]
      have : ¬ t.length + 2 * (w :: ws).length ≤ Config.txCap := by
        simp only [List.length_cons]
        omega
      simp only [this, if_false]
      simp [emit16, Nat.lt_of_not_le hfit]

/-- Every frame with two word fields is eight bytes and cannot overflow. -/
theorem encodeTwoWords_eq (slave fn : Byte) (a b : Word) :
    encodeTwoWords slave fn a b = .ok (sealed ([slave, fn] ++ putWord a ++ putWord b)) := by
  rw [encodeTwoWords, beginFrame_eq, except_bind_ok, emit16_eq (by simp [Config.txCap]), except_bind_ok, emit16_eq (by simp [Config.txCap]),
    except_bind_ok, finishFrame_eq (by simp [Config.txCap])]

/-- What `finish` returns is a sealed body within the buffer. -/
theorem finishFrame_ok {t f : List Byte} (h : finishFrame t = .ok f) : f = sealed t ∧ f.length ≤ Config.txCap := by
  unfold finishFrame at h
  split at h
  · cases h
  · cases h
    constructor
    · exact (sealed_eq t).symm
    · simp only [List.length_append, trailer_length]
      omega

/-- An exception always encodes (R172). -/
theorem encodeRspEXC_eq (e : ExceptionRsp) : encodeRspEXC e = .ok (sealed [e.slave, e.fn, e.code]) := by
  rw [sealed_eq]
  rfl

/-- A frame an encoder returned: a body sealed with its trailer, within the buffer. -/
def IsFrame (f : List Byte) : Prop := (∃ body, f = sealed body) ∧ f.length ≤ Config.txCap

theorem isFrame_of_finish {t f : List Byte} (h : finishFrame t = .ok f) : IsFrame f :=
  ⟨⟨t, (finishFrame_ok h).1⟩, (finishFrame_ok h).2⟩

theorem isFrame_twoWords {slave fn : Byte} {a b : Word} {f : List Byte} (h : encodeTwoWords slave fn a b = .ok f) :
    IsFrame f := by
  rw [encodeTwoWords_eq] at h
  cases h
  exact ⟨⟨_, rfl⟩, by simp [Config.txCap]⟩

/-- The end of every frame built in steps. -/
theorem isFrame_of_bind {α : Type} {x : Except Fault α} {k : α → Except Fault (List Byte)} {f : List Byte}
    (hk : ∀ a f, k a = .ok f → IsFrame f) (h : (x >>= k) = .ok f) : IsFrame f := by
  obtain ⟨a, _, ha⟩ := bind_eq_ok.mp h
  exact hk a f ha

theorem encodeRequest_isFrame {r : Request} {f : List Byte} (h : encodeRequest r = .ok f) : IsFrame f := by
  have stepped : ∀ {α : Type} {x : Except Fault α} {k : α → Except Fault (List Byte)} {f : List Byte},
      (∀ a f, k a = .ok f → IsFrame f) → (x >>= k) = .ok f → IsFrame f := fun hk h => isFrame_of_bind hk h
  unfold encodeRequest at h
  split at h
  · exact isFrame_twoWords h
  split at h
  · exact isFrame_twoWords h
  split at h
  · exact isFrame_twoWords h
  split at h
  · exact stepped (fun _ _ => isFrame_twoWords) h
  split at h
  · exact stepped (fun _ _ => isFrame_twoWords) h
  split at h
  · unfold encodeReqWMC at h
    split at h
    · cases h
    · exact stepped (fun _ _ => stepped fun _ _ => stepped fun _ _ => stepped fun _ _ => stepped fun _ _ =>
        isFrame_of_finish) h
  split at h
  · unfold encodeReqWMR at h
    split at h
    · cases h
    · exact stepped (fun _ _ => stepped fun _ _ => stepped fun _ _ => stepped fun _ _ => stepped fun _ _ =>
        isFrame_of_finish) h
  split at h
  · exact stepped (fun _ _ => stepped fun _ _ => stepped fun _ _ => stepped fun _ _ => stepped fun _ _ =>
      stepped fun _ _ => isFrame_of_finish) h
  · cases h

theorem encodeResponse_isFrame {p : Response} {f : List Byte} (h : encodeResponse p = .ok f) : IsFrame f := by
  have stepped : ∀ {α : Type} {x : Except Fault α} {k : α → Except Fault (List Byte)} {f : List Byte},
      (∀ a f, k a = .ok f → IsFrame f) → (x >>= k) = .ok f → IsFrame f := fun hk h => isFrame_of_bind hk h
  have words : ∀ {fn : Byte} {p : Normal} {f : List Byte}, encodeWordList fn p = .ok f → IsFrame f := by
    intro fn p f h
    unfold encodeWordList at h
    split at h
    · cases h
    · exact stepped (fun _ _ => stepped fun _ _ => stepped fun _ _ => isFrame_of_finish) h
  have echo : ∀ {fn : Byte} {p : Normal} {f : List Byte}, encodeEchoQty fn p = .ok f → IsFrame f := by
    intro fn p f h
    unfold encodeEchoQty at h
    split at h
    · exact isFrame_twoWords h
    · cases h
  cases p with
  | exception e => exact stepped (fun _ _ => stepped fun _ _ => isFrame_of_finish) h
  | normal p =>
    simp only [encodeResponse] at h
    unfold encodeNormal at h
    split at h
    · unfold encodeRspRC at h
      split at h
      · cases h
      · exact stepped (fun _ _ => stepped fun _ _ => stepped fun _ _ => isFrame_of_finish) h
    split at h
    · exact words h
    split at h
    · exact words h
    split at h
    · exact stepped (fun _ _ => isFrame_twoWords) h
    split at h
    · exact stepped (fun _ _ => isFrame_twoWords) h
    split at h
    · exact echo h
    split at h
    · exact echo h
    split at h
    · unfold encodeRspRFR at h
      split at h
      · cases h
      · exact stepped (fun _ _ => stepped fun _ _ => stepped fun _ _ => stepped fun _ _ => stepped fun _ _ =>
          isFrame_of_finish) h
    · cases h

/-! Guarded reads (20_memory.md R64). -/

theorem byteAt_eq {B : List Byte} {a : Nat} (h : a < B.length) : byteAt B a = .ok B[a] := by
  simp [byteAt, List.getElem?_eq_getElem h]

theorem byteAt_outOfBounds {B : List Byte} {a : Nat} (h : B.length ≤ a) : byteAt B a = .error .outOfBounds := by
  simp [byteAt, List.getElem?_eq_none h]

theorem getWord_eq {B : List Byte} {a : Nat} (h : a + 1 < B.length) :
    getWord B a = .ok (mkWord B[a] B[a + 1]) := by
  simp [getWord, byteAt_eq h, byteAt_eq (Nat.lt_of_succ_lt h)]

theorem getWordFlip_eq {B : List Byte} {a : Nat} (h : a + 1 < B.length) :
    getWordFlip B a = .ok (mkWord B[a + 1] B[a]) := by
  simp [getWordFlip, byteAt_eq h, byteAt_eq (Nat.lt_of_succ_lt h)]

theorem memRead_eq {B : List Byte} {a n : Nat} (h : a + n ≤ B.length) :
    memRead B a n = .ok ((B.drop a).take n) := by
  simp [memRead, h]

/-- `n` words from offset `a`, all inside the buffer. -/
theorem getWords_eq (B : List Byte) (a n : Nat) (h : a + 2 * n ≤ B.length) :
    getWords B a n = .ok ((List.range n).map fun i => mkWord (B.getD (a + 2 * i) 0) (B.getD (a + 2 * i + 1) 0)) := by
  induction n generalizing a with
  | zero => rfl
  | succ n ih =>
    rw [getWords, getWord_eq (by omega), except_bind_ok, ih (a + 2) (by omega), except_bind_ok,
      List.range_succ_eq_map, List.map_cons, List.map_map]
    congr 2
    · simp [List.getD_eq_getElem?_getD, List.getElem?_eq_getElem (show a < B.length by omega),
        List.getElem?_eq_getElem (show a + 1 < B.length by omega)]
    · apply List.map_congr_left
      intro i _
      simp only [Function.comp_apply, Nat.succ_eq_add_one]
      rw [show a + 2 * (i + 1) = a + 2 + 2 * i by omega]

/-- `n` coils from coil `i` on, all inside the buffer. -/
theorem getCoils_eq (B : List Byte) (a i n : Nat) (h : a + (i + n + 7) / 8 ≤ B.length) :
    getCoils B a i n =
      .ok ((List.range n).map fun k => ((B.getD (a + (i + k) / 8) 0 >>> ((i + k) % 8)) &&& 1).setWidth 16) := by
  induction n generalizing i with
  | zero => rfl
  | succ n ih =>
    have hb : a + i / 8 < B.length := by omega
    rw [getCoils, getCoil, byteAt_eq hb, except_bind_ok, except_bind_ok,
      ih (i + 1) (by rw [show i + 1 + n + 7 = i + (n + 1) + 7 by omega]; exact h), except_bind_ok,
      List.range_succ_eq_map, List.map_cons, List.map_map]
    congr 2
    · simp [List.getD_eq_getElem?_getD, List.getElem?_eq_getElem hb]
    · apply List.map_congr_left
      intro k _
      simp only [Function.comp_apply, Nat.succ_eq_add_one]
      rw [show i + (k + 1) = i + 1 + k by omega]

/-! The same reads in the terms of the statements. -/

theorem byteAt_getD {B : List Byte} {a : Nat} (h : a < B.length) : byteAt B a = .ok (B.getD a 0) := by
  rw [byteAt_eq h, List.getD_eq_getElem?_getD, List.getElem?_eq_getElem h, Option.getD_some]

theorem getWord_wordAt {B : List Byte} {a : Nat} (h : a + 1 < B.length) : getWord B a = .ok (wordAt B a) := by
  rw [getWord, byteAt_getD (by omega), except_bind_ok, byteAt_getD h, except_bind_ok, wordAt]

theorem getWord_outOfBounds {B : List Byte} {a : Nat} (h : B.length ≤ a + 1) :
    getWord B a = .error .outOfBounds := by
  by_cases ha : a < B.length
  · rw [getWord, byteAt_getD ha, except_bind_ok, byteAt_outOfBounds h, except_bind_error]
  · rw [getWord, byteAt_outOfBounds (by omega), except_bind_error]

theorem getWords_wordsAt {B : List Byte} {a n : Nat} (h : a + 2 * n ≤ B.length) :
    getWords B a n = .ok (wordsAt B a n) := getWords_eq B a n h

/-- A masked and widened bit is 1 or 0. -/
theorem bit_setWidth (b : Byte) (j : Nat) :
    (((b >>> j) &&& 1).setWidth 16 : Word) = if b.getLsbD j then 1 else 0 := by
  apply BitVec.eq_of_getLsbD_eq
  intro i hi
  have h1 : ∀ w k, (1#w).getLsbD k = (decide (k = 0) && decide (0 < w)) := by
    intro w k
    rw [BitVec.getLsbD_one]
    cases w <;> simp [Bool.and_comm]
  rw [BitVec.getLsbD_setWidth, BitVec.getLsbD_and, BitVec.getLsbD_ushiftRight]
  cases hb : b.getLsbD j <;> rcases Nat.eq_zero_or_pos i with rfl | hpos <;> simp_all <;> omega

theorem getCoils_coilsAt {B : List Byte} {a n : Nat} (h : a + (n + 7) / 8 ≤ B.length) :
    getCoils B a 0 n = .ok (coilsAt B a n) := by
  rw [getCoils_eq B a 0 n (by simpa using h), coilsAt]
  congr 1
  apply List.map_congr_left
  intro i _
  rw [bit_setWidth, Nat.zero_add]

/-- A list of words of which the last is not all below the fill count (20_memory.md R64). -/
theorem getWords_outOfBounds {B : List Byte} {a n : Nat} (hn : 0 < n) (h : B.length < a + 2 * n) :
    getWords B a n = .error .outOfBounds := by
  induction n generalizing a with
  | zero => omega
  | succ n ih =>
    rw [getWords]
    by_cases hw : a + 1 < B.length
    · rw [getWord_eq hw, except_bind_ok, ih (by omega) (by omega), except_bind_error]
    · rw [getWord_outOfBounds (by omega), except_bind_error]

/-- A list of coils of which the last stands in no buffered byte (20_memory.md R64). -/
theorem getCoils_outOfBounds {B : List Byte} {a i n : Nat} (hn : 0 < n) (h : B.length ≤ a + (i + n - 1) / 8) :
    getCoils B a i n = .error .outOfBounds := by
  induction n generalizing i with
  | zero => omega
  | succ n ih =>
    rw [getCoils, getCoil]
    by_cases hb : a + i / 8 < B.length
    · have hpos : 0 < n := by
        rcases Nat.eq_zero_or_pos n with rfl | hp
        · simp at h
          omega
        · exact hp
      rw [byteAt_eq hb, except_bind_ok, except_bind_ok,
        ih hpos (by rw [show i + 1 + n - 1 = i + (n + 1) - 1 by omega]; exact h), except_bind_error]
    · rw [byteAt_outOfBounds (by omega), except_bind_error, except_bind_error]

/-! Words in a buffer read back. -/

theorem wordAt_putWord (pre post : List Byte) (w : Word) : wordAt (pre ++ putWord w ++ post) pre.length = w := by
  have h : wordAt (pre ++ putWord w ++ post) pre.length = mkWord (hiByte w) (loByte w) := by
    unfold wordAt
    congr 1 <;> simp [putWord, List.getD_eq_getElem?_getD]
  rw [h, mkWord_hi_lo]

theorem wordBytes_split (ws : List Word) (i : Nat) (h : i < ws.length) :
    wordBytes ws = wordBytes (ws.take i) ++ putWord ws[i] ++ wordBytes (ws.drop (i + 1)) := by
  have hs : ws = ws.take i ++ ws[i] :: ws.drop (i + 1) := by rw [← List.drop_eq_getElem_cons h, List.take_append_drop]
  conv_lhs => rw [hs]
  simp only [wordBytes, List.flatMap_append, List.flatMap_cons, List.append_assoc]

/-- A list of words reads back from its bytes. -/
theorem wordsAt_wordBytes (pre post : List Byte) (ws : List Word) :
    wordsAt (pre ++ wordBytes ws ++ post) pre.length ws.length = ws := by
  apply List.ext_getElem
  · simp [wordsAt]
  · intro i h1 h2
    simp only [wordsAt, List.getElem_map, List.getElem_range]
    rw [wordBytes_split ws i h2]
    have h := wordAt_putWord (pre ++ wordBytes (ws.take i)) (wordBytes (ws.drop (i + 1)) ++ post) ws[i]
    simp only [List.length_append, wordBytes_length, List.length_take, Nat.min_eq_left (Nat.le_of_lt h2)] at h
    simpa using h

end Sys2Proof.Laws
end

