-- ==== Sys2Proof/Laws/Ops.lean ====
section
/-! SUPPORT. What each shared operation can do, said once: the buffer after a receive, the scans, the decoders' and the
encoders' faults, the failure path. Provers cite these instead of unfolding the operations. -/

namespace Sys2Proof.Laws

open Sys2Proof.Machine Sys2Proof.Safety

/-! The receive buffer (46_transport_and_host.md R291, R292). -/

@[simp] theorem rxBytes_purge (s : State) : rxBytes (purge s) = [] := rfl

theorem store_fit {chunk : List Byte} {s : State} (h : s.rxn + chunk.length ≤ Config.rxCap) :
    store chunk s = { s with rxb := Memory.writeBytes s.rxb s.rxn chunk, rxn := s.rxn + chunk.length } := by
  simp [store, Nat.not_lt.mpr h]

theorem store_overflow {chunk : List Byte} {s : State} (h : Config.rxCap < s.rxn + chunk.length) :
    store chunk s = purge s := by
  simp [store, h]

/-- A chunk that fits is appended to the buffered bytes. -/
theorem rxBytes_store_fit {chunk : List Byte} {s : State} (hwf : Memory.wf s.rxb = true)
    (h : s.rxn + chunk.length ≤ Config.rxCap) : rxBytes (store chunk s) = rxBytes s ++ chunk := by
  rw [store_fit h]
  exact bytes_writeBytes s.rxn chunk hwf

theorem receive_nil (now : Time) (s : State) : receive now [] s = s := rfl

theorem receive_cons (now : Time) (b : Byte) (bs : List Byte) (s : State) :
    receive now (b :: bs) s = append now (b :: bs) s := rfl

/-- A frame put into `TXB` is what `TXB` then holds. -/
@[simp] theorem txBytes_putFrame (f : List Byte) (s : State) : txBytes (putFrame f s) = f := bytes_ofBytes f

/-! The CRC test of a span (43_frame_decode_sync.md R183). -/

/-- Inside the buffer the test always answers. -/
theorem crcOk_eq {B : List Byte} {off len : Nat} (h4 : 2 ≤ len) (h : off + len ≤ B.length) :
    crcOk B off len = .ok (crc16 Config.crcSeed ((B.drop off).take (len - 2)) ==
      mkWord (B.getD (off + len - 1) 0) (B.getD (off + len - 2) 0)) := by
  have h1 : off + len - 2 + 1 < B.length := by omega
  rw [crcOk, memRead_eq (by omega), except_bind_ok, getWordFlip_eq h1, except_bind_ok]
  have e : off + len - 1 = off + len - 2 + 1 := by omega
  simp [e, List.getD_eq_getElem?_getD, List.getElem?_eq_getElem h1,
    List.getElem?_eq_getElem (show off + len - 2 < B.length by omega)]

/-- The CRC test accepts a frame with its own trailer (40_crc.md R134). -/
theorem crcOk_sealed (body : List Byte) : crcOk (sealed body) 0 (body.length + 2) = .ok true := by
  rw [crcOk_eq (by omega) (by simp)]
  have h1 : (sealed body).getD (0 + (body.length + 2) - 1) 0 = hiByte (crc16 Config.crcSeed body) := by
    simp [sealed_eq, trailer, putWordFlip, List.getD_eq_getElem?_getD]
  have h2 : (sealed body).getD (0 + (body.length + 2) - 2) 0 = loByte (crc16 Config.crcSeed body) := by
    simp [sealed_eq, trailer, putWordFlip, List.getD_eq_getElem?_getD]
  rw [h1, h2, mkWord_hi_lo]
  simp [sealed_eq]

/-- The machine's CRC test is the one of R183 and R134 written out. -/
theorem crcOk_iff {B : List Byte} {off len : Nat} (h2 : 2 ≤ len) (h : off + len ≤ B.length) :
    crcOk B off len = .ok true ↔ spanCrc B off len := by
  have e1 : B[off + len - 1]? = some (B.getD (off + len - 1) 0) := by
    simp [List.getD_eq_getElem?_getD, List.getElem?_eq_getElem (show off + len - 1 < B.length by omega)]
  have e2 : B[off + len - 2]? = some (B.getD (off + len - 2) 0) := by
    simp [List.getD_eq_getElem?_getD, List.getElem?_eq_getElem (show off + len - 2 < B.length by omega)]
  rw [crcOk_eq h2 h, Except.ok.injEq, beq_iff_eq, ← BitVec.toNat_inj, mkWord_toNat, Nat.mul_comm]
  constructor
  · exact fun hc => ⟨_, _, e2, e1, hc⟩
  · rintro ⟨lo, hi, hlo, hhi, hc⟩
    rw [Option.some.inj (e2.symm.trans hlo), Option.some.inj (e1.symm.trans hhi)]
    exact hc

/-- The span test answers with the span exactly when it fits and its CRC matches. -/
theorem testSpan_spec {B : List Byte} {off len : Nat} (exc : Bool) (h2 : 2 ≤ len) :
    ∃ r, testSpan B off len exc = .ok r ∧
      ∀ h, r = some h ↔ h = ⟨off, len, exc⟩ ∧ off + len ≤ B.length ∧ crcOk B off len = .ok true := by
  unfold testSpan
  by_cases hfit : off + len > B.length
  · refine ⟨none, by simp [hfit], fun h => ?_⟩
    simp only [reduceCtorEq, false_iff]
    omega
  · have hle : off + len ≤ B.length := by omega
    rw [if_neg hfit, crcOk_eq h2 hle, except_bind_ok]
    generalize (crc16 Config.crcSeed ((B.drop off).take (len - 2)) ==
      mkWord (B.getD (off + len - 1) 0) (B.getD (off + len - 2) 0)) = good
    refine ⟨_, rfl, fun h => ?_⟩
    cases good <;> simp [hle, eq_comm]

/-! The scans. -/

/-- A scan over offsets that can all be tested returns what the first accepted offset gives. -/
theorem scan_spec {test : Nat → Except Fault (Option Hit)} {offs : List Nat}
    (h : ∀ o ∈ offs, ∃ r, test o = .ok r) :
    (∃ x pre o post, scan test offs = .ok (some x) ∧ offs = pre ++ o :: post ∧ test o = .ok (some x) ∧
      ∀ p ∈ pre, test p = .ok none) ∨
    (scan test offs = .ok none ∧ ∀ o ∈ offs, test o = .ok none) := by
  induction offs with
  | nil => exact .inr ⟨rfl, fun o ho => absurd ho List.not_mem_nil⟩
  | cons o offs ih =>
    obtain ⟨r, hr⟩ := h o (List.mem_cons_self ..)
    cases r with
    | some x =>
      exact .inl ⟨x, [], o, offs, by simp [scan, hr], rfl, hr, fun p hp => absurd hp List.not_mem_nil⟩
    | none =>
      have hs : scan test (o :: offs) = scan test offs := by simp [scan, hr]
      rcases ih fun p hp => h p (List.mem_cons_of_mem _ hp) with ⟨x, pre, p, post, h1, h2, h3, h4⟩ | ⟨h1, h2⟩
      · refine .inl ⟨x, o :: pre, p, post, hs ▸ h1, by simp [h2], h3, fun q hq => ?_⟩
        rcases List.mem_cons.mp hq with rfl | hq
        · exact hr
        · exact h4 q hq
      · refine .inr ⟨hs ▸ h1, fun q hq => ?_⟩
        rcases List.mem_cons.mp hq with rfl | hq
        · exact hr
        · exact h2 q hq

theorem mem_scanOffsets {B : List Byte} {minLen o : Nat} :
    o ∈ scanOffsets B minLen ↔ o + minLen ≤ B.length := by
  unfold scanOffsets
  split
  · simp
    omega
  · simp
    omega

/-- The offsets before a split point of a scan are the smaller ones. -/
theorem scanOffsets_split {B : List Byte} {minLen o : Nat} {pre post : List Nat}
    (h : scanOffsets B minLen = pre ++ o :: post) : ∀ p, p < o → p ∈ pre := by
  unfold scanOffsets at h
  split at h
  · simp at h
  · intro p hp
    have hlen : pre.length < (List.range (B.length - minLen + 1)).length := by rw [h]; simp
    have ho : (List.range (B.length - minLen + 1))[pre.length]'hlen = o := by simp [h]
    rw [List.getElem_range] at ho
    have hp' : p < pre.length := by omega
    have : (List.range (B.length - minLen + 1))[p]'(by omega) = p := List.getElem_range _
    rw [List.getElem_of_eq h, List.getElem_append_left hp'] at this
    exact this ▸ List.getElem_mem hp'

/-- A scan returns the least offset that meets a property its test decides, or none. -/
theorem scan_least {B : List Byte} {minLen : Nat} {test : Nat → Except Fault (Option Hit)} {valid : Hit → Prop}
    (hin : ∀ x, valid x → x.off + minLen ≤ B.length)
    (htest : ∀ o, o + minLen ≤ B.length → ∃ r, test o = .ok r ∧ ∀ x, r = some x ↔ x.off = o ∧ valid x) :
    (∃ x, scan test (scanOffsets B minLen) = .ok (some x) ∧ valid x ∧ ∀ y, valid y → x.off ≤ y.off) ∨
    (scan test (scanOffsets B minLen) = .ok none ∧ ∀ y, ¬ valid y) := by
  have htot : ∀ o ∈ scanOffsets B minLen, ∃ r, test o = .ok r := fun o ho =>
    let ⟨r, hr, _⟩ := htest o (mem_scanOffsets.mp ho)
    ⟨r, hr⟩
  rcases scan_spec htot with ⟨x, pre, o, post, h1, h2, h3, h4⟩ | ⟨h1, h2⟩
  · have ho : o + minLen ≤ B.length := mem_scanOffsets.mp (h2 ▸ by simp)
    obtain ⟨r, hr, hiff⟩ := htest o ho
    rw [hr] at h3
    obtain ⟨hx, hv⟩ := (hiff x).mp (Except.ok.inj h3)
    refine .inl ⟨x, h1, hv, fun y hy => ?_⟩
    by_contra hlt
    obtain ⟨r', hr', hiff'⟩ := htest y.off (hin y hy)
    have hnone := h4 y.off (scanOffsets_split h2 y.off (by omega))
    rw [hr'] at hnone
    have := (hiff' y).mpr ⟨rfl, hy⟩
    rw [Except.ok.inj hnone] at this
    cases this
  · refine .inr ⟨h1, fun y hy => ?_⟩
    obtain ⟨r', hr', hiff'⟩ := htest y.off (hin y hy)
    have hnone := h2 y.off (mem_scanOffsets.mpr (hin y hy))
    rw [hr'] at hnone
    have := (hiff' y).mpr ⟨rfl, hy⟩
    rw [Except.ok.inj hnone] at this
    cases this

/-- `rsp_len` answers wherever a candidate's head fits, and never with less than five bytes (R185). -/
theorem rspLen_spec {B : List Byte} (f g : Byte) {off : Nat} (h : off + 5 ≤ B.length) :
    ∃ r, rspLen B f g off = .ok r ∧ ∀ n, r = some n → 5 ≤ n := by
  unfold rspLen
  split
  · exact ⟨_, rfl, by simp⟩
  · split
    · rw [byteAt_eq (by omega), except_bind_ok]
      exact ⟨_, rfl, by simp⟩
    · split
      · exact ⟨_, rfl, by simp⟩
      · exact ⟨_, rfl, by simp⟩

/-- `req_len` answers wherever a candidate's head fits, and never with less than four bytes (R191). -/
theorem reqLen_spec {B : List Byte} (g : Byte) {off : Nat} (h : off + 4 ≤ B.length) :
    ∃ r, reqLen B g off = .ok r ∧ ∀ n, r = some n → 4 ≤ n := by
  unfold reqLen
  split
  · exact ⟨_, rfl, by simp⟩
  · split
    · split
      · exact ⟨_, rfl, by simp⟩
      · rw [byteAt_eq (by omega), except_bind_ok]
        exact ⟨_, rfl, by simp; omega⟩
    · split
      · exact ⟨_, rfl, by simp⟩
      · exact ⟨_, rfl, by simp; omega⟩

/-- The machine's length table is the one of R185 written out. -/
theorem rspLen_iff {B : List Byte} {f g : Byte} {off len : Nat} (h : off + 5 ≤ B.length) :
    rspLen B f g off = .ok (some len) ↔ rspSpan B f g off len := by
  have e2 : B[off + 2]? = some B[off + 2] := List.getElem?_eq_getElem (by omega)
  unfold rspLen rspSpan
  by_cases hg : g = f
  · subst hg
    rw [if_neg (fun hn => hn rfl), byteAt_eq (by omega), except_bind_ok]
    split
    · rename_i hv
      rcases hv with rfl | rfl | rfl | rfl <;> simp [e2, eq_comm]
    · rename_i hv
      split
      · rename_i hw
        rcases hw with rfl | rfl | rfl | rfl <;> simp [eq_comm]
      · rename_i hw
        simp at hv hw
        simp [hv, hw]
  · simp [hg, eq_comm]

/-- The machine's length table is the one of R191 written out. -/
theorem reqLen_iff {B : List Byte} {g : Byte} {off len : Nat} :
    reqLen B g off = .ok (some len) ↔ reqSpan B g off len := by
  unfold reqLen reqSpan
  split
  · rename_i hg
    rcases hg with rfl | rfl | rfl | rfl | rfl <;> simp [eq_comm]
  split
  · rename_i hg
    split
    · rename_i hb
      rcases hg with rfl | rfl <;> simp [List.getElem?_eq_none (show B.length ≤ off + 6 from hb)]
    · rename_i hb
      have hlt : off + 6 < B.length := by omega
      rw [byteAt_eq hlt, except_bind_ok]
      rcases hg with rfl | rfl <;> simp [List.getElem?_eq_getElem hlt, eq_comm]
  split
  · rename_i hg
    rw [hg]
    simp [eq_comm]
  · rename_i h1 h2 h3
    simp at h1 h2 h3
    simp [h1, h2, h3, eq_comm]

/-- A valid candidate of the master scan, in the machine's own terms. -/
theorem validM_iff {B : List Byte} {slave f : Byte} {h : Hit} :
    validM B slave f h ↔
      h.off + Config.minLenM ≤ B.length ∧ B[h.off]? = some slave ∧
      (∃ g, B[h.off + 1]? = some g ∧ (g = f ∨ g = f ||| 0x80) ∧ h.exc = (g != f) ∧
        rspLen B f g h.off = .ok (some h.len)) ∧
      h.off + h.len ≤ B.length ∧ crcOk B h.off h.len = .ok true := by
  unfold validM
  refine and_congr_right fun h5 => and_congr_right fun _ => ?_
  simp only [rspLen_iff h5]
  refine and_congr_right fun ⟨g, _, _, _, hspan⟩ => and_congr_right fun hfit => ?_
  refine (crcOk_iff ?_ hfit).symm
  rcases hspan with ⟨_, e⟩ | ⟨_, _, _, _, e⟩ | ⟨_, _, e⟩ <;> omega

/-- A valid candidate of the slave scan, in the machine's own terms. -/
theorem validS_iff {B : List Byte} {h : Hit} :
    validS B h ↔
      h.off + Config.minLenS ≤ B.length ∧ (∃ a, B[h.off]? = some a ∧ a.toNat < 247) ∧
      (∃ g, B[h.off + 1]? = some g ∧ reqLen B g h.off = .ok (some h.len)) ∧
      h.off + h.len ≤ B.length ∧ h.exc = false ∧ crcOk B h.off h.len = .ok true := by
  unfold validS
  refine and_congr_right fun h4 => and_congr_right fun _ => ?_
  simp only [reqLen_iff]
  refine and_congr_right fun ⟨g, _, hspan⟩ => and_congr_right fun hfit => and_congr_right fun _ => ?_
  refine (crcOk_iff ?_ hfit).symm
  rcases hspan with ⟨_, e⟩ | ⟨_, _, _, e⟩ | ⟨_, e⟩ | ⟨_, e⟩ <;> omega

/-- One turn of `find_M` accepts exactly the valid candidates at its offset. -/
theorem testM_spec {B : List Byte} (slave f : Byte) {off : Nat} (h : off + Config.minLenM ≤ B.length) :
    ∃ r, testM B slave f off = .ok r ∧ ∀ x, r = some x ↔ x.off = off ∧ validM B slave f x := by
  have h5 : off + 5 ≤ B.length := h
  have e0 : B[off]? = some B[off] := List.getElem?_eq_getElem (by omega)
  have e1 : B[off + 1]? = some B[off + 1] := List.getElem?_eq_getElem (by omega)
  unfold testM
  rw [byteAt_eq (show off < B.length by omega), except_bind_ok]
  by_cases ha : B[off] ≠ slave
  · refine ⟨none, if_pos ha, fun x => ?_⟩
    simp only [reduceCtorEq, false_iff, validM_iff]
    rintro ⟨rfl, -, h0, -⟩
    exact ha (Option.some.inj (e0.symm.trans h0))
  rw [if_neg ha, byteAt_eq (show off + 1 < B.length by omega), except_bind_ok]
  by_cases hg : B[off + 1] ≠ f ∧ B[off + 1] ≠ f ||| 0x80
  · refine ⟨none, if_pos hg, fun x => ?_⟩
    simp only [reduceCtorEq, false_iff, validM_iff]
    rintro ⟨rfl, -, -, ⟨g, h1, hgf, -⟩, -⟩
    rw [Option.some.inj (e1.symm.trans h1)] at hg
    rcases hgf with h | h
    · exact hg.1 h
    · exact hg.2 h
  rw [if_neg hg]
  obtain ⟨l, hl, hmin⟩ := rspLen_spec f B[off + 1] h5
  rw [hl, except_bind_ok]
  cases l with
  | none =>
    refine ⟨none, rfl, fun x => ?_⟩
    simp only [reduceCtorEq, false_iff, validM_iff]
    rintro ⟨rfl, -, -, ⟨g, h1, -, -, hlen⟩, -⟩
    rw [← Option.some.inj (e1.symm.trans h1), hl] at hlen
    cases hlen
  | some n =>
    have h5n := hmin n rfl
    obtain ⟨r, hr, hiff⟩ := testSpan_spec (B := B) (off := off) (len := n) (B[off + 1] != f) (by omega)
    refine ⟨r, hr, fun x => ?_⟩
    rw [hiff, validM_iff]
    constructor
    · rintro ⟨rfl, hfit, hcrc⟩
      refine ⟨rfl, h, ?_, ⟨B[off + 1], e1, ?_, rfl, hl⟩, hfit, hcrc⟩
      · rw [e0]
        exact congrArg some (not_not.mp ha)
      · by_cases h1 : B[off + 1] = f
        · exact .inl h1
        · exact .inr (not_not.mp fun h2 => hg ⟨h1, h2⟩)
    · rintro ⟨hoff, -, -, ⟨g, h1, -, hexc, hlen⟩, hfit, hcrc⟩
      obtain ⟨xo, xl, xe⟩ := x
      simp only at hoff h1 hexc hlen hfit hcrc
      subst hoff
      rw [← Option.some.inj (e1.symm.trans h1)] at hlen hexc
      rw [hl] at hlen
      have hn : n = xl := Option.some.inj (Except.ok.inj hlen)
      subst hn
      exact ⟨by rw [hexc], hfit, hcrc⟩

/-- One turn of `find_S` accepts exactly the valid candidates at its offset. -/
theorem testS_spec {B : List Byte} {off : Nat} (h : off + Config.minLenS ≤ B.length) :
    ∃ r, testS B off = .ok r ∧ ∀ x, r = some x ↔ x.off = off ∧ validS B x := by
  have h4 : off + 4 ≤ B.length := h
  have e0 : B[off]? = some B[off] := List.getElem?_eq_getElem (by omega)
  have e1 : B[off + 1]? = some B[off + 1] := List.getElem?_eq_getElem (by omega)
  have hbound : (Config.slaveScanBound).toNat = 247 := rfl
  unfold testS
  rw [byteAt_eq (show off < B.length by omega), except_bind_ok]
  by_cases ha : B[off] ≥ Config.slaveScanBound
  · refine ⟨none, if_pos ha, fun x => ?_⟩
    simp only [reduceCtorEq, false_iff, validS_iff]
    rintro ⟨rfl, -, ⟨a, h0, hlt⟩, -⟩
    rw [← Option.some.inj (e0.symm.trans h0)] at hlt
    rw [ge_iff_le, BitVec.le_def, hbound] at ha
    omega
  rw [if_neg ha, byteAt_eq (show off + 1 < B.length by omega), except_bind_ok]
  obtain ⟨l, hl, hmin⟩ := reqLen_spec B[off + 1] h4
  rw [hl, except_bind_ok]
  cases l with
  | none =>
    refine ⟨none, rfl, fun x => ?_⟩
    simp only [reduceCtorEq, false_iff, validS_iff]
    rintro ⟨rfl, -, -, ⟨g, h1, hlen⟩, -⟩
    rw [← Option.some.inj (e1.symm.trans h1), hl] at hlen
    cases hlen
  | some n =>
    have h4n := hmin n rfl
    obtain ⟨r, hr, hiff⟩ := testSpan_spec (B := B) (off := off) (len := n) false (by omega)
    refine ⟨r, hr, fun x => ?_⟩
    rw [hiff, validS_iff]
    constructor
    · rintro ⟨rfl, hfit, hcrc⟩
      refine ⟨rfl, h, ⟨B[off], e0, ?_⟩, ⟨B[off + 1], e1, hl⟩, hfit, rfl, hcrc⟩
      rw [ge_iff_le, BitVec.le_def, hbound] at ha
      omega
    · rintro ⟨hoff, -, -, ⟨g, h1, hlen⟩, hfit, hexc, hcrc⟩
      obtain ⟨xo, xl, xe⟩ := x
      simp only at hoff h1 hexc hlen hfit hcrc
      subst hoff
      rw [← Option.some.inj (e1.symm.trans h1), hl] at hlen
      have hn : n = xl := Option.some.inj (Except.ok.inj hlen)
      subst hn
      exact ⟨by rw [hexc], hfit, hcrc⟩

/-! The decoders never leave the located span. -/

theorem rspLen_reads {B : List Byte} {f : Byte} {off len : Nat} (h5 : off + 5 ≤ B.length)
    (h : rspLen B f f off = .ok (some len)) :
    ((f = Config.fcRC ∨ f = Config.fcRHR ∨ f = Config.fcRIR ∨ f = Config.fcRFR) →
      len = 5 + (B.getD (off + 2) 0).toNat) ∧
    ((f = Config.fcWSC ∨ f = Config.fcWSR ∨ f = Config.fcWMC ∨ f = Config.fcWMR) → len = 8) := by
  have hne : ∀ {a b : Byte}, (f = Config.fcWSC ∨ f = Config.fcWSR ∨ f = Config.fcWMC ∨ f = Config.fcWMR) →
      ¬ (f = Config.fcRC ∨ f = Config.fcRHR ∨ f = Config.fcRIR ∨ f = Config.fcRFR) := by
    intro _ _ h1 h2
    rcases h1 with rfl | rfl | rfl | rfl <;> revert h2 <;> decide
  unfold rspLen at h
  rw [if_neg (fun hn => hn rfl)] at h
  split at h
  · rename_i hv
    rw [byteAt_getD (show off + 2 < B.length by omega), except_bind_ok] at h
    exact ⟨fun _ => (Option.some.inj (Except.ok.inj h)).symm, fun hw => absurd hv (hne (a := 0) (b := 0) hw)⟩
  · rename_i hv
    split at h
    · exact ⟨fun hr => absurd hr hv, fun _ => (Option.some.inj (Except.ok.inj h)).symm⟩
    · cases h

/-- A decoder over a span that `find_M` accepted, for a Request of the right shape, faults on nothing (R192). -/
theorem decodeResponse_total {B : List Byte} {r : Request} {h : Hit} (hv : validM B r.slave r.fn h)
    (hs : requestShape r = true) : ∃ p, decodeResponse B h r = .ok p := by
  obtain ⟨h5, h0, ⟨g, h1, hg, hexc, hlen⟩, hfit, -⟩ := validM_iff.mp hv
  have h5 : h.off + 5 ≤ B.length := h5
  unfold decodeResponse
  split
  · rw [decRspEXC, byteAt_getD (by omega), except_bind_ok, byteAt_getD (by omega), except_bind_ok,
      byteAt_getD (by omega), except_bind_ok]
    exact ⟨_, rfl⟩
  rename_i hne
  have hgf : g = r.fn := by
    rw [hexc] at hne
    simpa using hne
  subst hgf
  obtain ⟨hbc, h8⟩ := rspLen_reads h5 hlen
  have coils : ∀ n, n ≤ 8 * (B.getD (h.off + 2) 0).toNat → h.len = 5 + (B.getD (h.off + 2) 0).toNat →
      h.off + 3 + (n + 7) / 8 ≤ B.length := by
    intro n hn hl
    omega
  have echoQty : h.len = 8 → ∀ fn, ∃ p, decEchoQty fn B h.off r = .ok p := by
    intro hl fn
    rw [decEchoQty, getWord_wordAt (by omega), except_bind_ok, getWord_wordAt (by omega), except_bind_ok]
    split
    · exact ⟨_, rfl⟩
    · rw [byteAt_getD (by omega), except_bind_ok]
      exact ⟨_, rfl⟩
  have echoValue : h.len = 8 → r.values.length = 1 → ∀ fn wire, ∃ p, decEchoValue fn wire B h.off r = .ok p := by
    intro hl hone fn wire
    obtain ⟨v, hvv⟩ := List.length_eq_one_iff.mp hone
    rw [decEchoValue, getWord_wordAt (by omega), except_bind_ok, getWord_wordAt (by omega), except_bind_ok]
    split
    · exact ⟨_, rfl⟩
    · rw [hvv, firstValue, except_bind_ok]
      split
      · exact ⟨_, rfl⟩
      · rw [byteAt_getD (by omega), except_bind_ok]
        exact ⟨_, rfl⟩
  have registers : h.len = 5 + (B.getD (h.off + 2) 0).toNat → ∀ fn, ∃ p, decRegisters fn B h.off r = .ok p := by
    intro hl fn
    rw [decRegisters, byteAt_getD (by omega), except_bind_ok]
    split
    · exact ⟨_, rfl⟩
    · rw [getWords_wordsAt (by omega), except_bind_ok, byteAt_getD (by omega), except_bind_ok]
      exact ⟨_, rfl⟩
  split
  · rename_i hf
    have hl := hbc (.inl hf)
    rw [decRspRC, byteAt_getD (by omega), except_bind_ok]
    split
    · exact ⟨_, rfl⟩
    · rw [getCoils_coilsAt (coils _ (by omega) hl), except_bind_ok, byteAt_getD (by omega), except_bind_ok]
      exact ⟨_, rfl⟩
  split
  · rename_i hf
    exact registers (hbc (.inr (.inl hf))) _
  split
  · rename_i hf
    exact registers (hbc (.inr (.inr (.inl hf)))) _
  split
  · rename_i hf
    exact echoValue (h8 (.inl hf)) (by simp [requestShape, hf] at hs; exact hs.2.1) _ _
  split
  · rename_i hf
    exact echoValue (h8 (.inr (.inl hf))) (by simp [requestShape, hf] at hs; exact hs.2.1) _ _
  split
  · rename_i hf
    exact echoQty (h8 (.inr (.inr (.inl hf)))) _
  split
  · rename_i hf
    exact echoQty (h8 (.inr (.inr (.inr hf)))) _
  split
  · rename_i hf
    have hl := hbc (.inr (.inr (.inr hf)))
    rw [decRspRFR, byteAt_getD (by omega), except_bind_ok]
    split
    · exact ⟨_, rfl⟩
    · dsimp only
      rw [getWords_wordsAt (by omega), except_bind_ok, byteAt_getD (by omega), except_bind_ok]
      exact ⟨_, rfl⟩
  · exact ⟨_, rfl⟩

/-- A decoder over a span that `find_S` accepted faults on nothing (R202). -/
theorem decodeRequest_total {B : List Byte} {h : Hit} (hv : validS B h) : ∃ q, decodeRequest B h.off = .ok q := by
  obtain ⟨h4, -, ⟨g, h1, hlen⟩, hfit, -, -⟩ := validS_iff.mp hv
  have h4 : h.off + 4 ≤ B.length := h4
  have hg : B.getD (h.off + 1) 0 = g := by rw [List.getD_eq_getElem?_getD, h1, Option.getD_some]
  unfold decodeRequest
  rw [byteAt_getD (by omega), except_bind_ok, hg]
  have fixed : (g = Config.fcRC ∨ g = Config.fcRHR ∨ g = Config.fcRIR ∨ g = Config.fcWSC ∨ g = Config.fcWSR) →
      h.off + 8 ≤ B.length := by
    intro hf
    rw [reqLen, if_pos hf] at hlen
    have := Option.some.inj (Except.ok.inj hlen)
    omega
  have list : (g = Config.fcWMC ∨ g = Config.fcWMR) → h.off + 9 + (B.getD (h.off + 6) 0).toNat ≤ B.length := by
    intro hf
    have hn : ¬ (g = Config.fcRC ∨ g = Config.fcRHR ∨ g = Config.fcRIR ∨ g = Config.fcWSC ∨ g = Config.fcWSR) := by
      rcases hf with rfl | rfl <;> decide
    rw [reqLen, if_neg hn, if_pos hf] at hlen
    split at hlen
    · cases hlen
    · rw [byteAt_getD (by omega), except_bind_ok] at hlen
      have := Option.some.inj (Except.ok.inj hlen)
      omega
  have read : (g = Config.fcRC ∨ g = Config.fcRHR ∨ g = Config.fcRIR ∨ g = Config.fcWSC ∨ g = Config.fcWSR) →
      ∀ fn, ∃ q, decReadReq fn B h.off = .ok q := by
    intro hf fn
    have := fixed hf
    rw [decReadReq, byteAt_getD (by omega), except_bind_ok, getWord_wordAt (by omega), except_bind_ok,
      getWord_wordAt (by omega), except_bind_ok]
    exact ⟨_, rfl⟩
  have write : (g = Config.fcRC ∨ g = Config.fcRHR ∨ g = Config.fcRIR ∨ g = Config.fcWSC ∨ g = Config.fcWSR) →
      ∀ fn, ∃ q, decWriteReq fn B h.off = .ok q := by
    intro hf fn
    have := fixed hf
    rw [decWriteReq, byteAt_getD (by omega), except_bind_ok, getWord_wordAt (by omega), except_bind_ok,
      getWord_wordAt (by omega), except_bind_ok]
    exact ⟨_, rfl⟩
  split
  · rename_i hf
    exact read (.inl hf) _
  split
  · rename_i hf
    exact read (.inr (.inl hf)) _
  split
  · rename_i hf
    exact read (.inr (.inr (.inl hf))) _
  split
  · rename_i hf
    exact write (.inr (.inr (.inr (.inl hf)))) _
  split
  · rename_i hf
    exact write (.inr (.inr (.inr (.inr hf)))) _
  split
  · rename_i hf
    have := list (.inl hf)
    rw [decReqWMC, getWord_wordAt (by omega), except_bind_ok, getWord_wordAt (by omega), except_bind_ok,
      byteAt_getD (by omega), except_bind_ok]
    split
    · exact ⟨_, rfl⟩
    · rw [getCoils_coilsAt (by omega), except_bind_ok, byteAt_getD (by omega), except_bind_ok]
      exact ⟨_, rfl⟩
  split
  · rename_i hf
    have := list (.inr hf)
    rw [decReqWMR, getWord_wordAt (by omega), except_bind_ok, getWord_wordAt (by omega), except_bind_ok,
      byteAt_getD (by omega), except_bind_ok]
    split
    · exact ⟨_, rfl⟩
    · rw [getWords_wordsAt (by omega), except_bind_ok, byteAt_getD (by omega), except_bind_ok]
      exact ⟨_, rfl⟩
  split
  · rename_i hf
    have hl : h.len = 12 := by
      rw [hf] at hlen
      exact (Option.some.inj (Except.ok.inj hlen)).symm
    rw [decReqRFR, byteAt_getD (by omega), except_bind_ok, getWord_wordAt (by omega), except_bind_ok,
      getWord_wordAt (by omega), except_bind_ok, getWord_wordAt (by omega), except_bind_ok]
    exact ⟨_, rfl⟩
  · rw [decReqUNSUP, byteAt_getD (by omega), except_bind_ok, byteAt_getD (by omega), except_bind_ok]
    exact ⟨_, rfl⟩

/-! What an encode can fault with. -/

/-- A fault of one of these kinds. -/
def FaultIn (fs : List Fault) (x : Except Fault (List Byte)) : Prop := ∀ e, x = .error e → e ∈ fs

theorem faultIn_bind {α : Type} {fs : List Fault} {x : Except Fault α} {k : α → Except Fault (List Byte)}
    (hx : ∀ e, x = .error e → e ∈ fs) (hk : ∀ a, FaultIn fs (k a)) : FaultIn fs (x >>= k) := by
  intro e he
  rcases bind_eq_error.mp he with he | ⟨a, -, he⟩
  · exact hx e he
  · exact hk a e he

theorem faultIn_ok {fs : List Fault} (f : List Byte) : FaultIn fs (.ok f) := fun _ h => nomatch h

theorem faultIn_error {fs : List Fault} {e : Fault} (h : e ∈ fs) : FaultIn fs (.error e) := by
  intro e' h'
  cases h'
  exact h

theorem faultIn_emit8 {fs : List Fault} (h : Fault.encodeOverflow ∈ fs) (b : Byte) (t : List Byte) :
    FaultIn fs (emit8 b t) := by
  unfold emit8
  split
  · exact faultIn_error h
  · exact faultIn_ok _

theorem faultIn_emit16 {fs : List Fault} (h : Fault.encodeOverflow ∈ fs) (v : Word) (t : List Byte) :
    FaultIn fs (emit16 v t) := by
  unfold emit16
  split
  · exact faultIn_error h
  · exact faultIn_ok _

theorem faultIn_finish {fs : List Fault} (h : Fault.encodeOverflow ∈ fs) (t : List Byte) :
    FaultIn fs (finishFrame t) := by
  unfold finishFrame
  split
  · exact faultIn_error h
  · exact faultIn_ok _

theorem faultIn_emitBytes {fs : List Fault} (h : Fault.encodeOverflow ∈ fs) (bs t : List Byte) :
    FaultIn fs (emitBytes bs t) := by
  induction bs generalizing t with
  | nil => exact faultIn_ok _
  | cons b bs ih => exact faultIn_bind (faultIn_emit8 h b t) ih

theorem faultIn_emitWords {fs : List Fault} (h : Fault.encodeOverflow ∈ fs) (ws : List Word) (t : List Byte) :
    FaultIn fs (emitWords ws t) := by
  induction ws generalizing t with
  | nil => exact faultIn_ok _
  | cons w ws ih => exact faultIn_bind (faultIn_emit16 h w t) ih

theorem faultIn_begin (fs : List Fault) (slave fn : Byte) : FaultIn fs (beginFrame slave fn) := faultIn_ok _

theorem faultIn_twoWords (fs : List Fault) (slave fn : Byte) (a b : Word) :
    FaultIn fs (encodeTwoWords slave fn a b) := by
  rw [encodeTwoWords_eq]
  exact faultIn_ok _

/-- The encode of a Request of the right shape faults only on a frame that does not fit (R152). -/
theorem encodeRequest_faults {r : Request} (hs : requestShape r = true) :
    FaultIn [.encodeOverflow] (encodeRequest r) := by
  have ho : Fault.encodeOverflow ∈ [Fault.encodeOverflow] := List.mem_singleton.mpr rfl
  unfold encodeRequest
  split
  · exact faultIn_twoWords _ _ _ _ _
  split
  · exact faultIn_twoWords _ _ _ _ _
  split
  · exact faultIn_twoWords _ _ _ _ _
  split
  · rename_i hf
    simp [requestShape, hf] at hs
    obtain ⟨v, hv⟩ := List.length_eq_one_iff.mp hs.2.1
    rw [encodeReqWSC, hv, firstValue, except_bind_ok]
    exact faultIn_twoWords _ _ _ _ _
  split
  · rename_i hf
    simp [requestShape, hf] at hs
    obtain ⟨v, hv⟩ := List.length_eq_one_iff.mp hs.2.1
    rw [encodeReqWSR, hv, firstValue, except_bind_ok]
    exact faultIn_twoWords _ _ _ _ _
  split
  · rename_i hf
    simp [requestShape, hf] at hs
    rw [encodeReqWMC, if_neg (by omega)]
    exact faultIn_bind (faultIn_begin _ _ _) fun _ => faultIn_bind (faultIn_emit16 ho _ _) fun _ =>
      faultIn_bind (faultIn_emit16 ho _ _) fun _ => faultIn_bind (faultIn_emit8 ho _ _) fun _ =>
      faultIn_bind (faultIn_emitBytes ho _ _) fun _ => faultIn_finish ho _
  split
  · rename_i hf
    simp [requestShape, hf] at hs
    rw [encodeReqWMR, if_neg (by omega)]
    exact faultIn_bind (faultIn_begin _ _ _) fun _ => faultIn_bind (faultIn_emit16 ho _ _) fun _ =>
      faultIn_bind (faultIn_emit16 ho _ _) fun _ => faultIn_bind (faultIn_emit8 ho _ _) fun _ =>
      faultIn_bind (faultIn_emitWords ho _ _) fun _ => faultIn_finish ho _
  split
  · exact faultIn_bind (faultIn_begin _ _ _) fun _ => faultIn_bind (faultIn_emit8 ho _ _) fun _ =>
      faultIn_bind (faultIn_emit8 ho _ _) fun _ => faultIn_bind (faultIn_emit16 ho _ _) fun _ =>
      faultIn_bind (faultIn_emit16 ho _ _) fun _ => faultIn_bind (faultIn_emit16 ho _ _) fun _ => faultIn_finish ho _
  · simp_all [requestShape]

/-- The three faults an encoder names; a buffer read is none of them. -/
abbrev encodeFaults : List Fault := [.encodeOverflow, .encodeUnsupported, .badShape]

/-- The encode of any Response faults only by name (R152, R163). -/
theorem encodeResponse_faults (p : Response) : FaultIn encodeFaults (encodeResponse p) := by
  have ho : Fault.encodeOverflow ∈ encodeFaults := by simp
  have hb : Fault.badShape ∈ encodeFaults := by simp
  have words : ∀ fn p, FaultIn encodeFaults (encodeWordList fn p) := by
    intro fn p
    unfold encodeWordList
    split
    · exact faultIn_error hb
    · exact faultIn_bind (faultIn_begin _ _ _) fun _ => faultIn_bind (faultIn_emit8 ho _ _) fun _ =>
        faultIn_bind (faultIn_emitWords ho _ _) fun _ => faultIn_finish ho _
  have echo : ∀ fn p, FaultIn encodeFaults (encodeEchoQty fn p) := by
    intro fn p
    unfold encodeEchoQty
    split
    · exact faultIn_twoWords _ _ _ _ _
    · exact faultIn_error hb
  have single : ∀ p e, singleValue p = .error e → e ∈ encodeFaults := by
    intro p e he
    unfold singleValue at he
    split at he
    · split at he <;> cases he
      exact hb
    · cases he
      exact hb
  cases p with
  | exception e =>
    exact faultIn_bind (faultIn_begin _ _ _) fun _ => faultIn_bind (faultIn_emit8 ho _ _) fun _ => faultIn_finish ho _
  | normal p =>
    simp only [encodeResponse]
    unfold encodeNormal
    split
    · unfold encodeRspRC
      split
      · exact faultIn_error hb
      · exact faultIn_bind (faultIn_begin _ _ _) fun _ => faultIn_bind (faultIn_emit8 ho _ _) fun _ =>
          faultIn_bind (faultIn_emitBytes ho _ _) fun _ => faultIn_finish ho _
    split
    · exact words _ _
    split
    · exact words _ _
    split
    · exact faultIn_bind (single p) fun _ => faultIn_twoWords _ _ _ _ _
    split
    · exact faultIn_bind (single p) fun _ => faultIn_twoWords _ _ _ _ _
    split
    · exact echo _ _
    split
    · exact echo _ _
    split
    · unfold encodeRspRFR
      split
      · exact faultIn_error hb
      · exact faultIn_bind (faultIn_begin _ _ _) fun _ => faultIn_bind (faultIn_emit8 ho _ _) fun _ =>
          faultIn_bind (faultIn_emit8 ho _ _) fun _ => faultIn_bind (faultIn_emit8 ho _ _) fun _ =>
          faultIn_bind (faultIn_emitWords ho _ _) fun _ => faultIn_finish ho _
    · exact faultIn_error (by simp)

end Sys2Proof.Laws
end

