-- ==== Sys2Proof/Laws/Engine.lean ====
section
/-! SUPPORT. What the engines' state actions can do, said once: which fields a master or a slave action leaves alone, what
it adds to the event record, and that the result port plays no part in it (44_master_engine.md, 45_slave_engine.md). -/

namespace Sys2Proof.Laws

open Sys2Proof.Machine Sys2Proof.Safety

/-! Fields that no state action writes. -/

/-- What both roles' actions leave alone. -/
structure ActionKeeps (s t : State) : Prop where
  params     : t.params = s.params
  responseTo : t.responseTo = s.responseTo
  frameTo    : t.frameTo = s.frameTo
  turnaround : t.turnaround = s.turnaround
  retries    : t.retries = s.retries
  respDelay  : t.respDelay = s.respDelay
  inputs     : t.inputs = s.inputs
  result     : t.result = s.result
  lastRx     : t.lastRx = s.lastRx

/-- What a master's action leaves alone. -/
structure MasterKeeps (s t : State) : Prop extends ActionKeeps s t where
  sstate  : t.sstate = s.sstate
  respAns : t.respAns = s.respAns

/-- What a slave's action leaves alone. -/
structure SlaveKeeps (s t : State) : Prop extends ActionKeeps s t where
  mstate     : t.mstate = s.mstate
  q          : t.q = s.q
  cur        : t.cur = s.cur
  curq       : t.curq = s.curq
  handledAns : t.handledAns = s.handledAns

theorem afterSend_keeps (ok : Bool) (r : Request) (s : State) : MasterKeeps s (afterSend ok r s) := by
  unfold afterSend
  split
  · split
    · exact ⟨⟨rfl, rfl, rfl, rfl, rfl, rfl, rfl, rfl, rfl⟩, rfl, rfl⟩
    · split
      · exact ⟨⟨by simp, by simp, by simp, by simp, by simp, by simp, by simp, by simp, by simp⟩, by simp, by simp⟩
      · exact ⟨⟨rfl, rfl, rfl, rfl, rfl, rfl, rfl, rfl, rfl⟩, rfl, rfl⟩
  · exact ⟨⟨rfl, rfl, rfl, rfl, rfl, rfl, rfl, rfl, rfl⟩, rfl, rfl⟩

theorem dispatch_keeps (p : Option Response) (s : State) : MasterKeeps s (dispatch p s) := by
  unfold dispatch
  split
  · exact ⟨⟨by simp, by simp, by simp, by simp, by simp, by simp, by simp, by simp, by simp⟩, by simp, by simp⟩
  · exact ⟨⟨by simp, by simp, by simp, by simp, by simp, by simp, by simp, by simp, by simp⟩, by simp, by simp⟩
  · unfold dispatchException
    exact ⟨⟨by simp, by simp, by simp, by simp, by simp, by simp, by simp, by simp, by simp⟩, by simp, by simp⟩

/-- `transmit_head` writes none of the kept fields (R232). -/
theorem transmitHead_keeps {now : Time} {r : Request} {s t : State} (h : transmitHead now r s = .ok t) :
    MasterKeeps s t := by
  unfold transmitHead at h
  split at h
  · cases h
  · cases h
    rename_i f _
    have k := afterSend_keeps (txOk s) r (tx now f (purge (putFrame f { s with cur := r, curq := true })))
    exact ⟨⟨by simp [k.params], by simp [k.responseTo], by simp [k.frameTo], by simp [k.turnaround], by simp [k.retries],
      by simp [k.respDelay], by simp [k.inputs], by simp [k.result], by simp [k.lastRx]⟩, by simp [k.sstate],
      by simp [k.respAns]⟩

theorem receivedAction_keeps {s t : State} (h : receivedAction s = .ok t) : MasterKeeps s t := by
  unfold receivedAction at h
  split at h
  · cases h
  · cases h
    rename_i p _
    have k := dispatch_keeps p s
    exact ⟨⟨k.params, k.responseTo, k.frameTo, k.turnaround, k.retries, k.respDelay, k.inputs, k.result, k.lastRx⟩,
      k.sstate, k.respAns⟩

/-- A master's action writes none of the kept fields (R230). -/
theorem masterAction_keeps {now : Time} {s t : State} (h : masterAction now s = .ok t) : MasterKeeps s t := by
  unfold masterAction at h
  split at h
  · unfold idleAction at h
    split at h
    · cases h
      exact ⟨⟨rfl, rfl, rfl, rfl, rfl, rfl, rfl, rfl, rfl⟩, rfl, rfl⟩
    · split at h
      · exact transmitHead_keeps h
      · cases h
        exact ⟨⟨rfl, rfl, rfl, rfl, rfl, rfl, rfl, rfl, rfl⟩, rfl, rfl⟩
  · unfold waitingAction at h
    split at h
    · have k := receivedAction_keeps h
      exact ⟨⟨k.params, k.responseTo, k.frameTo, k.turnaround, k.retries, k.respDelay, k.inputs, k.result, k.lastRx⟩,
        k.sstate, k.respAns⟩
    · split at h
      · cases h
        unfold timeoutAction
        exact ⟨⟨by simp, by simp, by simp, by simp, by simp, by simp, by simp, by simp, by simp⟩, by simp, by simp⟩
      · cases h
        exact ⟨⟨rfl, rfl, rfl, rfl, rfl, rfl, rfl, rfl, rfl⟩, rfl, rfl⟩
  · exact receivedAction_keeps h

theorem respond_keeps {now : Time} {p : Option Response} {s t : State} (h : respond now p s = .ok t) :
    SlaveKeeps s t ∧ t.sstate = s.sstate := by
  unfold respond at h
  split at h
  · cases h
    exact ⟨⟨⟨rfl, rfl, rfl, rfl, rfl, rfl, rfl, rfl, rfl⟩, rfl, rfl, rfl, rfl, rfl⟩, rfl⟩
  · split at h
    · cases h
    · cases h
      exact ⟨⟨⟨by simp, by simp, by simp, by simp, by simp, by simp, by simp, by simp, by simp⟩, by simp, by simp,
        by simp, by simp, by simp⟩, by simp⟩

theorem serve_keeps {now : Time} {r : Request} {s t : State} (h : serve now r s = .ok t) : SlaveKeeps s t := by
  unfold serve at h
  split at h
  · obtain ⟨k, -⟩ := respond_keeps h
    exact ⟨⟨by simp [k.params], by simp [k.responseTo], by simp [k.frameTo], by simp [k.turnaround], by simp [k.retries],
      by simp [k.respDelay], by simp [k.inputs], by simp [k.result], by simp [k.lastRx]⟩, by simp [k.mstate],
      by simp [k.q], by simp [k.cur], by simp [k.curq], by simp [k.handledAns]⟩
  · exact (respond_keeps h).1

theorem requestAction_keeps {now : Time} {s t : State} (h : requestAction now s = .ok t) : SlaveKeeps s t := by
  unfold requestAction at h
  split at h
  · cases h
  · cases h
    rename_i u hu
    have k : SlaveKeeps s u := by
      unfold requestBody at hu
      split at hu
      · cases hu
      · cases hu
        exact ⟨⟨rfl, rfl, rfl, rfl, rfl, rfl, rfl, rfl, rfl⟩, rfl, rfl, rfl, rfl, rfl⟩
      · exact serve_keeps hu
    exact ⟨⟨k.params, k.responseTo, k.frameTo, k.turnaround, k.retries, k.respDelay, k.inputs, k.result, k.lastRx⟩,
      k.mstate, k.q, k.cur, k.curq, k.handledAns⟩

/-- A slave's action writes none of the kept fields (45_slave_engine.md R272). -/
theorem slaveAction_keeps {now : Time} {s t : State} (h : slaveAction now s = .ok t) : SlaveKeeps s t := by
  unfold slaveAction at h
  split at h
  · split at h
    · have k := requestAction_keeps h
      exact ⟨⟨k.params, k.responseTo, k.frameTo, k.turnaround, k.retries, k.respDelay, k.inputs, k.result, k.lastRx⟩,
        k.mstate, k.q, k.cur, k.curq, k.handledAns⟩
    · cases h
      exact ⟨⟨rfl, rfl, rfl, rfl, rfl, rfl, rfl, rfl, rfl⟩, rfl, rfl, rfl, rfl, rfl⟩
  · exact requestAction_keeps h

/-- The append of a POLL or RXPUSH stamps `LASTRX` exactly when the chunk is not empty (46_transport_and_host.md R291). -/
theorem receive_lastRx (now : Time) (chunk : List Byte) (s : State) :
    (receive now chunk s).lastRx = if chunk = [] then s.lastRx else now := by
  cases chunk <;> rfl

/-- The tap of an append (R291). -/
theorem receive_events (now : Time) (chunk : List Byte) (s : State) :
    (receive now chunk s).events = s.events ++ if chunk = [] then [] else [.rx chunk] := by
  cases chunk with
  | nil => simp [receive_nil]
  | cons b bs => rw [receive_cons, append_events]; simp

/-- The append keeps the buffer in its canonical form within its capacity. -/
theorem receive_bufferOk {now : Time} {chunk : List Byte} {s : State} (h : bufferOk s.rxb s.rxn Config.rxCap = true) :
    bufferOk (receive now chunk s).rxb (receive now chunk s).rxn Config.rxCap = true := by
  cases chunk with
  | nil => exact h
  | cons b bs =>
    rw [receive_cons]
    show bufferOk (store (b :: bs) s).rxb (store (b :: bs) s).rxn Config.rxCap = true
    by_cases hf : s.rxn + (b :: bs).length ≤ Config.rxCap
    · rw [store_fit hf]
      exact writeBytes_bufferOk h hf
    · rw [store_overflow (by omega)]
      exact empty_bufferOk _

/-! The event record and `LASTTX`. -/

/-- What `tx` adds to the event record: the tap, and the diagnostics event if the write failed (46_transport_and_host.md
R295). -/
theorem tx_events (now : Time) (f : List Byte) (s : State) :
    (tx now f s).events = s.events ++ .tx f :: if txOk s then [] else [.diag .txFailed] := by
  unfold tx
  split <;> simp

/-- `tx` stamps `LASTTX` exactly when the write succeeded (R295). -/
theorem tx_lastTx (now : Time) (f : List Byte) (s : State) :
    (tx now f s).lastTx = if txOk s then now else s.lastTx := by
  unfold tx
  split <;> simp

/-- An event that neither hands a frame to the transport nor reports a failed write. -/
def quiet : Event → Bool
  | .tx _ => false
  | .diag _ => false
  | _ => true

theorem sentOk_quiet {es rest : List Event} (h : es.all quiet = true) : sentOk (es ++ rest) = sentOk rest := by
  induction es with
  | nil => rfl
  | cons e es ih =>
    rw [List.all_cons, Bool.and_eq_true] at h
    cases e <;> first | exact ih h.2 | (exact absurd h.1 (by simp [quiet]))

theorem sentOk_all_quiet {es : List Event} (h : es.all quiet = true) : sentOk es = false := by
  have := sentOk_quiet (rest := []) h
  rwa [List.append_nil] at this

/-- The events of a state action and the time of the last transmission: either nothing was sent, or one frame was, after
events that are no transmission. -/
structure Sends (now : Time) (s t : State) : Prop where
  out : ∃ es, t.events = s.events ++ es ∧ t.lastTx = if sentOk es then now else s.lastTx

theorem sends_quiet {now : Time} {s t : State} (es : List Event) (he : t.events = s.events ++ es)
    (hq : es.all quiet = true) (hl : t.lastTx = s.lastTx) : Sends now s t :=
  ⟨es, he, by rw [sentOk_all_quiet hq]; exact hl⟩

theorem sends_tx {now : Time} {s u t : State} (es : List Event) (f : List Byte) (he : u.events = s.events ++ es)
    (hq : es.all quiet = true) (hl : u.lastTx = s.lastTx) (ht : t.events = (tx now f u).events)
    (hlt : t.lastTx = (tx now f u).lastTx) : Sends now s t := by
  refine ⟨es ++ .tx f :: (if txOk u then [] else [.diag .txFailed]), ?_, ?_⟩
  · rw [ht, tx_events, he, List.append_assoc]
  · rw [hlt, tx_lastTx, sentOk_quiet hq, hl]
    cases txOk u <;> simp [sentOk]

theorem dispatch_events (p : Option Response) (s : State) :
    ∃ es, (dispatch p s).events = s.events ++ es ∧ es.all quiet = true ∧ (dispatch p s).lastTx = s.lastTx := by
  unfold dispatch
  split
  · exact ⟨[], by simp, rfl, by simp⟩
  · rename_i n
    unfold dispatchNormal
    cases handled s
    · exact ⟨[.response s.cur n, .responseFn n.fn s.cur n], by simp, rfl, by simp⟩
    · exact ⟨[.response s.cur n], by simp, rfl, by simp⟩
  · rename_i e
    exact ⟨[.exception s.cur e], by simp [dispatchException], rfl, by simp [dispatchException]⟩

theorem afterSend_events (ok : Bool) (r : Request) (s : State) :
    (afterSend ok r s).events = s.events ∧ (afterSend ok r s).lastTx = s.lastTx := by
  unfold afterSend
  split
  · split
    · exact ⟨rfl, rfl⟩
    · split
      · exact ⟨by simp, by simp⟩
      · exact ⟨rfl, rfl⟩
  · exact ⟨rfl, rfl⟩

theorem receivedAction_sends {now : Time} {s t : State} (h : receivedAction s = .ok t) : Sends now s t := by
  unfold receivedAction at h
  split at h
  · cases h
  · cases h
    rename_i p _
    obtain ⟨es, he, hq, hl⟩ := dispatch_events p s
    exact sends_quiet es he hq hl

/-- A master's action sends at most one frame, and stamps `LASTTX` exactly when that succeeded. -/
theorem masterAction_sends {now : Time} {s t : State} (h : masterAction now s = .ok t) : Sends now s t := by
  have none : Sends now s s := sends_quiet [] (by simp) rfl rfl
  unfold masterAction at h
  split at h
  · unfold idleAction at h
    split at h
    · cases h; exact none
    · split at h
      · unfold transmitHead at h
        split at h
        · cases h
        · cases h
          rename_i r _ _ _ _ f _
          obtain ⟨he, hl⟩ := afterSend_events (txOk s) r (tx now f (purge (putFrame f { s with cur := r, curq := true })))
          exact sends_tx [] f (u := purge (putFrame f { s with cur := r, curq := true })) (by simp) rfl rfl he hl
      · cases h; exact none
  · unfold waitingAction at h
    split at h
    · exact ⟨(receivedAction_sends (s := { s with mstate := .responseReceived }) h).out⟩
    · split at h
      · cases h
        exact sends_quiet [.timeout s.cur] (by simp [timeoutAction]) rfl (by simp [timeoutAction])
      · cases h; exact none
  · exact receivedAction_sends h

theorem raiseRequest_events (r : Request) (s : State) :
    ∃ es, (raiseRequest r s).events = s.events ++ es ∧ es.all quiet = true := by
  unfold raiseRequest
  cases h : handlerAnswer s with
  | none => exact ⟨[.request r, .requestFn r.fn r], by simp, rfl⟩
  | some p => exact ⟨[.request r], by simp, rfl⟩

theorem respond_sends {now : Time} {p : Option Response} {s u t : State} (es : List Event)
    (he : u.events = s.events ++ es) (hq : es.all quiet = true) (hl : u.lastTx = s.lastTx)
    (h : respond now p u = .ok t) : Sends now s t := by
  unfold respond at h
  split at h
  · cases h
    exact sends_quiet es he hq hl
  · split at h
    · cases h
    · cases h
      rename_i f _
      exact sends_tx es f (u := putFrame f u) he hq hl rfl rfl

theorem requestAction_sends {now : Time} {s t : State} (h : requestAction now s = .ok t) : Sends now s t := by
  unfold requestAction at h
  split at h
  · cases h
  · cases h
    rename_i u hu
    have k : Sends now s u := by
      unfold requestBody at hu
      split at hu
      · cases hu
      · cases hu
        exact sends_quiet [] (by simp) rfl rfl
      · rename_i r _
        unfold serve at hu
        split at hu
        · obtain ⟨es, he, hq⟩ := raiseRequest_events r s
          exact respond_sends es he hq (by simp) hu
        · exact respond_sends [] (by simp) rfl rfl hu
    exact ⟨k.out⟩

/-- A slave's action sends at most one frame, and stamps `LASTTX` exactly when that succeeded. -/
theorem slaveAction_sends {now : Time} {s t : State} (h : slaveAction now s = .ok t) : Sends now s t := by
  unfold slaveAction at h
  split at h
  · split at h
    · exact ⟨(requestAction_sends (s := { s with sstate := .requestReceived }) h).out⟩
    · cases h
      exact sends_quiet [] (by simp) rfl rfl
  · exact requestAction_sends h

/-! A POLL that completes, taken apart. -/

/-- A POLL that answers a next state ran its role's action to an end and put `OK` on the result port. -/
theorem poll_next {now : Time} {chunk : List Byte} {s t : State} (h : exec (.poll now chunk) s = .next t) :
    ∃ u, stateAction now (receive now chunk s) = .ok u ∧ t = setResult .ok .none u := by
  have h : finish (stateAction now (receive now chunk s)) = .next t := h
  unfold finish at h
  split at h
  · rename_i u hu
    cases h
    exact ⟨u, hu, rfl⟩
  · cases h

/-! The shared ends of the other commands. -/

/-- An encode form that completes wrote `TXB`, `TXN` and the result port (42_frame_encode.md R150). -/
theorem buildFrame_next {e : Except Fault (List Byte)} {s t : State} (h : buildFrame e s = .next t) :
    ∃ f, e = .ok f ∧ t = { s with txb := Memory.ofBytes f, txn := f.length, result := some ⟨.ok, .frame f⟩ } := by
  unfold buildFrame at h
  split at h
  · cases h
  · cases h
    exact ⟨_, rfl, rfl⟩

/-- A decode form that completes wrote the result port (43_frame_decode_sync.md R202). -/
theorem showRequest_next {e : Except Fault (Option Request)} {s t : State} (h : showRequest e s = .next t) :
    ∃ r, e = .ok r ∧ t = { s with result := some ⟨.ok, .request r⟩ } := by
  unfold showRequest at h
  split at h
  · cases h
  · cases h
    exact ⟨_, rfl, rfl⟩

/-- The same of a response (43_frame_decode_sync.md R192). -/
theorem showResponse_next {e : Except Fault (Option Response)} {s t : State} (h : showResponse e s = .next t) :
    ∃ p, e = .ok p ∧ t = { s with result := some ⟨.ok, .response p⟩ } := by
  unfold showResponse at h
  split at h
  · cases h
  · cases h
    exact ⟨_, rfl, rfl⟩

/-- An enqueue command appends one Request or writes a status only; it always completes (44_master_engine.md R221). -/
theorem enq_next (r : Request) (s : State) :
    ∃ t, enq r s = .next t ∧
      ((∃ st, t = { s with result := some ⟨st, .none⟩ }) ∨
        s.params.role = .master ∧ queueFull s = false ∧ valuesTooLong s r.values = false ∧
        t = { s with q := s.q ++ [{ r with retries := s.retries }], result := some ⟨.ok, .none⟩ }) := by
  unfold enq onMaster
  cases hr : s.params.role with
  | slave => exact ⟨_, rfl, .inl ⟨_, rfl⟩⟩
  | master =>
    cases hv : valuesTooLong s r.values with
    | true => exact ⟨_, by simp [hv, refuse]; rfl, .inl ⟨.badShape, rfl⟩⟩
    | false =>
      cases hf : queueFull s with
      | true => exact ⟨_, by simp [hv, hf, refuse]; rfl, .inl ⟨.qfull, rfl⟩⟩
      | false => exact ⟨_, by simp [hv, hf, answer]; rfl, .inr ⟨rfl, rfl, rfl, rfl⟩⟩

/-! The result port plays no part in a state action. -/

/-- `s` with another result on the port. -/
def withResult (r : Option Result) (s : State) : State := { s with result := r }

theorem takeTx_withResult (r : Option Result) (s : State) : takeTx (withResult r s) = withResult r (takeTx s) := by
  unfold takeTx withResult
  cases s.txAns <;> rfl

theorem takeHandled_withResult (r : Option Result) (s : State) :
    takeHandled (withResult r s) = withResult r (takeHandled s) := by
  unfold takeHandled withResult
  cases s.handledAns <;> rfl

theorem takeAnswer_withResult (r : Option Result) (s : State) :
    takeAnswer (withResult r s) = withResult r (takeAnswer s) := by
  unfold takeAnswer withResult
  cases s.respAns <;> rfl

theorem raise_withResult (e : Event) (r : Option Result) (s : State) :
    raise e (withResult r s) = withResult r (raise e s) := rfl

theorem tx_withResult (now : Time) (f : List Byte) (r : Option Result) (s : State) :
    tx now f (withResult r s) = withResult r (tx now f s) := by
  unfold tx
  rw [raise_withResult, takeTx_withResult]
  show (if txOk s then _ else _) = _
  split <;> rfl

theorem removeHead_withResult (r : Option Result) (s : State) :
    removeHead (withResult r s) = withResult r (removeHead s) := by
  unfold removeHead
  show (if s.curq then _ else _) = _
  split <;> rfl

theorem failRequest_withResult (r : Option Result) (s : State) :
    failRequest (withResult r s) = withResult r (failRequest s) := by
  unfold failRequest
  rw [removeHead_withResult]
  show (if s.cur.retries > 0 then _ else _) = _
  split <;> rfl

theorem afterSend_withResult (ok : Bool) (q : Request) (r : Option Result) (s : State) :
    afterSend ok q (withResult r s) = withResult r (afterSend ok q s) := by
  unfold afterSend
  rw [removeHead_withResult]
  split
  · split
    · rfl
    · show (if s.params.bcastDequeue then _ else _) = _
      split <;> rfl
  · rfl

theorem transmitHead_withResult (now : Time) (q : Request) (r : Option Result) (s : State) :
    transmitHead now q (withResult r s) = (transmitHead now q s).map (withResult r) := by
  unfold transmitHead
  cases encodeRequest q with
  | error e => rfl
  | ok f =>
    show Except.ok (afterSend (txOk s) q (tx now f (withResult r (purge (putFrame f { s with cur := q, curq := true }))))) = _
    rw [tx_withResult, afterSend_withResult]
    rfl

theorem dispatch_withResult (p : Option Response) (r : Option Result) (s : State) :
    dispatch p (withResult r s) = withResult r (dispatch p s) := by
  unfold dispatch
  split
  · exact failRequest_withResult r s
  · unfold dispatchNormal
    simp only [raise_withResult, takeHandled_withResult]
    show removeHead (if handled s then _ else _) = _
    split <;> exact removeHead_withResult r _
  · unfold dispatchException
    rw [raise_withResult]
    exact failRequest_withResult r _

theorem receivedAction_withResult (r : Option Result) (s : State) :
    receivedAction (withResult r s) = (receivedAction s).map (withResult r) := by
  unfold receivedAction
  rw [show findResponse (rxBytes (withResult r s)) (withResult r s).cur = findResponse (rxBytes s) s.cur from rfl]
  cases findResponse (rxBytes s) s.cur with
  | error e => rfl
  | ok p => simp only [dispatch_withResult]; rfl

theorem masterAction_withResult (now : Time) (r : Option Result) (s : State) :
    masterAction now (withResult r s) = (masterAction now s).map (withResult r) := by
  unfold masterAction
  rw [show (withResult r s).mstate = s.mstate from rfl]
  cases s.mstate with
  | idle =>
    simp only [idleAction]
    rw [show (withResult r s).q = s.q from rfl, show turnaroundPassed now (withResult r s) = turnaroundPassed now s from rfl]
    cases s.q with
    | nil => rfl
    | cons q rest =>
      simp only
      split
      · exact transmitHead_withResult now q r s
      · rfl
  | waitingForResponse =>
    simp only [waitingAction]
    show (if frameEnded now s then receivedAction (withResult r { s with mstate := .responseReceived })
      else if responseTimedOut now s then Except.ok (timeoutAction (withResult r s)) else .ok (withResult r s)) = _
    split
    · exact receivedAction_withResult r _
    · split
      · simp only [timeoutAction]
        show Except.ok { failRequest (withResult r (raise (.timeout s.cur) s)) with mstate := .idle } = _
        rw [failRequest_withResult]
        rfl
      · rfl
  | responseReceived => exact receivedAction_withResult r s

theorem respond_withResult (now : Time) (p : Option Response) (r : Option Result) (s : State) :
    respond now p (withResult r s) = (respond now p s).map (withResult r) := by
  unfold respond
  cases p with
  | none => rfl
  | some p =>
    simp only
    cases encodeResponse p with
    | error e => rfl
    | ok f =>
      show Except.ok (tx now f (withResult r (putFrame f s))) = _
      rw [tx_withResult]
      rfl

theorem raiseRequest_withResult (q : Request) (r : Option Result) (s : State) :
    raiseRequest q (withResult r s) = withResult r (raiseRequest q s) := by
  unfold raiseRequest
  simp only [raise_withResult, takeAnswer_withResult]
  rw [show handlerAnswer (withResult r s) = handlerAnswer s from rfl]
  cases handlerAnswer s <;> rfl

theorem askHandlers_withResult (q : Request) (r : Option Result) (s : State) :
    askHandlers q (withResult r s) = askHandlers q s := by
  unfold askHandlers
  rw [raise_withResult, takeAnswer_withResult]
  rfl

theorem requestAction_withResult (now : Time) (r : Option Result) (s : State) :
    requestAction now (withResult r s) = (requestAction now s).map (withResult r) := by
  have body : requestBody now (withResult r s) = (requestBody now s).map (withResult r) := by
    unfold requestBody
    rw [show rxBytes (withResult r s) = rxBytes s from rfl]
    cases findRequest (rxBytes s) with
    | error e => rfl
    | ok o =>
      cases o with
      | none => rfl
      | some q =>
        simp only [serve]
        split
        · rw [askHandlers_withResult, raiseRequest_withResult, respond_withResult]
        · exact respond_withResult now _ r s
  unfold requestAction
  rw [body]
  cases requestBody now s <;> rfl

theorem slaveAction_withResult (now : Time) (r : Option Result) (s : State) :
    slaveAction now (withResult r s) = (slaveAction now s).map (withResult r) := by
  unfold slaveAction
  rw [show (withResult r s).sstate = s.sstate from rfl]
  cases s.sstate with
  | idle =>
    show (if requestReady now s then requestAction now (withResult r { s with sstate := .requestReceived })
      else Except.ok (withResult r s)) = _
    simp only
    split
    · exact requestAction_withResult now r _
    · rfl
  | requestReceived => exact requestAction_withResult now r s

/-- A state action reads nothing of the result port and leaves it as it was. -/
theorem stateAction_withResult (now : Time) (r : Option Result) (s : State) :
    stateAction now (withResult r s) = (stateAction now s).map (withResult r) := by
  unfold stateAction
  rw [show (withResult r s).params = s.params from rfl]
  cases s.params.role with
  | master => exact masterAction_withResult now r s
  | slave => exact slaveAction_withResult now r s

/-! Small facts about the engines' operations. -/

/-- Two states are equal when every field is. -/
theorem state_ext {s t : State}
    (h : s.params = t.params ∧ s.mstate = t.mstate ∧ s.sstate = t.sstate ∧ s.rxb = t.rxb ∧ s.rxn = t.rxn ∧
      s.txb = t.txb ∧ s.txn = t.txn ∧ s.q = t.q ∧ s.cur = t.cur ∧ s.curq = t.curq ∧ s.lastRx = t.lastRx ∧
      s.lastTx = t.lastTx ∧ s.responseTo = t.responseTo ∧ s.frameTo = t.frameTo ∧ s.turnaround = t.turnaround ∧
      s.retries = t.retries ∧ s.respDelay = t.respDelay ∧ s.inputs = t.inputs ∧ s.result = t.result ∧
      s.events = t.events ∧ s.txAns = t.txAns ∧ s.handledAns = t.handledAns ∧ s.respAns = t.respAns ∧
      s.draws = t.draws) : s = t := by
  cases s
  cases t
  simp_all

/-- A POLL on a master is its state action after the append (44_master_engine.md R230). -/
theorem poll_master {now : Time} {chunk : List Byte} {s : State} (hr : s.params.role = .master) :
    exec (.poll now chunk) s = finish (masterAction now (receive now chunk s)) := by
  show finish (stateAction now (receive now chunk s)) = _
  rw [stateAction, show (receive now chunk s).params = s.params by simp, hr]

/-- A POLL on a slave is its state action after the append (45_slave_engine.md R272). -/
theorem poll_slave {now : Time} {chunk : List Byte} {s : State} (hr : s.params.role = .slave) :
    exec (.poll now chunk) s = finish (slaveAction now (receive now chunk s)) := by
  show finish (stateAction now (receive now chunk s)) = _
  rw [stateAction, show (receive now chunk s).params = s.params by simp, hr]

theorem elapsed_true {now t th : Time} (h : th ≤ delta now t) : elapsed now t th = true := by simp [elapsed, h]

theorem elapsed_false {now t th : Time} (h : delta now t < th) : elapsed now t th = false := by
  simp only [elapsed, decide_eq_false_iff_not]
  exact BitVec.not_le.mpr h

/-- Everything `tx` does (46_transport_and_host.md R295). -/
theorem tx_eq (now : Time) (f : List Byte) (s : State) :
    tx now f s = { takeTx s with
      lastTx := if txOk s then now else s.lastTx
      events := s.events ++ .tx f :: if txOk s then [] else [.diag .txFailed] } := by
  unfold tx takeTx raise txOk
  cases s.txAns with
  | nil => simp only; split <;> simp
  | cons b bs => simp only; split <;> simp

/-- What the transport answers depends on its list and the counter alone. -/
theorem takeTx_congr {s u : State} (h1 : s.txAns = u.txAns) (h2 : s.draws = u.draws) :
    txOk s = txOk u ∧ (takeTx s).txAns = (takeTx u).txAns ∧ (takeTx s).draws = (takeTx u).draws := by
  unfold txOk takeTx
  rw [h1, h2]
  cases u.txAns <;> simp [h1, h2]

/-- What a master callback answers depends on its list and the counter alone. -/
theorem takeHandled_congr {s u : State} (h1 : s.handledAns = u.handledAns) (h2 : s.draws = u.draws) :
    handled s = handled u ∧ (takeHandled s).handledAns = (takeHandled u).handledAns ∧
      (takeHandled s).draws = (takeHandled u).draws := by
  unfold handled takeHandled
  rw [h1, h2]
  cases u.handledAns <;> simp [h1, h2]

/-- What a slave handler answers depends on its list and the counter alone. -/
theorem takeAnswer_congr {s u : State} (h1 : s.respAns = u.respAns) (h2 : s.draws = u.draws) :
    handlerAnswer s = handlerAnswer u ∧ (takeAnswer s).respAns = (takeAnswer u).respAns ∧
      (takeAnswer s).draws = (takeAnswer u).draws := by
  unfold handlerAnswer takeAnswer
  rw [h1, h2]
  cases u.respAns <;> simp [h1, h2]

/-- `fail` does not read or write `MSTATE` (44_master_engine.md R245). -/
theorem failRequest_withMstate (s : State) (m : MState) :
    failRequest { s with mstate := m } = { failRequest s with mstate := m } := by
  unfold failRequest removeHead
  simp only
  split
  · rfl
  · split <;> rfl

/-! The queue's part of the invariant (10_state.md R51 (a), (d)). -/

/-- Capacity, shapes, and the head that `CURQ` speaks of. -/
structure QueueInv (s : State) : Prop where
  queue   : queueOk s = true
  entries : ∀ r ∈ s.q, requestShape r = true
  head    : headOk s = true

theorem queueInv_congr {s t : State} (h : QueueInv s) (hp : t.params = s.params) (hq : t.q = s.q) (hc : t.cur = s.cur)
    (hcq : t.curq = s.curq) : QueueInv t :=
  ⟨by rw [queueOk, hp, hq]; exact h.queue, by rw [hq]; exact h.entries, by rw [headOk, hq, hc, hcq]; exact h.head⟩

/-- `remove_head` keeps it (44_master_engine.md R246). -/
theorem removeHead_queueInv {s : State} (h : QueueInv s) : QueueInv (removeHead s) := by
  unfold removeHead
  split
  · refine ⟨?_, fun r hr => h.entries r (List.mem_of_mem_tail hr), rfl⟩
    have hq := h.queue
    unfold queueOk at hq ⊢
    simp only
    split at hq
    · simp only [decide_eq_true_eq, List.length_tail] at hq ⊢
      omega
    · rfl
  · exact h

theorem setHeadRetries_length (v : Retry) (q : List Request) : (setHeadRetries v q).length = q.length := by
  cases q <;> rfl

theorem setHeadRetries_shape {v : Retry} {q : List Request} (h : ∀ r ∈ q, requestShape r = true) :
    ∀ r ∈ setHeadRetries v q, requestShape r = true := by
  cases q with
  | nil => exact h
  | cons a q =>
    intro r hr
    rcases List.mem_cons.mp hr with rfl | hr
    · exact h a (by simp)
    · exact h r (by simp [hr])

/-- `fail` keeps it (R245). -/
theorem failRequest_queueInv {s : State} (h : QueueInv s) : QueueInv (failRequest s) := by
  unfold failRequest
  split
  · refine ⟨?_, ?_, ?_⟩
    · have hq := h.queue
      unfold queueOk at hq ⊢
      simp only
      split at hq
      · simp only [decide_eq_true_eq] at hq ⊢
        split
        · rw [setHeadRetries_length]
          exact hq
        · exact hq
      · rfl
    · simp only
      split
      · exact setHeadRetries_shape h.entries
      · exact h.entries
    · have hh := h.head
      unfold headOk at hh ⊢
      cases hc : s.curq with
      | false => rfl
      | true =>
        cases hq : s.q with
        | nil => simp [hc, hq] at hh
        | cons a q =>
          simp only [hc, hq, Bool.not_true, Bool.false_or, decide_eq_true_eq, List.head?_cons, Option.some.injEq] at hh
          simp [setHeadRetries, hh]
  · exact removeHead_queueInv h

/-- What follows the decode keeps it (R236). -/
theorem dispatch_queueInv (p : Option Response) {s : State} (h : QueueInv s) : QueueInv (dispatch p s) := by
  unfold dispatch
  split
  · exact failRequest_queueInv h
  · unfold dispatchNormal
    apply removeHead_queueInv
    split <;> exact queueInv_congr h (by simp) (by simp) (by simp) (by simp)
  · exact failRequest_queueInv (queueInv_congr h rfl rfl rfl rfl)

/-- What follows the decode leaves the transmit buffer alone. -/
theorem dispatch_txb (p : Option Response) (s : State) : (dispatch p s).txb = s.txb ∧ (dispatch p s).txn = s.txn := by
  unfold dispatch
  split <;> simp [dispatchException]

end Sys2Proof.Laws
end

