-- ==== Sys2Proof/Laws/PerInstr.lean ====
section
/-! SUPPORT. Statements made for every instruction, one lemma per constructor: the fixed bits of its row of
opcode_table.json stand in the code byte of its port word. -/

namespace Sys2Proof.Laws.FixedBits

/-- Where a row of opcode_table.json looks: the language of the port word, the mask and the match of the code byte. -/
structure Row where
  lang : Lang
  mask : Byte
  bits : Byte

/-- The rows, written from opcode_table.json. -/
def row : Instr → Row
  | .enqRC _ _ _ => ⟨.command, 0xFF, 0x01⟩
  | .enqRHR _ _ _ => ⟨.command, 0xFF, 0x03⟩
  | .enqRIR _ _ _ => ⟨.command, 0xFF, 0x04⟩
  | .enqWSC _ _ _ => ⟨.command, 0xFF, 0x05⟩
  | .enqWSR _ _ _ => ⟨.command, 0xFF, 0x06⟩
  | .enqWMC _ _ _ => ⟨.command, 0xFF, 0x0F⟩
  | .enqWMR _ _ _ => ⟨.command, 0xFF, 0x10⟩
  | .enqRFR _ _ _ _ => ⟨.command, 0xFF, 0x14⟩
  | .poll _ _ => ⟨.command, 0xFF, 0x80⟩
  | .rxpush _ _ => ⟨.command, 0xFF, 0x81⟩
  | .cfgwr _ _ => ⟨.command, 0xFF, 0x82⟩
  | .cfgrd _ => ⟨.command, 0xFF, 0x83⟩
  | .qclear => ⟨.command, 0xFF, 0x84⟩
  | .qcount => ⟨.command, 0xFF, 0x85⟩
  | .qempty => ⟨.command, 0xFF, 0x86⟩
  | .crc16 _ _ => ⟨.command, 0xFF, 0xC0⟩
  | .putw _ => ⟨.command, 0xFF, 0xC1⟩
  | .getw _ _ => ⟨.command, 0xFF, 0xC2⟩
  | .putwf _ => ⟨.command, 0xFF, 0xC3⟩
  | .getwf _ _ => ⟨.command, 0xFF, 0xC4⟩
  | .reqRC _ => ⟨.request, 0xFF, 0x01⟩
  | .reqRHR _ => ⟨.request, 0xFF, 0x03⟩
  | .reqRIR _ => ⟨.request, 0xFF, 0x04⟩
  | .reqWSC _ => ⟨.request, 0xFF, 0x05⟩
  | .reqWSR _ => ⟨.request, 0xFF, 0x06⟩
  | .reqWMC _ => ⟨.request, 0xFF, 0x0F⟩
  | .reqWMR _ => ⟨.request, 0xFF, 0x10⟩
  | .reqRFR _ => ⟨.request, 0xFF, 0x14⟩
  | .reqUNSUP _ => ⟨.request, 0x00, 0x00⟩
  | .rspRC _ => ⟨.response, 0xFF, 0x01⟩
  | .rspRHR _ => ⟨.response, 0xFF, 0x03⟩
  | .rspRIR _ => ⟨.response, 0xFF, 0x04⟩
  | .rspWSC _ => ⟨.response, 0xFF, 0x05⟩
  | .rspWSR _ => ⟨.response, 0xFF, 0x06⟩
  | .rspWMC _ => ⟨.response, 0xFF, 0x0F⟩
  | .rspWMR _ => ⟨.response, 0xFF, 0x10⟩
  | .rspRFR _ => ⟨.response, 0xFF, 0x14⟩
  | .rspEXC _ => ⟨.response, 0x80, 0x80⟩

/-- The port word of a well-formed instruction is in its row's language and carries its row's fixed bits; the function
byte of a row without fixed bits is none of the eight codes (30_encoding.md R107). -/
def Statement (i : Instr) : Prop :=
  i.wf = true →
    (encode i).lang = (row i).lang ∧ (encode i).code &&& (row i).mask = (row i).bits ∧
      ((row i).mask = 0 → Config.supported.contains (encode i).code = false)

/-- A row that fixes every bit of the code byte. -/
theorem of_row {i : Instr} {lang : Lang} {code : Byte} (hr : row i = ⟨lang, 0xFF, code⟩)
    (hw : (encode i).lang = lang ∧ (encode i).code = code) : Statement i := by
  intro _
  rw [hr, hw.1, hw.2]
  exact ⟨rfl, BitVec.and_allOnes, fun h => absurd h (by simp)⟩

theorem bit7_mask : ∀ b : Byte, b.getLsbD 7 = true → b &&& 0x80 = 0x80 := by decide +kernel

theorem enqRC (slave : Byte) (addr qty : Word) : Statement (.enqRC slave addr qty) :=
  of_row rfl ⟨rfl, rfl⟩

theorem enqRHR (slave : Byte) (addr qty : Word) : Statement (.enqRHR slave addr qty) :=
  of_row rfl ⟨rfl, rfl⟩

theorem enqRIR (slave : Byte) (addr qty : Word) : Statement (.enqRIR slave addr qty) :=
  of_row rfl ⟨rfl, rfl⟩

theorem enqWSC (slave : Byte) (addr value : Word) : Statement (.enqWSC slave addr value) :=
  of_row rfl ⟨rfl, rfl⟩

theorem enqWSR (slave : Byte) (addr value : Word) : Statement (.enqWSR slave addr value) :=
  of_row rfl ⟨rfl, rfl⟩

theorem enqWMC (slave : Byte) (addr : Word) (values : List Word) : Statement (.enqWMC slave addr values) :=
  of_row rfl ⟨rfl, rfl⟩

theorem enqWMR (slave : Byte) (addr : Word) (values : List Word) : Statement (.enqWMR slave addr values) :=
  of_row rfl ⟨rfl, rfl⟩

theorem enqRFR (slave : Byte) (file recno reclen : Word) : Statement (.enqRFR slave file recno reclen) :=
  of_row rfl ⟨rfl, rfl⟩

theorem poll (now : Time) (chunk : List Byte) : Statement (.poll now chunk) :=
  of_row rfl ⟨rfl, rfl⟩

theorem rxpush (now : Time) (chunk : List Byte) : Statement (.rxpush now chunk) :=
  of_row rfl ⟨rfl, rfl⟩

theorem cfgwr (reg : Byte) (data : Time) : Statement (.cfgwr reg data) :=
  of_row rfl ⟨rfl, rfl⟩

theorem cfgrd (reg : Byte) : Statement (.cfgrd reg) := of_row rfl ⟨rfl, rfl⟩

theorem qclear : Statement .qclear := of_row rfl ⟨rfl, rfl⟩

theorem qcount : Statement .qcount := of_row rfl ⟨rfl, rfl⟩

theorem qempty : Statement .qempty := of_row rfl ⟨rfl, rfl⟩

theorem crc16 (seed : Word) (bytes : List Byte) : Statement (.crc16 seed bytes) :=
  of_row rfl ⟨rfl, rfl⟩

theorem putw (value : Word) : Statement (.putw value) := of_row rfl ⟨rfl, rfl⟩

theorem getw (b0 b1 : Byte) : Statement (.getw b0 b1) := of_row rfl ⟨rfl, rfl⟩

theorem putwf (value : Word) : Statement (.putwf value) := of_row rfl ⟨rfl, rfl⟩

theorem getwf (b0 b1 : Byte) : Statement (.getwf b0 b1) := of_row rfl ⟨rfl, rfl⟩

theorem reqRC (f : ReqForm) : Statement (.reqRC f) := by
  cases f <;> exact of_row rfl ⟨rfl, rfl⟩

theorem reqRHR (f : ReqForm) : Statement (.reqRHR f) := by
  cases f <;> exact of_row rfl ⟨rfl, rfl⟩

theorem reqRIR (f : ReqForm) : Statement (.reqRIR f) := by
  cases f <;> exact of_row rfl ⟨rfl, rfl⟩

theorem reqWSC (f : ReqForm) : Statement (.reqWSC f) := by
  cases f <;> exact of_row rfl ⟨rfl, rfl⟩

theorem reqWSR (f : ReqForm) : Statement (.reqWSR f) := by
  cases f <;> exact of_row rfl ⟨rfl, rfl⟩

theorem reqWMC (f : ReqForm) : Statement (.reqWMC f) := by
  cases f <;> exact of_row rfl ⟨rfl, rfl⟩

theorem reqWMR (f : ReqForm) : Statement (.reqWMR f) := by
  cases f <;> exact of_row rfl ⟨rfl, rfl⟩

theorem reqRFR (f : ReqForm) : Statement (.reqRFR f) := by
  cases f <;> exact of_row rfl ⟨rfl, rfl⟩

theorem reqUNSUP (f : UnsupForm) : Statement (.reqUNSUP f) := by
  intro h
  cases f with
  | enc slave fn =>
    simp only [Instr.wf, UnsupForm.wf, Bool.not_eq_true'] at h
    exact ⟨rfl, BitVec.and_zero, fun _ => h⟩
  | dec off => exact ⟨rfl, BitVec.and_zero, fun _ => (by decide : Config.supported.contains 0x00 = false)⟩

theorem rspRC (f : RspForm) : Statement (.rspRC f) := by
  cases f <;> exact of_row rfl ⟨rfl, rfl⟩

theorem rspRHR (f : RspForm) : Statement (.rspRHR f) := by
  cases f <;> exact of_row rfl ⟨rfl, rfl⟩

theorem rspRIR (f : RspForm) : Statement (.rspRIR f) := by
  cases f <;> exact of_row rfl ⟨rfl, rfl⟩

theorem rspWSC (f : RspForm) : Statement (.rspWSC f) := by
  cases f <;> exact of_row rfl ⟨rfl, rfl⟩

theorem rspWSR (f : RspForm) : Statement (.rspWSR f) := by
  cases f <;> exact of_row rfl ⟨rfl, rfl⟩

theorem rspWMC (f : RspForm) : Statement (.rspWMC f) := by
  cases f <;> exact of_row rfl ⟨rfl, rfl⟩

theorem rspWMR (f : RspForm) : Statement (.rspWMR f) := by
  cases f <;> exact of_row rfl ⟨rfl, rfl⟩

theorem rspRFR (f : RspForm) : Statement (.rspRFR f) := by
  cases f <;> exact of_row rfl ⟨rfl, rfl⟩

theorem rspEXC (f : ExcForm) : Statement (.rspEXC f) := by
  intro h
  cases f with
  | enc slave fn code => exact ⟨rfl, bit7_mask fn h, fun h0 => absurd h0 (by simp [row])⟩
  | dec off => exact ⟨rfl, (by decide : (0x80 : Byte) &&& 0x80 = 0x80), fun h0 => absurd h0 (by simp [row])⟩

end Sys2Proof.Laws.FixedBits
end

