-- ==== Sys2Proof/Tests/Slice0.lean ====
section
/-! SUPPORT. Tests. Expected values are those of spec/95_test_vectors.md (V<n>, S<n>, P<n>) and of the worked examples
of the rules cited, never the model's own answers. After the tests, for every statement with hypotheses, a state and
operands that meet them, clause by clause. -/

namespace Sys2Proof.Tests

open Sys2Proof Sys2Proof.Machine Sys2Proof.Safety

/-! The kernel evaluations below would each hold a thread: one after the other they need less memory. -/

set_option Elab.async false

/-! Helpers. -/

/-- The next state, if there is one. -/
def after (i : Instr) (s : State) : Option State :=
  match exec i s with
  | .next t => some t
  | _ => none

theorem next_of_after {i : Instr} {s : State} (h : (after i s).isSome = true) : ∃ t, exec i s = .next t := by
  unfold after at h
  split at h
  · exact ⟨_, by assumption⟩
  · cases h

/-- The fault, if there is one. -/
def faultOf (i : Instr) (s : State) : Option Fault :=
  match exec i s with
  | .fault f => some f
  | _ => none

/-- The result port afterwards. -/
def resultOf (i : Instr) (s : State) : Option Result := (after i s).bind State.result

/-- The value on the result port afterwards. -/
def valueOf (i : Instr) (s : State) : Option Value := (resultOf i s).map Result.value

/-- The status on the result port afterwards. -/
def statusOf (i : Instr) (s : State) : Option Status := (resultOf i s).map Result.status

/-- `Except.ok`'s content. -/
def okOf {α : Type} (x : Except Fault α) : Option α :=
  match x with
  | .ok a => some a
  | .error _ => none

/-- A master after reset, configured as in vectors V190 and P1. -/
def master : State :=
  { State.reset with responseTo := 100, frameTo := 4, turnaround := 5, retries := 2, txAns := [true, true] }

/-- A slave after reset, configured as in vectors V200 and P3. -/
def slave : State := { State.resetOf { Params.default with role := .slave } with frameTo := 4, txAns := [true] }

/-- A state with these bytes received at time `t`. -/
def holding (bs : List Byte) (t : Time) (s : State) : State :=
  { s with rxb := Memory.ofBytes bs, rxn := bs.length, lastRx := t }

/-- The request of S1. -/
def readTwo : Request := { slave := 1, fn := 0x03, addr := 0, qty := 2, retries := 2 }

/-- A master that waits for the answer to a request. -/
def waiting (r : Request) : State := { master with q := [r], cur := r, curq := true, mstate := .waitingForResponse, lastTx := 10 }

/-- V40. -/
def s1Frame : List Byte := [0x01, 0x03, 0x00, 0x00, 0x00, 0x02, 0xC4, 0x0B]

/-- V100. -/
def s1Answer : List Byte := [0x01, 0x03, 0x04, 0x00, 0x0A, 0x01, 0x02, 0x5A, 0x60]

/-- The coils of S9, true first. -/
def tenCoils : List Word := [1, 0, 1, 0, 1, 0, 1, 0, 1, 0]

/-! Well-formedness: each check refuses a term that breaks it. -/

theorem test_wf_refuses_offset :
    (Instr.reqRC (.dec 8192)).wf = false ∧ (Instr.reqRHR (.dec 8192)).wf = false ∧
    (Instr.reqRIR (.dec 8192)).wf = false ∧ (Instr.reqWSC (.dec 8192)).wf = false ∧
    (Instr.reqWSR (.dec 8192)).wf = false ∧ (Instr.reqWMC (.dec 8192)).wf = false ∧
    (Instr.reqWMR (.dec 8192)).wf = false ∧ (Instr.reqRFR (.dec 8192)).wf = false ∧
    (Instr.reqUNSUP (.dec 8192)).wf = false ∧ (Instr.rspRC (.dec 8192 {})).wf = false ∧
    (Instr.rspRHR (.dec 8192 {})).wf = false ∧ (Instr.rspRIR (.dec 8192 {})).wf = false ∧
    (Instr.rspWSC (.dec 8192 {})).wf = false ∧ (Instr.rspWSR (.dec 8192 {})).wf = false ∧
    (Instr.rspWMC (.dec 8192 {})).wf = false ∧ (Instr.rspWMR (.dec 8192 {})).wf = false ∧
    (Instr.rspRFR (.dec 8192 {})).wf = false ∧ (Instr.rspEXC (.dec 8192)).wf = false := by decide +kernel

theorem test_wf_accepts_last_offset : (Instr.reqRC (.dec 8191)).wf = true ∧ (Instr.rspEXC (.dec 8191)).wf = true := by
  decide +kernel

theorem test_wf_refuses_supported_as_unsupported :
    (Instr.reqUNSUP (.enc 1 0x03)).wf = false ∧ (Instr.reqUNSUP (.enc 1 0x99)).wf = true := by decide +kernel

theorem test_wf_refuses_exception_without_bit7 :
    (Instr.rspEXC (.enc 1 0x03 2)).wf = false ∧ (Instr.rspEXC (.enc 1 0x83 2)).wf = true := by decide +kernel

/-! Decoding of port words: every constructor, from the codes of 30_encoding.md R96 and R111. -/

theorem test_decode_enqueue :
    decode { code := 0x01, slave := 0x11, addr := 0x0013, qty := 0x0025 } = .ok (.enqRC 0x11 0x0013 0x0025) ∧
    decode { code := 0x03, slave := 1, addr := 0, qty := 2 } = .ok (.enqRHR 1 0 2) ∧
    decode { code := 0x04, slave := 1, addr := 8, qty := 1 } = .ok (.enqRIR 1 8 1) ∧
    decode { code := 0x05, slave := 1, addr := 0x00AC, value := 1 } = .ok (.enqWSC 1 0x00AC 1) ∧
    decode { code := 0x06, slave := 1, addr := 1, value := 3 } = .ok (.enqWSR 1 1 3) ∧
    decode { code := 0x0F, slave := 1, addr := 0x0013, values := [1, 0] } = .ok (.enqWMC 1 0x0013 [1, 0]) ∧
    decode { code := 0x10, slave := 1, addr := 1, values := [0x000A, 0x0102] } = .ok (.enqWMR 1 1 [0x000A, 0x0102]) ∧
    decode { code := 0x14, slave := 1, file := 4, recno := 1, reclen := 2 } = .ok (.enqRFR 1 4 1 2) :=
  ⟨rfl, rfl, rfl, rfl, rfl, rfl, rfl, rfl⟩

theorem test_decode_control :
    decode { code := 0x80, now := 130, chunk := [0x01, 0x03] } = .ok (.poll 130 [0x01, 0x03]) ∧
    decode { code := 0x81, now := 100, chunk := [0x01, 0x03] } = .ok (.rxpush 100 [0x01, 0x03]) ∧
    decode { code := 0x82, reg := 0x03, data := 300 } = .ok (.cfgwr 0x03 300) ∧
    decode { code := 0x83, reg := 0x11 } = .ok (.cfgrd 0x11) ∧
    decode { code := 0x84 } = .ok .qclear ∧
    decode { code := 0x85 } = .ok .qcount ∧
    decode { code := 0x86 } = .ok .qempty := ⟨rfl, rfl, rfl, rfl, rfl, rfl, rfl⟩

theorem test_decode_unit :
    decode { code := 0xC0, seed := 0xFFFF, bytes := [0x01] } = .ok (.crc16 0xFFFF [0x01]) ∧
    decode { code := 0xC1, value := 0x1234 } = .ok (.putw 0x1234) ∧
    decode { code := 0xC2, b0 := 0x12, b1 := 0x34 } = .ok (.getw 0x12 0x34) ∧
    decode { code := 0xC3, value := 0x1234 } = .ok (.putwf 0x1234) ∧
    decode { code := 0xC4, b0 := 0x12, b1 := 0x34 } = .ok (.getwf 0x12 0x34) := ⟨rfl, rfl, rfl, rfl, rfl⟩

theorem test_decode_request_rows :
    decode { lang := .request, code := 0x01, form := .dec, off := 3 } = .ok (.reqRC (.dec 3)) ∧
    decode { lang := .request, code := 0x03, slave := 1, qty := 2 } = .ok (.reqRHR (.enc { slave := 1, qty := 2 })) ∧
    decode { lang := .request, code := 0x04, slave := 1, addr := 8 } = .ok (.reqRIR (.enc { slave := 1, addr := 8 })) ∧
    decode { lang := .request, code := 0x05, slave := 1, values := [1] } = .ok (.reqWSC (.enc { slave := 1, values := [1] })) ∧
    decode { lang := .request, code := 0x06, slave := 1, values := [3] } = .ok (.reqWSR (.enc { slave := 1, values := [3] })) ∧
    decode { lang := .request, code := 0x0F, form := .dec, off := 8191 } = .ok (.reqWMC (.dec 8191)) ∧
    decode { lang := .request, code := 0x10, form := .dec } = .ok (.reqWMR (.dec 0)) ∧
    decode { lang := .request, code := 0x14, file := 4, recno := 1, reclen := 2 } =
      .ok (.reqRFR (.enc { file := 4, recno := 1, reclen := 2 })) ∧
    decode { lang := .request, code := 0x99, form := .dec, off := 2 } = .ok (.reqUNSUP (.dec 2)) :=
  ⟨rfl, rfl, rfl, rfl, rfl, rfl, rfl, rfl, rfl⟩

theorem test_decode_response_rows :
    decode { lang := .response, code := 0x01, qty := 1, values := [1] } = .ok (.rspRC (.enc { qty := 1, values := [1] })) ∧
    decode { lang := .response, code := 0x03, form := .dec, off := 2, qty := 2 } = .ok (.rspRHR (.dec 2 { qty := 2 })) ∧
    decode { lang := .response, code := 0x04, qty := 1 } = .ok (.rspRIR (.enc { qty := 1 })) ∧
    decode { lang := .response, code := 0x05, addr := 0xAC } = .ok (.rspWSC (.enc { addr := 0xAC })) ∧
    decode { lang := .response, code := 0x06, form := .dec, values := [3] } = .ok (.rspWSR (.dec 0 { values := [3] })) ∧
    decode { lang := .response, code := 0x0F, qty := 10 } = .ok (.rspWMC (.enc { qty := 10 })) ∧
    decode { lang := .response, code := 0x10, form := .dec, qty := 2 } = .ok (.rspWMR (.dec 0 { qty := 2 })) ∧
    decode { lang := .response, code := 0x14, slave := 1 } = .ok (.rspRFR (.enc { slave := 1 })) ∧
    decode { lang := .response, code := 0x83, slave := 1, excCode := 2 } = .ok (.rspEXC (.enc 1 0x83 2)) :=
  ⟨rfl, rfl, rfl, rfl, rfl, rfl, rfl, rfl, rfl⟩

/-- V170. -/
theorem test_decode_reserved :
    decode { code := 0x02 } = .error (.reservedOpcode 0x02) ∧ decode { code := 0x07 } = .error (.reservedOpcode 0x07) ∧
    decode { code := 0x87 } = .error (.reservedOpcode 0x87) ∧ decode { code := 0xC5 } = .error (.reservedOpcode 0xC5) ∧
    decode { code := 0xFF } = .error (.reservedOpcode 0xFF) := ⟨rfl, rfl, rfl, rfl, rfl⟩

/-! The CRC Engine and the Word Codec. -/

/-- V12, V15. -/
theorem test_crc16 :
    valueOf (.crc16 0xFFFF [0x01, 0x03, 0x00, 0x00, 0x00, 0x02]) master = some (.word 0x0BC4) ∧
    valueOf (.crc16 0xFFFF [0x31, 0x32, 0x33, 0x34, 0x35, 0x36, 0x37, 0x38, 0x39]) slave = some (.word 0x4B37) := by
  decide +kernel

/-- V4. -/
theorem test_crc_shifts :
    crcShift 0xFFFE = 0x7FFF ∧ crcShift 0x7FFF = 0x9FFE ∧ crcShift 0x9FFE = 0x4FFF ∧ crcStep 0xFFFF 0x01 = 0x807E := by
  decide +kernel

/-- V20, V27. -/
theorem test_putw :
    valueOf (.putw 0x1234) master = some (.bytePair 0x12 0x34) ∧
    valueOf (.putw 0x00FF) master = some (.bytePair 0x00 0xFF) := by decide +kernel

/-- V21, V28. -/
theorem test_getw :
    valueOf (.getw 0x12 0x34) master = some (.word 0x1234) ∧ valueOf (.getw 0xFF 0x00) master = some (.word 0xFF00) := by
  decide +kernel

/-- V22. -/
theorem test_putwf : valueOf (.putwf 0x1234) master = some (.bytePair 0x34 0x12) := by decide +kernel

/-- V23, V29. -/
theorem test_getwf :
    valueOf (.getwf 0x12 0x34) master = some (.word 0x3412) ∧ valueOf (.getwf 0xC4 0x0B) master = some (.word 0x0BC4) := by
  decide +kernel

/-! Request frames. -/

/-- V41, V130's layout. -/
theorem test_reqRC :
    (after (.reqRC (.enc { slave := 0x11, addr := 0x0013, qty := 0x0025 })) master).map txBytes =
      some [0x11, 0x01, 0x00, 0x13, 0x00, 0x25, 0x0E, 0x84] ∧
    valueOf (.reqRC (.dec 0)) (holding [0x11, 0x01, 0x00, 0x13, 0x00, 0x25, 0x0E, 0x84] 0 slave) =
      some (.request (some { slave := 0x11, fn := 0x01, addr := 0x13, qty := 0x25 })) := by decide +kernel

/-- V40, V130. -/
theorem test_reqRHR :
    valueOf (.reqRHR (.enc { slave := 1, addr := 0, qty := 2 })) master = some (.frame s1Frame) ∧
    valueOf (.reqRHR (.dec 0)) (holding s1Frame 0 slave) =
      some (.request (some { slave := 1, fn := 0x03, addr := 0, qty := 2 })) := by decide +kernel

/-- V43. -/
theorem test_reqRIR :
    valueOf (.reqRIR (.enc { slave := 1, addr := 8, qty := 1 })) master =
      some (.frame [0x01, 0x04, 0x00, 0x08, 0x00, 0x01, 0xB0, 0x08]) ∧
    valueOf (.reqRIR (.dec 0)) (holding [0x01, 0x04, 0x00, 0x08, 0x00, 0x01, 0xB0, 0x08] 0 slave) =
      some (.request (some { slave := 1, fn := 0x04, addr := 8, qty := 1 })) := by decide +kernel

/-- V46, V141. -/
theorem test_reqWSC :
    valueOf (.reqWSC (.enc { slave := 1, addr := 0x00AC, values := [0x1234] })) master =
      some (.frame [0x01, 0x05, 0x00, 0xAC, 0xFF, 0x00, 0x4C, 0x1B]) ∧
    valueOf (.reqWSC (.dec 0)) (holding [0x01, 0x05, 0x00, 0xAC, 0x00, 0x01, 0xCC, 0x2B] 0 slave) =
      some (.request (some { slave := 1, fn := 0x05, addr := 0xAC, qty := 1, values := [0x0001] })) := by decide +kernel

/-- V53, V131. -/
theorem test_reqWSR :
    valueOf (.reqWSR (.enc { slave := 0, addr := 0x0010, values := [0x1234] })) master =
      some (.frame [0x00, 0x06, 0x00, 0x10, 0x12, 0x34, 0x84, 0xA9]) ∧
    valueOf (.reqWSR (.dec 2)) (holding [0xFF, 0xFF, 0x01, 0x06, 0x00, 0x01, 0x00, 0x03, 0x98, 0x0B] 0 slave) =
      some (.request (some { slave := 1, fn := 0x06, addr := 1, qty := 1, values := [3] })) := by decide +kernel

/-- V47, V135. -/
theorem test_reqWMC :
    valueOf (.reqWMC (.enc { slave := 1, addr := 0x0013, qty := 10, values := tenCoils })) master =
      some (.frame [0x01, 0x0F, 0x00, 0x13, 0x00, 0x0A, 0x02, 0x55, 0x01, 0x19, 0x0B]) ∧
    valueOf (.reqWMC (.dec 0)) (holding [0x01, 0x0F, 0x00, 0x13, 0x00, 0x0A, 0x02, 0x55, 0x01, 0x19, 0x0B] 0 slave) =
      some (.request (some { slave := 1, fn := 0x0F, addr := 0x13, qty := 10, values := tenCoils })) := by decide +kernel

/-- V50. -/
theorem test_reqWMC_ninth_coil :
    valueOf (.reqWMC (.enc { slave := 1, addr := 0, qty := 9, values := [1, 1, 1, 1, 1, 1, 1, 1, 1] })) master =
      some (.frame [0x01, 0x0F, 0x00, 0x00, 0x00, 0x09, 0x02, 0xFF, 0x01, 0x65, 0x4C]) := by decide +kernel

/-- V55, V139. -/
theorem test_reqWMR :
    valueOf (.reqWMR (.enc { slave := 1, addr := 1, qty := 2, values := [0x000A, 0x0102] })) master =
      some (.frame [0x01, 0x10, 0x00, 0x01, 0x00, 0x02, 0x04, 0x00, 0x0A, 0x01, 0x02, 0x92, 0x30]) ∧
    valueOf (.reqWMR (.dec 0))
        (holding [0x01, 0x10, 0x00, 0x01, 0x00, 0x02, 0x04, 0x00, 0x0A, 0x01, 0x02, 0x92, 0x30] 0 slave) =
      some (.request (some { slave := 1, fn := 0x10, addr := 1, qty := 2, values := [0x000A, 0x0102] })) := by
  decide +kernel

/-- V62, V140. -/
theorem test_reqWMR_limits :
    faultOf (.reqWMR (.enc { slave := 1, qty := 124, values := List.replicate 124 0 })) master = some .encodeOverflow ∧
    valueOf (.reqWMR (.dec 0)) (holding [0x01, 0x10, 0x00, 0x01, 0x00, 0x02, 0x02, 0x00, 0x0A, 0x27, 0xC2] 0 slave) =
      some (.request none) := by decide +kernel

/-- V57, V143. -/
theorem test_reqRFR :
    valueOf (.reqRFR (.enc { slave := 1, file := 4, recno := 1, reclen := 2 })) master =
      some (.frame [0x01, 0x14, 0x07, 0x06, 0x00, 0x04, 0x00, 0x01, 0x00, 0x02, 0xD8, 0xE5]) ∧
    valueOf (.reqRFR (.dec 0)) (holding [0x01, 0x14, 0x00, 0x00, 0x00, 0x04, 0x00, 0x01, 0x00, 0x02, 0xFF, 0x03] 0 slave) =
      some (.request (some { slave := 1, fn := 0x14, file := 4, recno := 1, reclen := 2 })) := by decide +kernel

/-- V147; the encoder has no layout (R154). -/
theorem test_reqUNSUP :
    valueOf (.reqUNSUP (.dec 0)) (holding [0x01, 0x2B, 0x0E, 0x01, 0x00, 0x70, 0x77] 0 slave) =
      some (.request (some { slave := 1, fn := 0x2B })) ∧
    faultOf (.reqUNSUP (.enc 1 0x99)) master = some .encodeUnsupported := by decide +kernel

/-! Response frames. -/

/-- V70, V115; a coil value that is neither 0 nor 1 (10_state.md R23, 60_exceptions.md R322). -/
theorem test_rspRC :
    valueOf (.rspRC (.enc { slave := 1, qty := 10, values := tenCoils })) slave =
      some (.frame [0x01, 0x01, 0x02, 0x55, 0x01, 0x47, 0x6C]) ∧
    valueOf (.rspRC (.dec 0 { addr := 0x13, qty := 10 })) (holding [0x01, 0x01, 0x02, 0x55, 0x01, 0x47, 0x6C] 0 master) =
      some (.response (some (.normal { slave := 1, fn := 0x01, addr := 0x13, qty := 10, values := tenCoils }))) ∧
    faultOf (.rspRC (.enc { slave := 1, qty := 2, values := [1, 2] })) slave = some .badShape := by
  decide +kernel

/-- V72, V101. -/
theorem test_rspRHR :
    valueOf (.rspRHR (.enc { slave := 1, qty := 2, values := [0x000A, 0x0102] })) slave = some (.frame s1Answer) ∧
    valueOf (.rspRHR (.dec 2 { qty := 2 })) (holding ([0x00, 0xFF] ++ s1Answer ++ [0x77]) 0 master) =
      some (.response (some (.normal { slave := 1, fn := 0x03, qty := 2, values := [0x000A, 0x0102] }))) := by
  decide +kernel

/-- V73. -/
theorem test_rspRIR :
    valueOf (.rspRIR (.enc { slave := 1, qty := 1, values := [0xFFFF] })) slave =
      some (.frame [0x01, 0x04, 0x02, 0xFF, 0xFF, 0xB8, 0x80]) ∧
    valueOf (.rspRIR (.dec 0 { addr := 8, qty := 1 })) (holding [0x01, 0x04, 0x02, 0xFF, 0xFF, 0xB8, 0x80] 0 master) =
      some (.response (some (.normal { slave := 1, fn := 0x04, addr := 8, qty := 1, values := [0xFFFF] }))) := by
  decide +kernel

/-- V74, V117. -/
theorem test_rspWSC :
    valueOf (.rspWSC (.enc { slave := 1, addr := 0x00AC, qty := 1, values := [1] })) slave =
      some (.frame [0x01, 0x05, 0x00, 0xAC, 0xFF, 0x00, 0x4C, 0x1B]) ∧
    valueOf (.rspWSC (.dec 0 { addr := 0x00AC, values := [0] }))
      (holding [0x01, 0x05, 0x00, 0xAC, 0xFF, 0x00, 0x4C, 0x1B] 0 master) = some (.response none) := by decide +kernel

/-- V75, V118. -/
theorem test_rspWSR :
    valueOf (.rspWSR (.enc { slave := 1, addr := 1, qty := 1, values := [3] })) slave =
      some (.frame [0x01, 0x06, 0x00, 0x01, 0x00, 0x03, 0x98, 0x0B]) ∧
    valueOf (.rspWSR (.dec 0 { addr := 1, values := [3] }))
        (holding [0x01, 0x06, 0x00, 0x01, 0x00, 0x03, 0x98, 0x0B] 0 master) =
      some (.response (some (.normal { slave := 1, fn := 0x06, addr := 1, qty := 1, values := [3] }))) := by decide +kernel

/-- V76, V119. -/
theorem test_rspWMC :
    valueOf (.rspWMC (.enc { slave := 1, addr := 0x0013, qty := 10 })) slave =
      some (.frame [0x01, 0x0F, 0x00, 0x13, 0x00, 0x0A, 0x24, 0x09]) ∧
    valueOf (.rspWMC (.dec 0 { addr := 0x0013, qty := 9 }))
      (holding [0x01, 0x0F, 0x00, 0x13, 0x00, 0x0A, 0x24, 0x09] 0 master) = some (.response none) := by decide +kernel

/-- V77, V120. -/
theorem test_rspWMR :
    valueOf (.rspWMR (.enc { slave := 1, addr := 1, qty := 2 })) slave =
      some (.frame [0x01, 0x10, 0x00, 0x01, 0x00, 0x02, 0x10, 0x08]) ∧
    valueOf (.rspWMR (.dec 0 { addr := 1, qty := 2 })) (holding [0x01, 0x10, 0x00, 0x01, 0x00, 0x02, 0x10, 0x08] 0 master) =
      some (.response (some (.normal { slave := 1, fn := 0x10, addr := 1, qty := 2 }))) := by decide +kernel

/-- V78, V121. -/
theorem test_rspRFR :
    valueOf (.rspRFR (.enc { slave := 1, qty := 2, values := [0x0DFE, 0x0020] })) slave =
      some (.frame [0x01, 0x14, 0x06, 0x05, 0x06, 0x0D, 0xFE, 0x00, 0x20, 0x8B, 0x4E]) ∧
    valueOf (.rspRFR (.dec 0 {})) (holding [0x01, 0x14, 0x06, 0x05, 0x06, 0x0D, 0xFE, 0x00, 0x20, 0x8B, 0x4E] 0 master) =
      some (.response (some (.normal { slave := 1, fn := 0x14, addr := 0, qty := 2, values := [0x0DFE, 0x0020] }))) := by
  decide +kernel

/-- V80, V109. -/
theorem test_rspEXC :
    valueOf (.rspEXC (.enc 1 0x83 0x02)) slave = some (.frame [0x01, 0x83, 0x02, 0xC0, 0xF1]) ∧
    valueOf (.rspEXC (.dec 0)) (holding [0x01, 0x83, 0x02, 0xC0, 0xF1] 0 master) =
      some (.response (some (.exception { slave := 1, fn := 0x83, code := 2 }))) := by decide +kernel

/-- V84, V85. -/
theorem test_response_encoder_faults :
    encodeResponse (.normal { slave := 1, fn := 0x2B }) = .error .encodeUnsupported ∧
    encodeResponse (.normal { slave := 1, fn := 0x03, qty := 2, values := [7] }) = .error .badShape := ⟨rfl, rfl⟩

/-! The scans. -/

/-- V103, V104, V111. -/
theorem test_master_scan :
    okOf (findM ([0x01, 0x03] ++ s1Answer) 1 0x03) = some (some ⟨2, 9, false⟩) ∧
    okOf (findM [0x01, 0x03, 0x04, 0x00, 0x0A, 0x01, 0x02, 0x5A] 1 0x03) = some none ∧
    okOf (findM ([0x01, 0x83, 0x02, 0xC0, 0xF1] ++ s1Answer) 1 0x03) = some (some ⟨0, 5, true⟩) := by decide +kernel

/-- V102. -/
theorem test_master_scan_long_prefix :
    okOf (findM ([0xA5, 0x4D, 0xCA, 0x18, 0x25, 0x30, 0xBB, 0x1D, 0x6D, 0x13, 0x2C, 0xDE, 0xD6, 0x23, 0x7B, 0x2E, 0xD9,
      0x1E, 0x3F, 0x72, 0x1F, 0xCB, 0x19, 0x71, 0x17, 0x44, 0x94, 0xD6, 0x49, 0x3C, 0x9D, 0x5C] ++ s1Answer ++
      [0xDE, 0xAD]) 1 0x03) = some (some ⟨32, 9, false⟩) := by decide +kernel

/-- V131, V132, V136, V146, V149. -/
theorem test_slave_scan :
    okOf (findS [0xFF, 0xFF, 0x01, 0x06, 0x00, 0x01, 0x00, 0x03, 0x98, 0x0B]) = some (some ⟨2, 8, false⟩) ∧
    okOf (findS [0xF7, 0x03, 0x00, 0x00, 0x00, 0x01, 0x90, 0x9C]) = some none ∧
    okOf (findS [0x01, 0x0F, 0x00, 0x13, 0x00, 0x0A]) = some none ∧
    okOf (findS [0x01, 0x99, 0xC0, 0x4A, 0x00]) = some (some ⟨0, 5, false⟩) ∧
    okOf (findS [0x01, 0x99, 0xC0, 0x4A, 0x01]) = some none := by decide +kernel

/-! Enqueue, queue and configuration commands. -/

/-- R222 to R224 and P1 step 5: the retry counter is the configured one. -/
theorem test_enqueue_reads :
    (after (.enqRC 0x11 0x0013 0x0025) master).map State.q =
      some [{ slave := 0x11, fn := 0x01, addr := 0x0013, qty := 0x0025, retries := 2 }] ∧
    (after (.enqRHR 1 0 2) master).map State.q = some [readTwo] ∧
    (after (.enqRIR 1 8 1) master).map State.q = some [{ slave := 1, fn := 0x04, addr := 8, qty := 1, retries := 2 }] := by
  decide +kernel

/-- R225 to R229. -/
theorem test_enqueue_writes :
    (after (.enqWSC 1 0x00AC 0x1234) master).map State.q =
      some [{ slave := 1, fn := 0x05, addr := 0x00AC, qty := 1, values := [0x1234], retries := 2 }] ∧
    (after (.enqWSR 1 1 4) master).map State.q =
      some [{ slave := 1, fn := 0x06, addr := 1, qty := 1, values := [4], retries := 2 }] ∧
    (after (.enqWMC 1 0x0013 tenCoils) master).map State.q =
      some [{ slave := 1, fn := 0x0F, addr := 0x0013, qty := 10, values := tenCoils, retries := 2 }] ∧
    (after (.enqWMR 1 1 [0x000A, 0x0102]) master).map State.q =
      some [{ slave := 1, fn := 0x10, addr := 1, qty := 2, values := [0x000A, 0x0102], retries := 2 }] ∧
    (after (.enqRFR 1 4 1 2) master).map State.q =
      some [{ slave := 1, fn := 0x14, file := 4, recno := 1, reclen := 2, retries := 2 }] := by decide +kernel

/-- V168, V171, V172. -/
theorem test_enqueue_refusals :
    statusOf (.enqRHR 1 0 1) slave = some .illegalCmd ∧
    statusOf (.enqRHR 1 0 1) { master with params := { Params.default with qdepth := some 2 }, q := [readTwo, readTwo] } =
      some .qfull ∧
    statusOf (.enqWMC 1 0 (List.replicate 2041 1)) { master with params := { Params.default with vmax := some 2040 } } =
      some .badShape := by decide +kernel

/-- V173, P9 step 7, V169. -/
theorem test_queue_commands :
    valueOf .qempty master = some (.bool true) ∧ valueOf .qcount (waiting readTwo) = some (.count 1) ∧
    (after .qclear (waiting readTwo)).map (fun t => (t.q, t.curq, t.mstate)) = some ([], false, .waitingForResponse) ∧
    statusOf .qcount slave = some .illegalCmd := by decide +kernel

/-- V160 to V164. -/
theorem test_cfgwr :
    (after (.cfgwr 0x00 1000) master).map State.responseTo = some 1000 ∧
    (after (.cfgwr 0x03 300) master).map State.retries = some 44 ∧
    statusOf (.cfgwr 0x00 1000) slave = some .badReg ∧ statusOf (.cfgwr 0x04 1) master = some .badReg ∧
    statusOf (.cfgwr 0x10 1) master = some .badReg := by decide +kernel

/-- V166, V167; 10_state.md R30's encoding of `WaitingForResponse`. -/
theorem test_cfgrd :
    valueOf (.cfgrd 0x11) State.reset = some (.time 0) ∧ statusOf (.cfgrd 0x20) State.reset = some .badReg ∧
    valueOf (.cfgrd 0x10) (waiting readTwo) = some (.time 1) := by decide +kernel

/-! The receive path. -/

/-- V180. -/
theorem test_rxpush_stores :
    (after (.rxpush 100 [0x01, 0x03]) master).map (fun t => (rxBytes t, t.lastRx, t.events)) =
      some ([0x01, 0x03], 100, [.rx [0x01, 0x03]]) := by decide +kernel

/-- V182. -/
theorem test_rxpush_overflow :
    (after (.rxpush 2 [1, 2, 3]) { master with rxn := 8190 }).map (fun t => (t.rxn, t.lastRx, t.events)) =
      some (0, 2, [.rx [1, 2, 3]]) := by decide +kernel

/-! POLL on a master. -/

/-- V190, V191: equality passes. -/
theorem test_poll_turnaround :
    (after (.poll 4 []) { master with q := [readTwo] }).map (fun t => (t.mstate, t.events)) = some (.idle, []) ∧
    (after (.poll 5 []) { master with q := [readTwo] }).map (fun t => (t.mstate, t.lastTx, t.curq, t.events)) =
      some (.waitingForResponse, 5, true, [.tx s1Frame]) := by decide +kernel

/-- V197: the wrap of the time base. -/
theorem test_poll_timeout_wraps :
    (after (.poll 0x60 []) { waiting readTwo with lastTx := 0xFFFFFFFE }).map State.events = some [] ∧
    (after (.poll 0x62 []) { waiting readTwo with lastTx := 0xFFFFFFFE }).map (fun t => (t.events, t.mstate)) =
      some ([.timeout readTwo], .idle) := by decide +kernel

/-- P1 step 10 with the generic callback answering false. -/
theorem test_poll_response :
    (after (.poll 30 []) { holding s1Answer 20 (waiting readTwo) with handledAns := [false, true] }).map
        (fun t => (t.events.length, t.q, t.curq, t.rxn, t.mstate)) = some (2, [], false, 0, .idle) := by decide +kernel

/-- P8 step 6. -/
theorem test_poll_failed_write :
    (after (.poll 10 []) { master with q := [readTwo], txAns := [false] }).map (fun t => (t.lastTx, t.mstate, t.curq, t.events)) =
      some (0, .idle, true, [.tx s1Frame, .diag .txFailed]) := by decide +kernel

/-! POLL on a slave. -/

/-- P4 step 4, S2. -/
theorem test_poll_unsupported :
    (after (.poll 54 []) (holding [0xA5, 0x01, 0x99, 0xC0, 0x4A] 50 slave)).map (fun t => (t.events, t.lastTx, t.rxn)) =
      some ([.tx [0x01, 0x99, 0x01, 0x8B, 0x90]], 54, 0) := by decide +kernel

/-- P3 step 5. -/
theorem test_poll_request :
    (after (.poll 104 []) { holding [0xFF, 0xFF, 0x01, 0x06, 0x00, 0x01, 0x00, 0x03, 0x98, 0x0B] 100 slave with
        respAns := [none, some (.normal { slave := 1, fn := 0x06, addr := 1, qty := 1, values := [3] })] }).map
      (fun t => (t.events, t.lastTx, t.rxn, t.sstate)) =
    some ([.request { slave := 1, fn := 0x06, addr := 1, qty := 1, values := [3] },
      .requestFn 0x06 { slave := 1, fn := 0x06, addr := 1, qty := 1, values := [3] },
      .tx [0x01, 0x06, 0x00, 0x01, 0x00, 0x03, 0x98, 0x0B]], 104, 0, .idle) := by decide +kernel

/-! The port and pseudo-commands. -/

/-- 30_encoding.md R121. -/
theorem test_pseudo :
    Pseudo.expand (.wmcBools 1 0 [true, false]) = [.enqWMC 1 0 [1, 0]] ∧
    Pseudo.expand (.wmrInts 1 0 [-1, 65537]) = [.enqWMR 1 0 [0xFFFF, 0x0001]] ∧
    Pseudo.expand (.crc16Prefix 0xFFFF [1, 3, 9] 2) = [.crc16 0xFFFF [1, 3]] ∧
    Pseudo.expand (.pollPush 5 7 [1]) = [.rxpush 5 [1], .poll 7 []] := by decide +kernel

theorem test_fetch_word :
    decodeTableWord 8 0x85 = some .qcount ∧ decodeTableWord 8 0x02 = none ∧
    (match step (State.reset.withFetchWord 8 0x85) with
      | .next t => t.result
      | _ => none) = some ⟨.ok, .count 0⟩ := by decide +kernel

/-! Witnesses: the hypotheses of every statement that has any, met by concrete states and operands, each clause at a
boundary of its range. -/

theorem witness_StepRunsDecodedInstruction :
    ∃ (s : State) (p : PortWord) (rest : List Input) (i : Instr), s.inputs = .cmd p :: rest ∧ decode p = .ok i :=
  ⟨{ master with inputs := [.cmd { code := 0x85 }] }, { code := 0x85 }, [], .qcount, rfl, rfl⟩

theorem witness_DecodeInvertsEncode :
    (Instr.reqUNSUP (.enc 1 0x99)).wf = true ∧ (Instr.reqRC (.dec 8191)).wf = true ∧
    decode { code := 0xC4, b0 := 1, b1 := 2 } = .ok (.getwf 1 2) := ⟨by decide +kernel, by decide +kernel, rfl⟩

theorem witness_ReservedOpcodeRefused :
    ∃ (s : State) (p : PortWord) (rest : List Input),
      s.inputs = .cmd p :: rest ∧ p.lang = .command ∧ p.code ∉ commandCodes :=
  ⟨{ master with inputs := [.cmd { code := 0x87 }] }, { code := 0x87 }, [], rfl, rfl, by decide +kernel⟩

/-- Both clauses: a response function without a layout, and the first offset that does not exist. -/
theorem witness_RejectedFrameWords :
    (∃ (s : State) (p : PortWord) (rest : List Input), s.inputs = .cmd p :: rest ∧ p.lang = .response ∧ p.form = .enc ∧
      (p.form = .dec → p.off < 8192) ∧ p.code ∉ functionCodes ∧ p.code.getLsbD 7 = false) ∧
    (∃ (s : State) (p : PortWord) (rest : List Input), s.inputs = .cmd p :: rest ∧ p.lang = .response ∧ p.form = .dec ∧
      (p.form = .dec → p.off < 8192) ∧ p.code ∉ functionCodes ∧ p.code.getLsbD 7 = false) ∧
    (∃ (s : State) (p : PortWord) (rest : List Input), s.inputs = .cmd p :: rest ∧ p.lang ≠ .command ∧ p.form = .dec ∧
      8192 ≤ p.off) :=
  ⟨⟨{ master with inputs := [.cmd { lang := .response, code := 0x7F }] }, { lang := .response, code := 0x7F }, [], rfl,
      rfl, rfl, by decide +kernel, by decide +kernel, by decide +kernel⟩,
    ⟨{ master with inputs := [.cmd { lang := .response, code := 0x02, form := .dec, off := 8191 }] },
      { lang := .response, code := 0x02, form := .dec, off := 8191 }, [], rfl,
      rfl, rfl, by decide +kernel, by decide +kernel, by decide +kernel⟩,
    ⟨{ master with inputs := [.cmd { lang := .request, code := 0x01, form := .dec, off := 8192 }] },
      { lang := .request, code := 0x01, form := .dec, off := 8192 }, [], rfl, by decide, rfl, Nat.le_refl _⟩⟩

theorem witness_ResetInput :
    ∃ (s : State) (beside : Option PortWord) (rest : List Input), s.inputs = .rst beside :: rest :=
  ⟨{ waiting readTwo with inputs := [.rst (some { code := 0x80 })] }, some { code := 0x80 }, [], rfl⟩

theorem witness_OverlapRefused :
    ∃ (s : State) (p q : PortWord) (rest : List Input), s.inputs = .overlap p q :: rest :=
  ⟨{ master with inputs := [.overlap { code := 0x80 } { code := 0x85 }] }, { code := 0x80 }, { code := 0x85 }, [], rfl⟩

theorem witness_NothingPresented : ∃ s : State, s.inputs = [] := ⟨State.reset, rfl⟩

/-- V12 against V14: two bytes that differ in one bit. -/
theorem witness_CrcSensitivity : ∃ b b' : Byte, b ≠ b' := ⟨0x02, 0x03, by decide⟩

theorem witness_RequestFramesFixed : ∃ (d : FrameOps) (v : Word) (vs : List Word), d.values = v :: vs :=
  ⟨{ values := [0x1234] }, 0x1234, [], rfl⟩

/-- V63, V64, V61, V62: the last quantity that fits and the first that does not, both commands. -/
theorem witness_RequestFramesWithLists :
    ∀ n ∈ [0, 123, 124, 1976, 1977], ∃ d : FrameOps, d.qty.toNat ≤ d.values.length ∧ d.qty.toNat = n := by
  intro n hn
  refine ⟨{ qty := BitVec.ofNat 16 n, values := List.replicate n 1 }, ?_⟩
  simp only [List.length_replicate]
  revert n
  decide +kernel

theorem witness_ResponseFramesFixed :
    (∃ (d : FrameOps) (v : Word), d.qty = 1 ∧ d.values = [v]) ∧ (∃ d : FrameOps, d.values = [] ∧ d.qty = 0xFFFF) :=
  ⟨⟨{ qty := 1, values := [0xFF00] }, 0xFF00, rfl, rfl⟩, ⟨{ qty := 0xFFFF }, rfl, rfl⟩⟩

/-- The bounds of 42_frame_encode.md R164, R165, R171. -/
theorem witness_ResponseFramesWithLists :
    ∀ n ∈ [0, 124, 125, 126, 2008, 2009], ∃ d : FrameOps, d.values.length = d.qty.toNat ∧ d.qty.toNat = n ∧
      ∀ v ∈ d.values, v = 0 ∨ v = 1 := by
  intro n hn
  refine ⟨{ qty := BitVec.ofNat 16 n, values := List.replicate n 1 }, ?_, ?_,
    fun v hv => .inr (List.eq_of_mem_replicate hv)⟩
  · simp only [List.length_replicate]
    revert n
    decide +kernel
  · revert n
    decide +kernel

theorem witness_EncodeFaults :
    (0x02 : Byte) ∉ functionCodes ∧ (∃ d : FrameOps, d.values = [] ∧ d.values.length < d.qty.toNat) ∧
    (∃ d : FrameOps, d.values.length ≠ d.qty.toNat ∧ ¬ (d.qty = 1 ∧ d.values.length = 1) ∧ d.values ≠ []) ∧
    (∃ d : FrameOps, d.values.length = d.qty.toNat ∧ ∃ v ∈ d.values, 1 < v.toNat) :=
  ⟨by decide +kernel, ⟨{ qty := 1 }, by decide +kernel⟩, ⟨{ qty := 2, values := [7] }, by decide +kernel⟩,
    ⟨{ qty := 2, values := [1, 2] }, by decide +kernel, 2, by decide +kernel, by decide +kernel⟩⟩

theorem witness_EncodedFramesAreSealed :
    encodeRequest readTwo = .ok s1Frame ∧
    encodeResponse (.normal { slave := 1, fn := 0x10, addr := 1, qty := 2 }) =
      .ok [0x01, 0x10, 0x00, 0x01, 0x00, 0x02, 0x10, 0x08] ∧
    encodeResponse (.exception { slave := 1, fn := 0x83, code := 2 }) = .ok [0x01, 0x83, 0x02, 0xC0, 0xF1] := by
  decide +kernel

/-- The first bit of the second byte, and the first unused one. -/
theorem witness_PackCoils :
    (9 : Nat) ≤ (List.replicate 9 (1 : Word)).length ∧ (1 : Nat) < (9 + 7) / 8 ∧ 8 * 1 + 0 < 9 ∧ ¬ 8 * 1 + 1 < 9 := by
  decide +kernel

theorem witness_UnpackInvertsPack : (10 : Nat) ≤ tenCoils.length := by decide

/-- Buffers that hold exactly the bytes read. -/
theorem witness_RequestDecodeFixed :
    ∃ s : State, (rxBytes s).length = 10 ∧ 4 + 6 ≤ (rxBytes s).length ∧ 0 + 10 ≤ (rxBytes s).length ∧
      8 + 2 ≤ (rxBytes s).length :=
  ⟨holding [0xFF, 0xFF, 0x01, 0x06, 0x00, 0x01, 0x00, 0x03, 0x98, 0x0B] 0 slave, by decide +kernel⟩

/-- Byte count 1 against 8 and 9 coils, with the data byte buffered and without it; byte count 4 against 2 and 3 words,
with the last data byte buffered and without it. -/
theorem witness_RequestDecodeLists :
    (∃ (s : State) (q : Word) (bc : Nat), q = wordAt (rxBytes s) 4 ∧ bc = ((rxBytes s).getD 6 0).toNat ∧
      q.toNat = 8 * bc ∧ 0 + 7 + (q.toNat + 7) / 8 = (rxBytes s).length) ∧
    (∃ (s : State) (q : Word) (bc : Nat), q = wordAt (rxBytes s) 4 ∧ bc = ((rxBytes s).getD 6 0).toNat ∧
      q.toNat = 8 * bc ∧ 0 + 7 ≤ (rxBytes s).length ∧ (rxBytes s).length < 0 + 7 + (q.toNat + 7) / 8) ∧
    (∃ (s : State) (q : Word) (bc : Nat), q = wordAt (rxBytes s) 4 ∧ bc = ((rxBytes s).getD 6 0).toNat ∧
      0 + 7 ≤ (rxBytes s).length ∧ q.toNat = 8 * bc + 1) ∧
    (∃ (s : State) (q : Word) (bc : Nat), q = wordAt (rxBytes s) 4 ∧ bc = ((rxBytes s).getD 6 0).toNat ∧
      2 * q.toNat = bc ∧ 0 + 7 + 2 * q.toNat = (rxBytes s).length) ∧
    (∃ (s : State) (q : Word) (bc : Nat), q = wordAt (rxBytes s) 4 ∧ bc = ((rxBytes s).getD 6 0).toNat ∧
      2 * q.toNat = bc ∧ 0 + 7 ≤ (rxBytes s).length ∧ (rxBytes s).length < 0 + 7 + 2 * q.toNat) ∧
    (∃ (s : State) (q : Word) (bc : Nat), q = wordAt (rxBytes s) 4 ∧ bc = ((rxBytes s).getD 6 0).toNat ∧
      0 + 7 ≤ (rxBytes s).length ∧ 2 * q.toNat = bc + 2) :=
  ⟨⟨holding [0x01, 0x0F, 0x00, 0x13, 0x00, 0x08, 0x01, 0x55] 0 slave, 8, 1, by decide +kernel⟩,
    ⟨holding [0x01, 0x0F, 0x00, 0x13, 0x00, 0x08, 0x01] 0 slave, 8, 1, by decide +kernel⟩,
    ⟨holding [0x01, 0x0F, 0x00, 0x13, 0x00, 0x09, 0x01] 0 slave, 9, 1, by decide +kernel⟩,
    ⟨holding [0x01, 0x10, 0x00, 0x01, 0x00, 0x02, 0x04, 0x00, 0x0A, 0x01, 0x02] 0 slave, 2, 4, by decide +kernel⟩,
    ⟨holding [0x01, 0x10, 0x00, 0x01, 0x00, 0x02, 0x04, 0x00, 0x0A, 0x01] 0 slave, 2, 4, by decide +kernel⟩,
    ⟨holding [0x01, 0x10, 0x00, 0x01, 0x00, 0x03, 0x04] 0 slave, 3, 4, by decide +kernel⟩⟩

/-- Byte count 2: sixteen coils and one word fit, seventeen and two do not, with the data bytes buffered and with one
missing; byte counts 1, 2 and 4 around RFR's tests. -/
theorem witness_ResponseDecodeReads :
    (∃ (s : State) (bc n : Nat), bc = ((rxBytes s).getD 2 0).toNat ∧ n = (bc - 2) / 2 ∧
      8 * bc < (17 : Word).toNat ∧ (16 : Word).toNat ≤ 8 * bc ∧ bc < 2 * (2 : Word).toNat ∧
      2 * (1 : Word).toNat ≤ bc ∧ 0 + 3 + ((16 : Word).toNat + 7) / 8 = (rxBytes s).length ∧
      0 + 3 + 2 * (1 : Word).toNat = (rxBytes s).length ∧ 2 ≤ bc ∧ n = 0) ∧
    (∃ (s : State) (bc : Nat), bc = ((rxBytes s).getD 2 0).toNat ∧ (16 : Word).toNat ≤ 8 * bc ∧
      2 * (1 : Word).toNat ≤ bc ∧ 0 + 3 ≤ (rxBytes s).length ∧
      (rxBytes s).length < 0 + 3 + ((16 : Word).toNat + 7) / 8 ∧ (rxBytes s).length < 0 + 3 + 2 * (1 : Word).toNat) ∧
    (∃ s : State, ((rxBytes s).getD 2 0).toNat = 1 ∧ 0 + 3 ≤ (rxBytes s).length) ∧
    (∃ (s : State) (n : Nat), ((rxBytes s).getD 2 0).toNat = 4 ∧ n = (4 - 2) / 2 ∧
      0 + 5 + 2 * n = (rxBytes s).length) ∧
    (∃ (s : State) (n : Nat), ((rxBytes s).getD 2 0).toNat = 4 ∧ n = (4 - 2) / 2 ∧ 0 < n ∧
      0 + 3 ≤ (rxBytes s).length ∧ (rxBytes s).length < 0 + 5 + 2 * n) :=
  ⟨⟨holding [0x01, 0x01, 0x02, 0x55, 0x01] 0 master, 2, 0, by decide +kernel⟩,
    ⟨holding [0x01, 0x01, 0x02, 0x55] 0 master, 2, by decide +kernel⟩,
    ⟨holding [0x01, 0x14, 0x01] 0 master, by decide +kernel⟩,
    ⟨holding [0x01, 0x14, 0x04, 0x03, 0x06, 0x0D, 0xFE] 0 master, 1, by decide +kernel⟩,
    ⟨holding [0x01, 0x14, 0x04, 0x03, 0x06, 0x0D] 0 master, 1, by decide +kernel⟩⟩

/-- The echo of a coil, and the same echo against the other address, the other value and no value. -/
theorem witness_ResponseDecodeEchoes :
    ∃ s : State, 0 + 6 ≤ (rxBytes s).length ∧ 3 + 3 ≤ (rxBytes s).length ∧ wordAt (rxBytes s) 2 = (0x00AC : Word) ∧
      wordAt (rxBytes s) 2 ≠ (0x00AD : Word) ∧ wordAt (rxBytes s) 4 = (if (1 : Word) = 0 then 0x0000 else 0xFF00) ∧
      wordAt (rxBytes s) 4 ≠ (if (0 : Word) = 0 then 0x0000 else 0xFF00) ∧
      ∃ cur : FrameOps, cur.values = [] ∧ wordAt (rxBytes s) 2 = cur.addr :=
  ⟨holding [0x01, 0x05, 0x00, 0xAC, 0xFF, 0x00] 0 master, by decide +kernel, by decide +kernel, by decide +kernel,
    by decide +kernel, by decide +kernel, by decide +kernel, { addr := 0x00AC }, rfl, by decide +kernel⟩

/-- One byte short of each bound. -/
theorem witness_DecodeOutOfBounds :
    (holding [1, 2, 3, 4, 5] 0 master).rxn < 0 + 6 ∧ (holding [1, 2, 3, 4, 5] 0 master).rxn < 0 + 10 ∧
    (holding [1, 2, 3, 4, 5] 0 master).rxn < 0 + 7 ∧ (holding [1, 2, 3, 4, 5] 0 master).rxn < 4 + 2 ∧
    (holding [1, 2, 3, 4, 5] 0 master).rxn < 3 + 3 := by decide +kernel

/-- The highest address a slave takes. -/
theorem witness_RequestRoundTrip :
    ∃ (r : Request) (f : List Byte), r.fn ∈ functionCodes ∧ requestShape r = true ∧ r.slave.toNat < 247 ∧
      encodeRequest r = .ok f :=
  ⟨{ readTwo with slave := 0xF6, qty := 1 }, [0xF6, 0x03, 0x00, 0x00, 0x00, 0x01, 0x91, 0x4D], by decide +kernel⟩

/-- A normal response and an exception. -/
theorem witness_ResponseRoundTrip :
    (∃ f, matchesRequest (.normal { slave := 1, fn := 0x03, qty := 2, values := [0x000A, 0x0102] }) readTwo ∧
      requestShape readTwo = true ∧
      encodeResponse (.normal { slave := 1, fn := 0x03, qty := 2, values := [0x000A, 0x0102] }) = .ok f) ∧
    (∃ f, matchesRequest (.exception { slave := 1, fn := 0x83, code := 2 }) readTwo ∧
      encodeResponse (.exception { slave := 1, fn := 0x83, code := 2 }) = .ok f) :=
  ⟨⟨s1Answer, ⟨by decide +kernel, by decide +kernel⟩, by decide +kernel, by decide +kernel⟩,
    ⟨[0x01, 0x83, 0x02, 0xC0, 0xF1], ⟨by decide +kernel, by decide +kernel⟩, by decide +kernel⟩⟩

theorem witness_TrailingZerosDoNotHide : (0xF6 : Byte).toNat < 247 ∧ (0x99 : Byte) ∉ functionCodes := by decide +kernel

/-- The four cases of R221, the lists at their longest and one longer. -/
theorem witness_EnqueueCommand :
    enqueued (.enqWMC 1 0 [1, 1]) = some { slave := 1, fn := 0x0F, qty := 2, values := [1, 1] } ∧
    slave.params.role = .slave ∧ master.params.role = .master ∧
    listTooLong { master with params := { Params.default with vmax := some 1 } } [1, 1] ∧
    ¬ listTooLong { master with params := { Params.default with vmax := some 2 } } [1, 1] ∧
    queueAtDepth { master with params := { Params.default with qdepth := some 1 }, q := [readTwo] } ∧
    ¬ queueAtDepth { master with params := { Params.default with qdepth := some 2 }, q := [readTwo] } :=
  ⟨by decide +kernel, rfl, rfl, .inr ⟨1, rfl, by decide⟩,
    by rintro (h | ⟨v, hv, h⟩)
       · exact absurd h (by decide)
       · cases hv
         exact absurd h (by decide),
    rfl, by unfold queueAtDepth; decide +kernel⟩

theorem witness_QueueQueries : master.params.role = .master ∧ slave.params.role = .slave := ⟨rfl, rfl⟩

theorem witness_QueueClear : (waiting readTwo).params.role = .master ∧ slave.params.role = .slave := ⟨rfl, rfl⟩

/-- P9 step 10. -/
theorem witness_ClearedCycleSparesQueue :
    ∃ s t : State, s.params.role = .master ∧ s.mstate ≠ .idle ∧ s.curq = false ∧ exec (.poll 110 []) s = .next t := by
  obtain ⟨t, h⟩ := next_of_after (i := .poll 110 [])
    (s := { waiting readTwo with q := [{ readTwo with slave := 2 }], curq := false }) (by decide +kernel)
  exact ⟨_, t, rfl, by decide, rfl, h⟩

/-- Register numbers beside the ones that exist. -/
theorem witness_ConfigWrite :
    master.params.role = .master ∧ slave.params.role = .slave ∧ (0x04 : Byte) ∉ [(0x00 : Byte), 0x01, 0x02, 0x03] ∧
    (0x10 : Byte) ∉ [(0x00 : Byte), 0x01, 0x02, 0x03] ∧ (0x00 : Byte) ∉ [(0x01 : Byte), 0x04] := by decide +kernel

theorem witness_ConfigRead :
    master.params.role = .master ∧ master.mstate = .idle ∧ (waiting readTwo).mstate = .waitingForResponse ∧
    (waiting readTwo).params.role = .master ∧ slave.params.role = .slave ∧ slave.sstate = .idle ∧
    (0x04 : Byte) ∉ [(0x00 : Byte), 0x01, 0x02, 0x03, 0x10, 0x11, 0x12, 0x13, 0x14, 0x15] ∧
    (0x12 : Byte) ∉ [(0x01 : Byte), 0x04, 0x10, 0x11, 0x13, 0x14] := by decide +kernel

/-- V183 and V182: a chunk that fills the buffer, and one byte more. -/
theorem witness_RxPush :
    bufferOk master.rxb master.rxn 8192 = true ∧
    bufferOk [] 8190 8192 = true ∧ ([1, 2] : List Byte) ≠ [] ∧ 8190 + ([1, 2] : List Byte).length ≤ 8192 ∧
    8192 < 8190 + ([1, 2, 3] : List Byte).length := by decide +kernel

theorem witness_PollIsPushThenPoll : ∃ s t : State, exec (.rxpush 20 [0x01, 0x03]) s = .next t :=
  ⟨waiting readTwo, _, rfl⟩

/-- A POLL that sends, an RXPUSH, and a command that does neither. -/
theorem witness_TimeRegisterWriters :
    (after (.poll 5 []) { master with q := [readTwo] }).isSome = true ∧ (after (.rxpush 5 [1]) master).isSome = true ∧
    (after .qclear master).isSome = true := by decide +kernel

theorem witness_CommandFrames :
    (after (.poll 5 [1]) slave).isSome = true ∧ (after (.reqRHR (.enc {})) master).isSome = true ∧
    (after (.cfgwr 0x00 1) master).isSome = true := by decide +kernel

/-- The four waits: an empty queue, each of the two turnaround tests one short, a frame and a response one short. -/
theorem witness_MasterPollsThatWait :
    (master.params.role = .master ∧ master.mstate = .idle ∧ master.q = []) ∧
    (delta 10 (receive 10 [] { master with lastRx := 6 }).lastRx < master.turnaround) ∧
    (delta 10 { master with lastTx := 6 }.lastTx < master.turnaround) ∧
    ((waiting readTwo).mstate = .waitingForResponse ∧ (receive 23 [] (holding s1Answer 20 (waiting readTwo))).rxn ≠ 0 ∧
      delta 23 (receive 23 [] (holding s1Answer 20 (waiting readTwo))).lastRx < (waiting readTwo).frameTo) ∧
    ((receive 109 [] (waiting readTwo)).rxn = 0 ∧ delta 109 (waiting readTwo).lastTx < (waiting readTwo).responseTo) := by
  decide +kernel

/-- Equality passes: V191; a unicast, a broadcast with either parameter, a failed write, and a frame too long. -/
theorem witness_MasterTransmitsHead :
    master.params.role = .master ∧ master.mstate = .idle ∧ { master with q := [readTwo] }.q = readTwo :: [] ∧
    master.turnaround ≤ delta 5 (receive 5 [] { master with q := [readTwo] }).lastRx ∧
    master.turnaround ≤ delta 5 master.lastTx ∧ encodeRequest readTwo = .ok s1Frame ∧ txOk master = true ∧
    readTwo.slave ≠ 0 ∧ { readTwo with slave := 0 }.slave = 0 ∧ master.params.bcastDequeue = false ∧
    { master with params := { Params.default with bcastDequeue := true } }.params.bcastDequeue = true ∧
    txOk { master with txAns := [false] } = false ∧
    encodeRequest { slave := 1, fn := 0x10, qty := 124, values := List.replicate 124 0 } = .error .encodeOverflow := by
  decide +kernel

/-- V194. -/
theorem witness_MasterTimesOut :
    (waiting readTwo).params.role = .master ∧ (waiting readTwo).mstate = .waitingForResponse ∧
    (receive 110 [] (waiting readTwo)).rxn = 0 ∧ (waiting readTwo).responseTo ≤ delta 110 (waiting readTwo).lastTx := by
  decide +kernel

/-- V104, and P7 step 8: no frame, and a frame whose decode is rejected, each at the first POLL that looks. -/
theorem witness_MasterFindsNothing :
    (receive 24 [] (holding [0x01, 0x03] 20 (waiting readTwo))).rxn ≠ 0 ∧
    (waiting readTwo).frameTo ≤ delta 24 (receive 24 [] (holding [0x01, 0x03] 20 (waiting readTwo))).lastRx ∧
    findM (rxBytes (receive 24 [] (holding [0x01, 0x03] 20 (waiting readTwo)))) 1 0x03 = .ok none ∧
    findM [0x01, 0x03, 0x02, 0x00, 0x0A, 0x38, 0x43] 1 0x03 = .ok (some ⟨0, 7, false⟩) ∧
    decodeResponse [0x01, 0x03, 0x02, 0x00, 0x0A, 0x38, 0x43] ⟨0, 7, false⟩ readTwo = .ok none := by decide +kernel

/-- P6 step 8. -/
theorem witness_MasterMeetsException :
    ∃ s : State, s.params.role = .master ∧ s.mstate = .waitingForResponse ∧ (receive 24 [] s).rxn ≠ 0 ∧
      s.frameTo ≤ delta 24 (receive 24 [] s).lastRx ∧
      findM (rxBytes (receive 24 [] s)) s.cur.slave s.cur.fn = .ok (some ⟨0, 5, true⟩) ∧
      decodeResponse (rxBytes (receive 24 [] s)) ⟨0, 5, true⟩ s.cur =
        .ok (some (.exception { slave := 1, fn := 0x83, code := 2 })) :=
  ⟨holding [0x01, 0x83, 0x02, 0xC0, 0xF1] 20 (waiting readTwo), by decide +kernel⟩

/-- P1 step 10, with either answer of the generic callback. -/
theorem witness_MasterMeetsNormal :
    ∀ b : Bool, ∃ s : State, s.params.role = .master ∧ s.mstate = .waitingForResponse ∧ (receive 24 [] s).rxn ≠ 0 ∧
      s.frameTo ≤ delta 24 (receive 24 [] s).lastRx ∧
      findM (rxBytes (receive 24 [] s)) s.cur.slave s.cur.fn = .ok (some ⟨0, 9, false⟩) ∧
      decodeResponse (rxBytes (receive 24 [] s)) ⟨0, 9, false⟩ s.cur =
        .ok (some (.normal { slave := 1, fn := 0x03, qty := 2, values := [0x000A, 0x0102] })) ∧
      handled (receive 24 [] s) = b := by
  intro b
  refine ⟨{ holding s1Answer 20 (waiting readTwo) with handledAns := [b] }, ?_⟩
  revert b
  decide +kernel

/-- V195. -/
theorem witness_MasterCycleEnds :
    (waiting readTwo).params.role = .master ∧ (waiting readTwo).mstate = .waitingForResponse ∧
    requestShape (waiting readTwo).cur = true ∧ (receive 24 [] (holding s1Answer 20 (waiting readTwo))).rxn ≠ 0 ∧
    (waiting readTwo).frameTo ≤ delta 24 (receive 24 [] (holding s1Answer 20 (waiting readTwo))).lastRx := by
  decide +kernel

/-- A last retry and none left, in flight and cleared. -/
theorem witness_FailAndRemove :
    { waiting { readTwo with retries := 1 } with curq := false }.cur.retries ≠ 0 ∧
    { waiting { readTwo with retries := 0 } with curq := false, q := [] }.cur.retries = 0 ∧
    (waiting { readTwo with retries := 1 }).q = { readTwo with retries := 1 } :: [] ∧
    (waiting { readTwo with retries := 1 }).cur.retries ≠ 0 ∧ (waiting { readTwo with retries := 1 }).curq = true ∧
    (waiting { readTwo with retries := 0 }).cur.retries = 0 ∧ (waiting { readTwo with retries := 0 }).curq = true := by
  decide +kernel

/-- P2: `RETRIES = 1`, two attempts. -/
theorem witness_RetryExhaustion :
    ∃ (s : State) (r : Request) (times : List (Time × Time)), s.params.role = .master ∧ s.mstate = .idle ∧
      s.q = r :: [] ∧ r.slave ≠ 0 ∧ encodeRequest r = .ok s1Frame ∧ s.inputs = attempts times ∧
      times.length = r.retries.toNat + 1 ∧ attemptsDue s.turnaround s.responseTo s.lastRx s.lastTx times = true ∧
      times.length ≤ s.txAns.length ∧ (∀ b ∈ s.txAns.take times.length, b = true) :=
  ⟨{ master with q := [{ readTwo with retries := 1 }], inputs := attempts [(10, 110), (115, 215)] },
    { readTwo with retries := 1 }, [(10, 110), (115, 215)], by decide +kernel⟩

/-- P5 with `BCAST_DEQUEUE = false`. -/
theorem witness_BroadcastBlocksQueue :
    ∃ (s : State) (r : Request) (f : List Byte), s.params.role = .master ∧ s.params.bcastDequeue = false ∧
      s.mstate = .idle ∧ s.q = r :: [readTwo] ∧ r.slave = 0 ∧ encodeRequest r = .ok f ∧
      pollsAndPushes s.inputs = true ∧ s.inputs ≠ [] :=
  ⟨{ master with
      q := [{ slave := 0, fn := 0x06, addr := 0x0010, qty := 1, values := [0x1234] }, readTwo]
      inputs := [.cmd (encode (.poll 10 [])), .cmd (encode (.rxpush 12 [1])), .cmd (encode (.poll 20 []))] },
    { slave := 0, fn := 0x06, addr := 0x0010, qty := 1, values := [0x1234] },
    [0x00, 0x06, 0x00, 0x10, 0x12, 0x34, 0x84, 0xA9], by decide +kernel⟩

/-- V200, V201: an empty buffer, and each threshold one short. -/
theorem witness_SlavePollsThatWait :
    slave.params.role = .slave ∧ slave.sstate = .idle ∧ (receive 5 [] slave).rxn = 0 ∧
    delta 103 (receive 103 [] (holding s1Frame 100 slave)).lastRx < slave.frameTo ∧
    delta 109 (receive 109 [] (holding s1Frame 100 { slave with respDelay := 10 })).lastRx <
      { slave with respDelay := 10 }.respDelay := by decide +kernel

/-- V132 and V138: no frame, and a frame whose decode is rejected. -/
theorem witness_SlaveDropsBadFrames :
    ∀ bs ∈ [[0xF7, 0x03, 0x00, 0x00, 0x00, 0x01, 0x90, 0x9C], [0x01, 0x0F, 0x00, 0x13, 0x00, 0x0A, 0x01, 0x55, 0x1A, 0xA9]],
      (receive 104 [] (holding bs 100 slave)).rxn ≠ 0 ∧
      slave.frameTo ≤ delta 104 (receive 104 [] (holding bs 100 slave)).lastRx ∧
      slave.respDelay ≤ delta 104 (receive 104 [] (holding bs 100 slave)).lastRx ∧
      (findS (rxBytes (receive 104 [] (holding bs 100 slave))) = .ok none ∨
        findS (rxBytes (receive 104 [] (holding bs 100 slave))) = .ok (some ⟨0, 10, false⟩) ∧
          decodeRequest (rxBytes (receive 104 [] (holding bs 100 slave))) 0 = .ok none) := by decide +kernel

/-- P4 step 4. -/
theorem witness_SlaveAnswersUnsupported :
    ∃ s : State, s.params.role = .slave ∧ s.sstate = .idle ∧ (receive 54 [] s).rxn ≠ 0 ∧
      s.frameTo ≤ delta 54 (receive 54 [] s).lastRx ∧ s.respDelay ≤ delta 54 (receive 54 [] s).lastRx ∧
      findS (rxBytes (receive 54 [] s)) = .ok (some ⟨1, 4, false⟩) ∧
      decodeRequest (rxBytes (receive 54 [] s)) 1 = .ok (some { slave := 1, fn := 0x99 }) ∧
      (0x99 : Byte) ∉ functionCodes :=
  ⟨holding [0xA5, 0x01, 0x99, 0xC0, 0x4A] 50 slave, by decide +kernel⟩

/-- A located request, and every way the handlers can be consulted about it: the generic one answers a Response or an
exception that can be encoded, one that cannot, or none, and then the specific one answers or declines. -/
theorem witness_SlaveServesRequest :
    (∃ s : State, s.params.role = .slave ∧ s.sstate = .idle ∧ (receive 104 [] s).rxn ≠ 0 ∧
      s.frameTo ≤ delta 104 (receive 104 [] s).lastRx ∧ s.respDelay ≤ delta 104 (receive 104 [] s).lastRx ∧
      findS (rxBytes (receive 104 [] s)) = .ok (some ⟨0, 8, false⟩) ∧
      decodeRequest (rxBytes (receive 104 [] s)) 0 = .ok (some { slave := 1, fn := 0x03, addr := 0, qty := 2 }) ∧
      (0x03 : Byte) ∈ functionCodes) ∧
    (∀ (s : State) (r : Request) (p : Response), s.respAns = [some p] →
      consulted r s (takeAnswer s) [.request r] (some p)) ∧
    (∀ (s : State) (r : Request) (o : Option Response), s.respAns = [none, o] →
      consulted r s (takeAnswer (takeAnswer s)) [.request r, .requestFn r.fn r] o) ∧
    encodeResponse (.normal { slave := 1, fn := 0x03, qty := 2, values := [0x000A, 0x0102] }) = .ok s1Answer ∧
    encodeResponse (.normal { slave := 1, fn := 0x2B }) = .error .encodeUnsupported := by
  refine ⟨⟨holding s1Frame 100 slave, by decide +kernel⟩, fun s r p h => .inl ⟨p, ?_, rfl, rfl, rfl⟩,
    fun s r o h => .inr ⟨?_, rfl, rfl, ?_⟩, by decide +kernel, by decide +kernel⟩
  · simp [handlerAnswer, h]
  · simp [handlerAnswer, h]
  · simp [handlerAnswer, takeAnswer, h]

/-- The invariant of a waiting master with a queue of bounded depth, buffered bytes, and a step from it. -/
theorem witness_StepKeepsInv :
    ∃ s t : State, Inv s ∧ s.mstate = .waitingForResponse ∧ s.rxn ≠ 0 ∧ step s = .next t := by
  obtain ⟨t, h⟩ := next_of_after (i := .poll 30 [])
    (s := { holding s1Answer 20 (waiting readTwo) with
      params := { Params.default with qdepth := some 1 }, handledAns := [true] }) (by decide +kernel)
  exact ⟨{ holding s1Answer 20 (waiting readTwo) with
      params := { Params.default with qdepth := some 1 }, inputs := [.cmd (encode (.poll 30 []))], handledAns := [true] },
    t, ⟨by decide +kernel, by decide +kernel, by decide +kernel, by decide +kernel, by decide +kernel, by decide +kernel,
      by decide +kernel, by decide +kernel⟩, rfl, by decide +kernel, h⟩

theorem witness_PollFaultsByName : Inv (waiting readTwo) ∧ Inv slave :=
  ⟨⟨by decide +kernel, by decide +kernel, by decide +kernel, by decide +kernel, by decide +kernel, by decide +kernel,
      by decide +kernel, by decide +kernel⟩,
    ⟨by decide +kernel, by decide +kernel, by decide +kernel, by decide +kernel, by decide +kernel, by decide +kernel,
      by decide +kernel, by decide +kernel⟩⟩

/-- Reset's memories have the canonical form. -/
theorem test_reset_memory_wf : Memory.wf State.reset.rxb = true ∧ Memory.wf State.reset.txb = true := by decide

end Sys2Proof.Tests
end

section
/-! PROOFS. The port: what a step does with each kind of input, and the statements of 00_scope.md. -/

namespace Sys2Proof.Machine

theorem step_of_inputs_nil {s : State} (hin : s.inputs = []) : step s = .next s := by
  rw [step, hin]

theorem step_of_inputs_cons {s : State} {i : Input} {rest : List Input} (hin : s.inputs = i :: rest) :
    step s = takeInput i { s with inputs := rest } := by
  rw [step, hin]

@[simp] theorem takeInput_cmd (p : PortWord) (s : State) : takeInput (.cmd p) s = present p s := rfl

@[simp] theorem takeInput_overlap (p q : PortWord) (s : State) :
    takeInput (.overlap p q) s = .refused .concurrentInvocation := rfl

theorem present_of_decode_ok {p : PortWord} {i : Instr} (hdec : decode p = .ok i) (s : State) :
    present p s = exec i s := by
  rw [present, hdec]

/-- Settles O1: the input is taken off the port, and its word is presented and decoded. -/
theorem stepRunsDecodedInstruction : Obligations.StepRunsDecodedInstruction := by
  intro s p rest i hin hdec
  rw [step_of_inputs_cons hin, takeInput_cmd, present_of_decode_ok hdec]

/-- Settles O7: an overlapping invocation is refused as soon as it is taken off the port. -/
theorem overlapRefused : Obligations.OverlapRefused := by
  intro s p q rest hin
  rw [step_of_inputs_cons hin, takeInput_overlap]

/-- Settles O8: the empty port is the first case of the step. -/
theorem nothingPresented : Obligations.NothingPresented :=
  fun _ hin => step_of_inputs_nil hin

end Sys2Proof.Machine
end

section
/-! PROOFS. What an instruction other than POLL and RXPUSH can do, said once; then what writes the two time registers
(10_state.md R37), and what every step keeps (R51). -/

namespace Sys2Proof.Machine

open Sys2Proof.Laws Sys2Proof.Safety

/-! The effects of the commands that carry no time. -/

/-- The next states of an instruction that carries no time: all but POLL and RXPUSH (30_encoding.md R111). -/
inductive Effect (s : State) : State → Prop where
  /-- The result port alone is written (60_exceptions.md R316 for a refusal). -/
  | answers (st : Status) (v : Value) : Effect s (setResult st v s)
  /-- A frame is built in `TXB` (42_frame_encode.md R150). -/
  | builds (f : List Byte) (v : Value) (hf : IsFrame f) : Effect s (setResult .ok v (putFrame f s))
  /-- A Request of the shape its function needs joins a queue that has room (44_master_engine.md R221). -/
  | enqueues (r : Request) (hrole : s.params.role = .master) (hroom : queueFull s = false)
      (hshape : requestShape r = true) : Effect s (setResult .ok .none { s with q := s.q ++ [r] })
  /-- A configuration register is written (46_transport_and_host.md R300). -/
  | configures (data : Time) (r : Reg) : Effect s (setResult .ok .none (setReg data s r))
  /-- The queue is emptied (44_master_engine.md R249). -/
  | clears (hrole : s.params.role = .master) : Effect s (setResult .ok .none { s with q := [], curq := false })

theorem effect_of_answer {s t : State} {v : Value} (h : answer v s = .next t) : Effect s t := by
  cases h
  exact .answers .ok v

theorem effect_of_refuse {s t : State} {st : Status} (h : refuse st s = .next t) : Effect s t := by
  cases h
  exact .answers st .none

/-- A command for a MASTER only: refused on a slave, run on a master. -/
theorem effect_of_onMaster {s t : State} {k : State → Host.Outcome State Fault Refusal}
    (hk : s.params.role = .master → k s = .next t → Effect s t) (h : onMaster s k = .next t) : Effect s t := by
  unfold onMaster at h
  split at h
  next hrole => exact hk hrole h
  next => exact effect_of_refuse h

theorem effect_of_buildFrame {s t : State} {e : Except Fault (List Byte)} (hf : ∀ f, e = .ok f → IsFrame f)
    (h : buildFrame e s = .next t) : Effect s t := by
  obtain ⟨f, he, rfl⟩ := buildFrame_next h
  exact .builds f _ (hf f he)

theorem effect_of_showRequest {s t : State} {e : Except Fault (Option Request)} (h : showRequest e s = .next t) :
    Effect s t := by
  obtain ⟨r, -, rfl⟩ := showRequest_next h
  exact .answers .ok _

theorem effect_of_showResponse {s t : State} {e : Except Fault (Option Response)} (h : showResponse e s = .next t) :
    Effect s t := by
  obtain ⟨p, -, rfl⟩ := showResponse_next h
  exact .answers .ok _

/-- The two forms of a request frame row: the encode form runs the selector of 42_frame_encode.md R154. -/
theorem effect_of_reqForm {s t : State} {f : ReqForm} {run : ReqForm → State → Host.Outcome State Fault Refusal}
    (fn : Byte) (henc : ∀ d, run (.enc d) s = buildFrame (encodeRequest (d.toRequest fn)) s)
    (hdec : ∀ off, ∃ e, run (.dec off) s = showRequest e s) (h : run f s = .next t) : Effect s t := by
  cases f with
  | enc d => exact effect_of_buildFrame (fun _ => encodeRequest_isFrame) (henc d ▸ h)
  | dec off =>
    obtain ⟨e, he⟩ := hdec off
    exact effect_of_showRequest (he ▸ h)

/-- The two forms of a response frame row: the encode form runs the selector of 42_frame_encode.md R163. -/
theorem effect_of_rspForm {s t : State} {f : RspForm} {run : RspForm → State → Host.Outcome State Fault Refusal}
    (fn : Byte) (henc : ∀ d, run (.enc d) s = buildFrame (encodeResponse (.normal (d.toNormal fn))) s)
    (hdec : ∀ off cur, ∃ e, run (.dec off cur) s = showResponse e s) (h : run f s = .next t) : Effect s t := by
  cases f with
  | enc d => exact effect_of_buildFrame (fun _ => encodeResponse_isFrame) (henc d ▸ h)
  | dec off cur =>
    obtain ⟨e, he⟩ := hdec off cur
    exact effect_of_showResponse (he ▸ h)

/-- An accepted value list has a length of 16 bits (44_master_engine.md R221). -/
theorem length_le_of_not_valuesTooLong {s : State} {values : List Word} (h : valuesTooLong s values = false) :
    values.length ≤ 65535 := by
  unfold valuesTooLong at h
  simpa using (Bool.or_eq_false_iff.mp h).1

/-- An enqueue command whose Request has its shape wherever its value list is accepted. -/
theorem effect_of_enq {s t : State} {r : Request} (hshape : r.values.length ≤ 65535 → requestShape r = true)
    (h : enq r s = .next t) : Effect s t := by
  obtain ⟨u, hu, hcases⟩ := enq_next r s
  cases hu.symm.trans h
  rcases hcases with ⟨st, rfl⟩ | ⟨hrole, hroom, hlen, rfl⟩
  · exact .answers st .none
  · exact .enqueues { r with retries := s.retries } hrole hroom (hshape (length_le_of_not_valuesTooLong hlen))

/-- The shape of a write-multiple Request whose quantity is the length of its list (R227, R228). -/
theorem requestShape_writeMultiple {fn slave : Byte} {addr : Word} {values : List Word}
    (hfn : fn = Config.fcWMC ∨ fn = Config.fcWMR) (hlen : values.length ≤ 65535) :
    requestShape { slave := slave, fn := fn, addr := addr, qty := BitVec.ofNat 16 values.length, values := values } =
      true := by
  have hqty : values.length % 65536 = values.length := Nat.mod_eq_of_lt (by omega)
  rcases hfn with rfl | rfl <;> simp [requestShape, hqty]

theorem effect_of_cfgwr {s t : State} {reg : Byte} {data : Time} (h : execCfgwr reg data s = .next t) : Effect s t := by
  unfold execCfgwr at h
  split at h
  next r _ =>
    split at h
    · cases h
      exact .configures data r
    · exact effect_of_refuse h
  next => exact effect_of_refuse h

theorem effect_of_cfgrd {s t : State} {reg : Byte} (h : execCfgrd reg s = .next t) : Effect s t := by
  unfold execCfgrd at h
  split at h
  · exact effect_of_answer h
  · exact effect_of_refuse h

theorem effect_of_qclear {s t : State} (h : execQclear s = .next t) : Effect s t := by
  unfold execQclear at h
  refine effect_of_onMaster (fun hrole hk => ?_) h
  cases hk
  exact .clears hrole

/-- An instruction that is no POLL and no RXPUSH has one of the effects. -/
theorem exec_effect {i : Instr} {s t : State} (hi : ∀ now chunk, i ≠ .poll now chunk ∧ i ≠ .rxpush now chunk)
    (h : exec i s = .next t) : Effect s t := by
  cases i with
  | enqRC slave addr qty => exact effect_of_enq (fun _ => rfl) h
  | enqRHR slave addr qty => exact effect_of_enq (fun _ => rfl) h
  | enqRIR slave addr qty => exact effect_of_enq (fun _ => rfl) h
  | enqWSC slave addr value => exact effect_of_enq (fun _ => rfl) h
  | enqWSR slave addr value => exact effect_of_enq (fun _ => rfl) h
  | enqWMC slave addr values => exact effect_of_enq (requestShape_writeMultiple (.inl rfl)) h
  | enqWMR slave addr values => exact effect_of_enq (requestShape_writeMultiple (.inr rfl)) h
  | enqRFR slave file recno reclen => exact effect_of_enq (fun _ => rfl) h
  | poll now chunk => exact absurd rfl (hi now chunk).1
  | rxpush now chunk => exact absurd rfl (hi now chunk).2
  | cfgwr reg data => exact effect_of_cfgwr h
  | cfgrd reg => exact effect_of_cfgrd h
  | qclear => exact effect_of_qclear h
  | qcount => exact effect_of_onMaster (fun _ => effect_of_answer) h
  | qempty => exact effect_of_onMaster (fun _ => effect_of_answer) h
  | crc16 seed bytes => exact effect_of_answer h
  | putw value => exact effect_of_answer h
  | getw b0 b1 => exact effect_of_answer h
  | putwf value => exact effect_of_answer h
  | getwf b0 b1 => exact effect_of_answer h
  | reqRC f => exact effect_of_reqForm (run := execReqRC) Config.fcRC (fun _ => rfl) (fun _ => ⟨_, rfl⟩) h
  | reqRHR f => exact effect_of_reqForm (run := execReqRHR) Config.fcRHR (fun _ => rfl) (fun _ => ⟨_, rfl⟩) h
  | reqRIR f => exact effect_of_reqForm (run := execReqRIR) Config.fcRIR (fun _ => rfl) (fun _ => ⟨_, rfl⟩) h
  | reqWSC f => exact effect_of_reqForm (run := execReqWSC) Config.fcWSC (fun _ => rfl) (fun _ => ⟨_, rfl⟩) h
  | reqWSR f => exact effect_of_reqForm (run := execReqWSR) Config.fcWSR (fun _ => rfl) (fun _ => ⟨_, rfl⟩) h
  | reqWMC f => exact effect_of_reqForm (run := execReqWMC) Config.fcWMC (fun _ => rfl) (fun _ => ⟨_, rfl⟩) h
  | reqWMR f => exact effect_of_reqForm (run := execReqWMR) Config.fcWMR (fun _ => rfl) (fun _ => ⟨_, rfl⟩) h
  | reqRFR f => exact effect_of_reqForm (run := execReqRFR) Config.fcRFR (fun _ => rfl) (fun _ => ⟨_, rfl⟩) h
  | reqUNSUP f =>
    cases f with
    | enc slave fn => exact effect_of_buildFrame (fun _ => encodeRequest_isFrame) h
    | dec off => exact effect_of_showRequest h
  | rspRC f => exact effect_of_rspForm (run := execRspRC) Config.fcRC (fun _ => rfl) (fun _ _ => ⟨_, rfl⟩) h
  | rspRHR f => exact effect_of_rspForm (run := execRspRHR) Config.fcRHR (fun _ => rfl) (fun _ _ => ⟨_, rfl⟩) h
  | rspRIR f => exact effect_of_rspForm (run := execRspRIR) Config.fcRIR (fun _ => rfl) (fun _ _ => ⟨_, rfl⟩) h
  | rspWSC f => exact effect_of_rspForm (run := execRspWSC) Config.fcWSC (fun _ => rfl) (fun _ _ => ⟨_, rfl⟩) h
  | rspWSR f => exact effect_of_rspForm (run := execRspWSR) Config.fcWSR (fun _ => rfl) (fun _ _ => ⟨_, rfl⟩) h
  | rspWMC f => exact effect_of_rspForm (run := execRspWMC) Config.fcWMC (fun _ => rfl) (fun _ _ => ⟨_, rfl⟩) h
  | rspWMR f => exact effect_of_rspForm (run := execRspWMR) Config.fcWMR (fun _ => rfl) (fun _ _ => ⟨_, rfl⟩) h
  | rspRFR f => exact effect_of_rspForm (run := execRspRFR) Config.fcRFR (fun _ => rfl) (fun _ _ => ⟨_, rfl⟩) h
  | rspEXC f =>
    cases f with
    | enc slave fn code => exact effect_of_buildFrame (fun _ => encodeResponse_isFrame (p := .exception _)) h
    | dec off => exact effect_of_showResponse h

/-- An RXPUSH is the append and `OK` on the result port (46_transport_and_host.md R290). -/
theorem exec_rxpush (now : Time) (chunk : List Byte) (s : State) :
    exec (.rxpush now chunk) s = .next (setResult .ok .none (receive now chunk s)) := rfl

/-- A port word that answers a next state was decoded and run, or refused. -/
theorem present_cases {p : PortWord} {s t : State} (h : present p s = .next t) :
    (∃ i, exec i s = .next t) ∨ Effect s t := by
  unfold present at h
  split at h
  next i _ => exact .inl ⟨i, h⟩
  next e _ =>
    cases e with
    | reservedOpcode code => exact .inr (effect_of_refuse h)
    | noLayout fn => cases h
    | badOffset off => cases h

/-! The invariant, lifted over the operations that write none of the fields it reads, or only some. -/

theorem inv_setResult {s : State} (h : Inv s) (st : Status) (v : Value) : Inv (setResult st v s) :=
  ⟨h.rx, h.tx, h.queue, h.entries, h.head, h.mst, h.sst, h.role⟩

theorem inv_withInputs {s : State} (h : Inv s) (rest : List Input) : Inv { s with inputs := rest } :=
  ⟨h.rx, h.tx, h.queue, h.entries, h.head, h.mst, h.sst, h.role⟩

theorem inv_setReg {s : State} (h : Inv s) (data : Time) (r : Reg) : Inv (setReg data s r) := by
  cases r <;> exact ⟨h.rx, h.tx, h.queue, h.entries, h.head, h.mst, h.sst, h.role⟩

theorem isFrame_bufferOk {f : List Byte} (hf : IsFrame f) : bufferOk (Memory.ofBytes f) f.length Config.txCap = true :=
  ofBytes_bufferOk hf.2

theorem inv_putFrame {s : State} (h : Inv s) {f : List Byte} (hf : IsFrame f) : Inv (putFrame f s) :=
  ⟨h.rx, isFrame_bufferOk hf, h.queue, h.entries, h.head, h.mst, h.sst, h.role⟩

theorem inv_receive {s : State} (h : Inv s) (now : Time) (chunk : List Byte) : Inv (receive now chunk s) where
  rx := receive_bufferOk h.rx
  tx := by simpa using h.tx
  queue := by simpa [queueOk] using h.queue
  entries := by simpa using h.entries
  head := by simpa [headOk] using h.head
  mst := by simpa [mstateOk] using h.mst
  sst := by simpa using h.sst
  role := by simpa [roleOk] using h.role

theorem queueOk_of_empty {s : State} (hq : s.q = []) : queueOk s = true := by
  unfold queueOk
  split
  · simp [hq]
  · rfl

/-- The invariant at reset: every buffer and the queue are empty, both engines idle (10_state.md R50). -/
theorem inv_resetOf (p : Params) : Inv (State.resetOf p) where
  rx := empty_bufferOk _
  tx := empty_bufferOk _
  queue := queueOk_of_empty rfl
  entries := fun _ hr => absurd hr List.not_mem_nil
  head := rfl
  mst := rfl
  sst := rfl
  role := by
    unfold roleOk
    split <;> rfl

/-- Settles O58: the invariant holds at reset for every parameter record, so for the default one. -/
theorem invHoldsAtReset : Obligations.InvHoldsAtReset := ⟨inv_resetOf, inv_resetOf _⟩

theorem inv_applyReset (s : State) : Inv (applyReset s) :=
  have h := inv_resetOf s.params
  ⟨h.rx, h.tx, h.queue, h.entries, h.head, h.mst, h.sst, h.role⟩

/-- On a master the role clause says nothing (10_state.md R26). -/
theorem roleOk_of_master {s : State} (hrole : s.params.role = .master) : roleOk s = true := by
  rw [roleOk, hrole]

/-- A queue with room takes one more entry. -/
theorem queueOk_enqueue {s : State} (h : queueOk s = true) (hroom : queueFull s = false) (r : Request) :
    queueOk { s with q := s.q ++ [r] } = true := by
  unfold queueOk queueFull at *
  cases hd : s.params.qdepth with
  | none => rfl
  | some d =>
    simp only [hd, decide_eq_true_eq, decide_eq_false_iff_not, List.length_append, List.length_singleton] at h hroom ⊢
    omega

/-- An entry at the tail leaves the head that `CURQ` speaks of. -/
theorem headOk_enqueue {s : State} (h : headOk s = true) (r : Request) :
    headOk { s with q := s.q ++ [r] } = true := by
  unfold headOk at *
  cases hq : s.q with
  | nil =>
    have hcurq : s.curq = false := by simpa [hq] using h
    simp [hcurq]
  | cons a q => simpa [hq] using h

theorem inv_enqueue {s : State} (h : Inv s) {r : Request} (hrole : s.params.role = .master)
    (hroom : queueFull s = false) (hshape : requestShape r = true) : Inv { s with q := s.q ++ [r] } where
  rx := h.rx
  tx := h.tx
  queue := queueOk_enqueue h.queue hroom r
  entries := by
    intro x hx
    rcases List.mem_append.mp hx with hx | hx
    · exact h.entries x hx
    · exact List.mem_singleton.mp hx ▸ hshape
  head := headOk_enqueue h.head r
  mst := h.mst
  sst := h.sst
  role := roleOk_of_master hrole

theorem inv_qclear {s : State} (h : Inv s) (hrole : s.params.role = .master) :
    Inv { s with q := [], curq := false } where
  rx := h.rx
  tx := h.tx
  queue := queueOk_of_empty rfl
  entries := fun _ hr => absurd hr List.not_mem_nil
  head := rfl
  mst := h.mst
  sst := h.sst
  role := roleOk_of_master hrole

/-- Every effect of an instruction without a time keeps the invariant. -/
theorem effect_inv {s t : State} (h : Inv s) (he : Effect s t) : Inv t := by
  cases he with
  | answers st v => exact inv_setResult h st v
  | builds f v hf => exact inv_setResult (inv_putFrame h hf) .ok v
  | enqueues r hrole hroom hshape => exact inv_setResult (inv_enqueue h hrole hroom hshape) .ok .none
  | configures data r => exact inv_setResult (inv_setReg h data r) .ok .none
  | clears hrole => exact inv_setResult (inv_qclear h hrole) .ok .none

/-! The state action of a master. -/

/-- The part of a master's invariant that a state action keeps throughout, whatever `MSTATE` and `RXB` are meanwhile. -/
structure MasterInv (s : State) : Prop extends QueueInv s where
  tx     : bufferOk s.txb s.txn Config.txCap = true
  sst    : s.sstate = .idle
  master : s.params.role = .master

theorem masterInv_of_inv {s : State} (h : Inv s) (hrole : s.params.role = .master) : MasterInv s :=
  ⟨⟨h.queue, h.entries, h.head⟩, h.tx, h.sst, hrole⟩

theorem inv_of_masterInv {s : State} (h : MasterInv s) (hrx : bufferOk s.rxb s.rxn Config.rxCap = true)
    (hmst : mstateOk s = true) : Inv s :=
  ⟨hrx, h.tx, h.queue, h.entries, h.head, hmst, h.sst, roleOk_of_master h.master⟩

theorem masterInv_withMstate {s : State} (h : MasterInv s) (m : MState) : MasterInv { s with mstate := m } :=
  ⟨⟨h.queue, h.entries, h.head⟩, h.tx, h.sst, h.master⟩

theorem removeHead_masterInv {s : State} (h : MasterInv s) : MasterInv (removeHead s) :=
  ⟨removeHead_queueInv h.toQueueInv, by simpa using h.tx, by simpa using h.sst, by simpa using h.master⟩

theorem failRequest_masterInv {s : State} (h : MasterInv s) : MasterInv (failRequest s) :=
  ⟨failRequest_queueInv h.toQueueInv, by simpa using h.tx, by simpa using h.sst, by simpa using h.master⟩

theorem dispatch_masterInv (p : Option Response) {s : State} (h : MasterInv s) : MasterInv (dispatch p s) := by
  obtain ⟨htxb, htxn⟩ := dispatch_txb p s
  have hkeeps := dispatch_keeps p s
  exact ⟨dispatch_queueInv p h.toQueueInv, by rw [htxb, htxn]; exact h.tx, hkeeps.sstate.trans h.sst,
    hkeeps.params ▸ h.master⟩

/-- `received_action` ends with an empty buffer and `MSTATE` idle (44_master_engine.md R244). -/
theorem receivedAction_inv {s t : State} (h : MasterInv s) (hact : receivedAction s = .ok t) : Inv t := by
  unfold receivedAction at hact
  split at hact
  next => cases hact
  next p _ =>
    cases hact
    have hd := dispatch_masterInv p h
    exact ⟨empty_bufferOk _, hd.tx, hd.queue, hd.entries, hd.head, rfl, hd.sst, roleOk_of_master hd.master⟩

theorem timeoutAction_inv {s : State} (h : Inv s) (hrole : s.params.role = .master) : Inv (timeoutAction s) := by
  have hraised : MasterInv (raise (.timeout s.cur) s) := masterInv_of_inv
    ⟨h.rx, h.tx, h.queue, h.entries, h.head, h.mst, h.sst, h.role⟩ hrole
  exact inv_of_masterInv (masterInv_withMstate (failRequest_masterInv hraised) .idle)
    (by simpa [timeoutAction] using h.rx) rfl

theorem waitingAction_inv {now : Time} {s t : State} (h : Inv s) (hrole : s.params.role = .master)
    (hact : waitingAction now s = .ok t) : Inv t := by
  unfold waitingAction at hact
  split at hact
  · exact receivedAction_inv (masterInv_withMstate (masterInv_of_inv h hrole) .responseReceived) hact
  split at hact
  · cases hact
    exact timeoutAction_inv h hrole
  · cases hact
    exact h

/-- What follows the write: the wait of a unicast is for a loaded `CUR` with its shape (10_state.md R51 (b), (c)). -/
theorem afterSend_inv (ok : Bool) {s : State} (h : Inv s) (hrole : s.params.role = .master)
    (hshape : requestShape s.cur = true) : Inv (afterSend ok s.cur s) := by
  have hm := masterInv_of_inv h hrole
  unfold afterSend
  split
  · split
    next hslave =>
      exact inv_of_masterInv (masterInv_withMstate hm _) h.rx (Bool.and_eq_true_iff.mpr ⟨decide_eq_true hslave, hshape⟩)
    next =>
      split
      · exact inv_of_masterInv (removeHead_masterInv hm) (by simpa using h.rx) (by simpa [mstateOk] using h.mst)
      · exact h
  · exact h

/-- The state in which `transmit_head` meets the answer of the transport: `CUR` is the head, `RXB` is empty (R232). -/
theorem inv_sent {now : Time} {r : Request} {rest : List Request} {f : List Byte} {s : State} (h : Inv s)
    (hrole : s.params.role = .master) (hidle : s.mstate = .idle) (hq : s.q = r :: rest) (hf : IsFrame f) :
    Inv (tx now f (purge (putFrame f { s with cur := r, curq := true }))) where
  rx := by simpa using empty_bufferOk Config.rxCap
  tx := by simpa using isFrame_bufferOk hf
  queue := by simpa [queueOk] using h.queue
  entries := by simpa using h.entries
  head := by simp [headOk, hq]
  mst := by simp [mstateOk, hidle]
  sst := by simpa using h.sst
  role := roleOk_of_master (by simpa using hrole)

theorem transmitHead_inv {now : Time} {r : Request} {rest : List Request} {s t : State} (h : Inv s)
    (hrole : s.params.role = .master) (hidle : s.mstate = .idle) (hq : s.q = r :: rest)
    (hact : transmitHead now r s = .ok t) : Inv t := by
  unfold transmitHead at hact
  split at hact
  next => cases hact
  next f hf =>
    cases hact
    have hsent := inv_sent (now := now) h hrole hidle hq (encodeRequest_isFrame hf)
    have hshape : requestShape r = true := h.entries r (hq ▸ List.mem_cons_self ..)
    have hcur : (tx now f (purge (putFrame f { s with cur := r, curq := true }))).cur = r := by simp
    have hafter := afterSend_inv (txOk s) hsent (by simpa using hrole) (hcur.symm ▸ hshape)
    rwa [hcur] at hafter

theorem idleAction_inv {now : Time} {s t : State} (h : Inv s) (hrole : s.params.role = .master)
    (hidle : s.mstate = .idle) (hact : idleAction now s = .ok t) : Inv t := by
  unfold idleAction at hact
  split at hact
  next =>
    cases hact
    exact h
  next r rest hq =>
    split at hact
    · exact transmitHead_inv h hrole hidle hq hact
    · cases hact
      exact h

theorem masterAction_inv {now : Time} {s t : State} (h : Inv s) (hrole : s.params.role = .master)
    (hact : masterAction now s = .ok t) : Inv t := by
  unfold masterAction at hact
  split at hact
  next hidle => exact idleAction_inv h hrole hidle hact
  next => exact waitingAction_inv h hrole hact
  next => exact receivedAction_inv (masterInv_of_inv h hrole) hact

/-! The state action of a slave. -/

theorem respond_txOk {now : Time} {p : Option Response} {s t : State}
    (h : bufferOk s.txb s.txn Config.txCap = true) (hact : respond now p s = .ok t) :
    bufferOk t.txb t.txn Config.txCap = true := by
  unfold respond at hact
  split at hact
  next =>
    cases hact
    exact h
  next p =>
    split at hact
    next => cases hact
    next f hf =>
      cases hact
      simpa using isFrame_bufferOk (encodeResponse_isFrame hf)

theorem requestBody_txOk {now : Time} {s t : State} (h : bufferOk s.txb s.txn Config.txCap = true)
    (hact : requestBody now s = .ok t) : bufferOk t.txb t.txn Config.txCap = true := by
  unfold requestBody at hact
  split at hact
  next => cases hact
  next =>
    cases hact
    exact h
  next r _ =>
    unfold serve at hact
    split at hact
    · exact respond_txOk (by simpa using h) hact
    · exact respond_txOk h hact

/-- What a slave's action leaves of what it may write: both buffers sound, `SSTATE` idle (45_slave_engine.md R281). -/
structure SlaveEnds (t : State) : Prop where
  rx  : bufferOk t.rxb t.rxn Config.rxCap = true
  tx  : bufferOk t.txb t.txn Config.txCap = true
  sst : t.sstate = .idle

theorem requestAction_ends {now : Time} {s t : State} (h : bufferOk s.txb s.txn Config.txCap = true)
    (hact : requestAction now s = .ok t) : SlaveEnds t := by
  unfold requestAction at hact
  split at hact
  next => cases hact
  next u hu =>
    cases hact
    exact ⟨empty_bufferOk _, requestBody_txOk (t := u) h hu, rfl⟩

theorem slaveAction_ends {now : Time} {s t : State} (h : Inv s) (hact : slaveAction now s = .ok t) : SlaveEnds t := by
  unfold slaveAction at hact
  split at hact
  · split at hact
    · exact requestAction_ends (s := { s with sstate := .requestReceived }) h.tx hact
    · cases hact
      exact ⟨h.rx, h.tx, h.sst⟩
  · exact requestAction_ends h.tx hact

theorem slaveAction_inv {now : Time} {s t : State} (h : Inv s) (hact : slaveAction now s = .ok t) : Inv t := by
  have hk := slaveAction_keeps hact
  have hends := slaveAction_ends h hact
  have hqueue := queueInv_congr ⟨h.queue, h.entries, h.head⟩ hk.params hk.q hk.cur hk.curq
  exact ⟨hends.rx, hends.tx, hqueue.queue, hqueue.entries, hqueue.head,
    by rw [mstateOk, hk.mstate, hk.cur]; exact h.mst, hends.sst,
    by rw [roleOk, hk.params, hk.q, hk.curq, hk.mstate]; exact h.role⟩

theorem stateAction_inv {now : Time} {s t : State} (h : Inv s) (hact : stateAction now s = .ok t) : Inv t := by
  unfold stateAction at hact
  split at hact
  next hrole => exact masterAction_inv h hrole hact
  next => exact slaveAction_inv h hact

/-! The whole step. -/

theorem exec_inv {i : Instr} {s t : State} (h : Inv s) (hexec : exec i s = .next t) : Inv t := by
  by_cases htimed : ∃ now chunk, i = .poll now chunk ∨ i = .rxpush now chunk
  · obtain ⟨now, chunk, rfl | rfl⟩ := htimed
    · obtain ⟨u, hact, rfl⟩ := poll_next hexec
      exact inv_setResult (stateAction_inv (inv_receive h now chunk) hact) .ok .none
    · rw [exec_rxpush] at hexec
      cases hexec
      exact inv_setResult (inv_receive h now chunk) .ok .none
  · exact effect_inv h (exec_effect (fun now chunk => not_or.mp fun hi => htimed ⟨now, chunk, hi⟩) hexec)

theorem takeInput_inv {i : Input} {s t : State} (h : Inv s) (htake : takeInput i s = .next t) : Inv t := by
  cases i with
  | rst beside =>
    cases htake
    exact inv_applyReset s
  | cmd p =>
    rcases present_cases htake with ⟨i, hexec⟩ | heffect
    · exact exec_inv h hexec
    · exact effect_inv h heffect
  | overlap first second => cases htake

/-- Settles O59: by the kinds of input; a command by its effect, a POLL by the state action of its role. -/
theorem stepKeepsInv : Obligations.StepKeepsInv := by
  intro s t h hstep
  cases hin : s.inputs with
  | nil =>
    rw [step_of_inputs_nil hin] at hstep
    cases hstep
    exact h
  | cons i rest =>
    rw [step_of_inputs_cons hin] at hstep
    exact takeInput_inv (inv_withInputs h rest) hstep

/-! The two time registers. -/

/-- The state action of either role never stamps `LASTRX`. -/
theorem stateAction_lastRx {now : Time} {s t : State} (hact : stateAction now s = .ok t) : t.lastRx = s.lastRx := by
  unfold stateAction at hact
  split at hact
  · exact (masterAction_keeps hact).lastRx
  · exact (slaveAction_keeps hact).lastRx

/-- The state action of either role stamps `LASTTX` exactly when its events show a frame sent. -/
theorem stateAction_sends {now : Time} {s t : State} (hact : stateAction now s = .ok t) : Sends now s t := by
  unfold stateAction at hact
  split at hact
  · exact masterAction_sends hact
  · exact slaveAction_sends hact

/-- The tap of an append hands nothing to the transport, so it does not bear on `LASTTX`. -/
theorem sends_receive {now : Time} {chunk : List Byte} {s t : State} (h : Sends now (receive now chunk s) t) :
    Sends now s t := by
  obtain ⟨es, hevents, hlast⟩ := h.out
  rw [receive_events, List.append_assoc] at hevents
  have hquiet : (if chunk = [] then [] else [Event.rx chunk]).all quiet = true := by split <;> rfl
  exact ⟨_, hevents, by rw [sentOk_quiet hquiet, hlast, receive_lastTx]⟩

theorem setReg_times (data : Time) (s : State) (r : Reg) :
    (setReg data s r).lastRx = s.lastRx ∧ (setReg data s r).lastTx = s.lastTx := by
  cases r <;> exact ⟨rfl, rfl⟩

theorem effect_times {s t : State} (h : Effect s t) : t.lastRx = s.lastRx ∧ t.lastTx = s.lastTx := by
  cases h with
  | configures data r => exact setReg_times data s r
  | answers | builds | enqueues | clears => exact ⟨rfl, rfl⟩

/-- Settles O42: a POLL by its append and its state action, an RXPUSH by its append, the others by their effect. -/
theorem timeRegisterWriters : Obligations.TimeRegisterWriters := by
  intro i s t hexec
  refine ⟨?_, ?_, fun hi => effect_times (exec_effect hi hexec)⟩
  · rintro now chunk rfl
    obtain ⟨u, hact, rfl⟩ := poll_next hexec
    exact ⟨(stateAction_lastRx hact).trans (receive_lastRx now chunk s), (sends_receive (stateAction_sends hact)).out⟩
  · rintro now chunk rfl
    rw [exec_rxpush] at hexec
    cases hexec
    exact ⟨receive_lastRx now chunk s, receive_lastTx now chunk s⟩

end Sys2Proof.Machine
end

section
/-! PROOFS. The decoders at the fill count (20_memory.md R64). A decoder reads its fixed part before it tests anything, so
a last fixed read that is out of bounds decides the outcome whatever the reads before it do. -/

namespace Sys2Proof.Machine

open Sys2Proof.Laws

/-! A guarded read faults by no other name, so what follows it may take over. -/

theorem byteAt_bind_outOfBounds {α : Type} {B : List Byte} {a : Nat} {k : Byte → Except Fault α}
    (hk : ∀ b, k b = .error .outOfBounds) : (byteAt B a >>= k) = .error .outOfBounds := by
  by_cases ha : a < B.length
  · rw [byteAt_eq ha, except_bind_ok, hk]
  · rw [byteAt_outOfBounds (by omega), except_bind_error]

theorem getWord_bind_outOfBounds {α : Type} {B : List Byte} {a : Nat} {k : Word → Except Fault α}
    (hk : ∀ w, k w = .error .outOfBounds) : (getWord B a >>= k) = .error .outOfBounds := by
  by_cases ha : a + 1 < B.length
  · rw [getWord_eq ha, except_bind_ok, hk]
  · rw [getWord_outOfBounds (by omega), except_bind_error]

/-- Two words of which the second is not all buffered. -/
theorem two_words_outOfBounds {α : Type} {B : List Byte} {a b : Nat} {k : Word → Word → Except Fault α}
    (h : B.length ≤ b + 1) : (do let v ← getWord B a; let w ← getWord B b; k v w) = .error .outOfBounds :=
  getWord_bind_outOfBounds fun _ => by rw [getWord_outOfBounds h, except_bind_error]

/-- Two words and a byte that is not buffered. -/
theorem two_words_byte_outOfBounds {α : Type} {B : List Byte} {a b c : Nat} {k : Word → Word → Byte → Except Fault α}
    (h : B.length ≤ c) :
    (do let v ← getWord B a; let w ← getWord B b; let n ← byteAt B c; k v w n) = .error .outOfBounds :=
  getWord_bind_outOfBounds fun _ => getWord_bind_outOfBounds fun _ => by
    rw [byteAt_outOfBounds h, except_bind_error]

/-! The fixed part of each decoder (43_frame_decode_sync.md R193 to R211). -/

section
variable {B : List Byte} {off : Nat}

theorem decReadReq_outOfBounds (fn : Byte) (h : B.length < off + 6) : decReadReq fn B off = .error .outOfBounds :=
  byteAt_bind_outOfBounds fun _ => two_words_outOfBounds (by omega)

theorem decWriteReq_outOfBounds (fn : Byte) (h : B.length < off + 6) : decWriteReq fn B off = .error .outOfBounds :=
  byteAt_bind_outOfBounds fun _ => two_words_outOfBounds (by omega)

theorem decReqWMC_outOfBounds (h : B.length < off + 7) : decReqWMC B off = .error .outOfBounds :=
  two_words_byte_outOfBounds (by omega)

theorem decReqWMR_outOfBounds (h : B.length < off + 7) : decReqWMR B off = .error .outOfBounds :=
  two_words_byte_outOfBounds (by omega)

theorem decReqRFR_outOfBounds (h : B.length < off + 10) : decReqRFR B off = .error .outOfBounds :=
  byteAt_bind_outOfBounds fun _ => getWord_bind_outOfBounds fun _ => two_words_outOfBounds (by omega)

theorem decReqUNSUP_outOfBounds (h : B.length < off + 2) : decReqUNSUP B off = .error .outOfBounds :=
  byteAt_bind_outOfBounds fun _ => by rw [byteAt_outOfBounds (by omega), except_bind_error]

theorem decRspEXC_outOfBounds (h : B.length < off + 3) : decRspEXC B off = .error .outOfBounds :=
  byteAt_bind_outOfBounds fun _ => byteAt_bind_outOfBounds fun _ => by
    rw [byteAt_outOfBounds (by omega), except_bind_error]

theorem decRspRC_outOfBounds (r : Request) (h : B.length < off + 3) : decRspRC B off r = .error .outOfBounds := by
  rw [decRspRC, byteAt_outOfBounds (by omega), except_bind_error]

theorem decRegisters_outOfBounds (fn : Byte) (r : Request) (h : B.length < off + 3) :
    decRegisters fn B off r = .error .outOfBounds := by
  rw [decRegisters, byteAt_outOfBounds (by omega), except_bind_error]

theorem decRspRFR_outOfBounds (h : B.length < off + 3) : decRspRFR B off = .error .outOfBounds := by
  rw [decRspRFR, byteAt_outOfBounds (by omega), except_bind_error]

theorem decEchoValue_outOfBounds (fn : Byte) (wire : Word → Word) (r : Request) (h : B.length < off + 6) :
    decEchoValue fn wire B off r = .error .outOfBounds :=
  two_words_outOfBounds (by omega)

theorem decEchoQty_outOfBounds (fn : Byte) (r : Request) (h : B.length < off + 6) :
    decEchoQty fn B off r = .error .outOfBounds :=
  two_words_outOfBounds (by omega)

end

/-! A fault of the decoder is the outcome of the decode form. -/

theorem showRequest_of_error {e : Except Fault (Option Request)} {f : Fault} (h : e = .error f) (s : State) :
    showRequest e s = .fault f := by
  rw [h, showRequest]

theorem showResponse_of_error {e : Except Fault (Option Response)} {f : Fault} (h : e = .error f) (s : State) :
    showResponse e s = .fault f := by
  rw [h, showResponse]

/-- Settles O27: each decode form shows what its decoder gives on `RXB`, whose length is the fill count. -/
theorem decodeOutOfBounds : Obligations.DecodeOutOfBounds := by
  intro s off cur
  rw [← rxBytes_length s]
  simp only [List.forall_mem_cons]
  refine ⟨fun h => ?fixed6, fun h => ?fixed10, fun h => ?fixed7, fun h => ?fixed2, fun h => ?fixed3⟩
  case fixed6 =>
    have hread := fun fn => showRequest_of_error (decReadReq_outOfBounds fn h) s
    have hwrite := fun fn => showRequest_of_error (decWriteReq_outOfBounds fn h) s
    have hvalue := fun fn wire r => showResponse_of_error (decEchoValue_outOfBounds fn wire r h) s
    have hqty := fun fn r => showResponse_of_error (decEchoQty_outOfBounds fn r h) s
    exact ⟨hread _, hread _, hread _, hwrite _, hwrite _, hvalue _ _ _, hvalue _ _ _, hqty _ _, hqty _ _,
      List.forall_mem_nil _⟩
  case fixed10 => exact showRequest_of_error (decReqRFR_outOfBounds h) s
  case fixed7 =>
    exact ⟨showRequest_of_error (decReqWMC_outOfBounds h) s, showRequest_of_error (decReqWMR_outOfBounds h) s⟩
  case fixed2 => exact showRequest_of_error (decReqUNSUP_outOfBounds h) s
  case fixed3 =>
    have hregs := fun fn r => showResponse_of_error (decRegisters_outOfBounds fn r h) s
    exact ⟨showResponse_of_error (decRspEXC_outOfBounds h) s, showResponse_of_error (decRspRC_outOfBounds _ h) s,
      hregs _ _, hregs _ _, showResponse_of_error (decRspRFR_outOfBounds h) s, List.forall_mem_nil _⟩

end Sys2Proof.Machine
end

section
/-! PROOFS. The decoder and the encoder of a port word (30_encoding.md R96, R110, R111, R113): one equation per language
and per kind of row, from which decode inverts encode, and what the decoder accepts is well-formed. -/

namespace Sys2Proof.Machine

/-! The decoder, by the language of the port word. -/

section
variable {p : PortWord}

theorem decode_of_command (hl : p.lang = .command) : decode p = decodeCommand p := by
  rw [decode, hl]

theorem decode_of_request (hl : p.lang = .request) (hoff : p.offsetAdmitted = true) :
    decode p = .ok (decodeRequestKind p) := by
  simp only [decode, hl, hoff, if_true]

theorem decode_of_response (hl : p.lang = .response) (hoff : p.offsetAdmitted = true) :
    decode p = decodeResponseKind p := by
  simp only [decode, hl, hoff, if_true]

/-- A frame row's decode form at an offset that `RXB` does not have (log 19). -/
theorem decode_of_badOffset (hl : p.lang ≠ .command) (hoff : p.offsetAdmitted = false) :
    decode p = .error (.badOffset p.off) := by
  cases hlang : p.lang with
  | command => exact absurd hlang hl
  | request | response => simp [decode, hlang, hoff]

/-! The rows that are chosen by what the code byte is not. -/

theorem decodeCommand_of_reserved (hcode : p.code ∉ Safety.commandCodes) :
    decodeCommand p = .error (.reservedOpcode p.code) := by
  simp only [Safety.commandCodes, List.mem_cons, List.not_mem_nil, or_false, not_or] at hcode
  simp only [decodeCommand, hcode, if_false]

theorem decodeRequestKind_of_unsupported (hcode : p.code ∉ Config.supported) :
    decodeRequestKind p = .reqUNSUP p.unsupForm := by
  simp only [Config.supported, List.mem_cons, List.not_mem_nil, or_false, not_or] at hcode
  simp only [decodeRequestKind, hcode, if_false]

theorem decodeResponseKind_of_unsupported (hcode : p.code ∉ Config.supported) :
    decodeResponseKind p = if excBit p.code then .ok (.rspEXC p.excForm) else .error (.noLayout p.code) := by
  simp only [Config.supported, List.mem_cons, List.not_mem_nil, or_false, not_or] at hcode
  simp only [decodeResponseKind, hcode, if_false]

/-- Bit 7 tells an exception from the eight functions (30_encoding.md R93). -/
theorem not_supported_of_excBit {fn : Byte} (hfn : excBit fn = true) : fn ∉ Config.supported := by
  have hclear : ∀ c ∈ Config.supported, excBit c = false := by simp [Config.supported, excBit]
  intro hmem
  exact Bool.false_ne_true ((hclear fn hmem).symm.trans hfn)

end

/-! The form read off the port: a request or response row is well-formed exactly when its offset is admitted, and the
two rows without a code byte of their own need their function byte besides (30_encoding.md R99, R107). -/

section
variable {p : PortWord}

theorem reqForm_wf (p : PortWord) : p.reqForm.wf = p.offsetAdmitted := by
  unfold PortWord.reqForm PortWord.offsetAdmitted
  cases p.form <;> rfl

theorem rspForm_wf (p : PortWord) : p.rspForm.wf = p.offsetAdmitted := by
  unfold PortWord.rspForm PortWord.offsetAdmitted
  cases p.form <;> rfl

theorem unsupForm_wf (hoff : p.offsetAdmitted = true) (hcode : p.code ∉ Config.supported) :
    p.unsupForm.wf = true := by
  unfold PortWord.offsetAdmitted at hoff
  unfold PortWord.unsupForm
  cases hform : p.form with
  | enc => simpa [UnsupForm.wf] using hcode
  | dec => rw [hform] at hoff; exact hoff

theorem excForm_wf (hoff : p.offsetAdmitted = true) (hcode : excBit p.code = true) : p.excForm.wf = true := by
  unfold PortWord.offsetAdmitted at hoff
  unfold PortWord.excForm
  cases hform : p.form with
  | enc => exact hcode
  | dec => rw [hform] at hoff; exact hoff

end

/-! The port word of a frame form is in its row's language and reads back as that form. -/

section
variable (code : Byte)

@[simp] theorem reqWord_lang (f : ReqForm) : (f.word code).lang = .request := by cases f <;> rfl

@[simp] theorem reqWord_code (f : ReqForm) : (f.word code).code = code := by cases f <;> rfl

@[simp] theorem reqWord_reqForm (f : ReqForm) : (f.word code).reqForm = f := by cases f <;> rfl

@[simp] theorem rspWord_lang (f : RspForm) : (f.word code).lang = .response := by cases f <;> rfl

@[simp] theorem rspWord_code (f : RspForm) : (f.word code).code = code := by cases f <;> rfl

@[simp] theorem rspWord_rspForm (f : RspForm) : (f.word code).rspForm = f := by cases f <;> rfl

end

theorem decode_reqWord {code : Byte} {row : ReqForm → Instr} {f : ReqForm}
    (hrow : ∀ p : PortWord, p.code = code → decodeRequestKind p = row p.reqForm) (hf : f.wf = true) :
    decode (f.word code) = .ok (row f) := by
  have hoff : (f.word code).offsetAdmitted = true := by rw [← reqForm_wf, reqWord_reqForm, hf]
  rw [decode_of_request (reqWord_lang code f) hoff, hrow _ (reqWord_code code f), reqWord_reqForm]

theorem decode_rspWord {code : Byte} {row : RspForm → Instr} {f : RspForm}
    (hrow : ∀ p : PortWord, p.code = code → decodeResponseKind p = .ok (row p.rspForm)) (hf : f.wf = true) :
    decode (f.word code) = .ok (row f) := by
  have hoff : (f.word code).offsetAdmitted = true := by rw [← rspForm_wf, rspWord_rspForm, hf]
  rw [decode_of_response (rspWord_lang code f) hoff, hrow _ (rspWord_code code f), rspWord_rspForm]

theorem decode_unsupWord {f : UnsupForm} (hf : f.wf = true) : decode f.word = .ok (.reqUNSUP f) := by
  obtain ⟨hlang, hread, hoff, hcode⟩ : f.word.lang = .request ∧ f.word.unsupForm = f ∧
      f.word.offsetAdmitted = true ∧ f.word.code ∉ Config.supported := by
    cases f with
    | enc slave fn =>
      have hfn : fn ∉ Config.supported := by simpa [UnsupForm.wf] using hf
      exact ⟨rfl, rfl, rfl, hfn⟩
    | dec off =>
      have hzero : (0x00 : Byte) ∉ Config.supported := by decide
      exact ⟨rfl, rfl, hf, hzero⟩
  rw [decode_of_request hlang hoff, decodeRequestKind_of_unsupported hcode, hread]

theorem decode_excWord {f : ExcForm} (hf : f.wf = true) : decode f.word = .ok (.rspEXC f) := by
  obtain ⟨hlang, hread, hoff, hexc⟩ : f.word.lang = .response ∧ f.word.excForm = f ∧
      f.word.offsetAdmitted = true ∧ excBit f.word.code = true := by
    cases f with
    | enc slave fn code => exact ⟨rfl, rfl, rfl, hf⟩
    | dec off =>
      have hbit : excBit 0x80 = true := by decide
      exact ⟨rfl, rfl, hf, hbit⟩
  rw [decode_of_response hlang hoff, decodeResponseKind_of_unsupported (not_supported_of_excBit hexc), if_pos hexc,
    hread]

/-- A command is read back as it is; a frame row from the code byte of the table and its form. -/
theorem decode_encode {i : Instr} (hi : i.wf = true) : decode (encode i) = .ok i := by
  cases i with
  | enqRC | enqRHR | enqRIR | enqWSC | enqWSR | enqWMC | enqWMR | enqRFR | poll | rxpush | cfgwr | cfgrd | qclear
  | qcount | qempty | crc16 | putw | getw | putwf | getwf => rfl
  | reqRC | reqRHR | reqRIR | reqWSC | reqWSR | reqWMC | reqWMR | reqRFR =>
    exact decode_reqWord (fun p hcode => by rw [decodeRequestKind, hcode]; rfl) hi
  | reqUNSUP => exact decode_unsupWord hi
  | rspRC | rspRHR | rspRIR | rspWSC | rspWSR | rspWMC | rspWMR | rspRFR =>
    exact decode_rspWord (fun p hcode => by rw [decodeResponseKind, hcode]; rfl) hi
  | rspEXC => exact decode_excWord hi

/-! What the decoder accepts. -/

/-- A code table is read entry by entry. -/
theorem wf_of_ite {c : Prop} [Decidable c] {i j : Instr} {e : Except DecodeError Instr} (hj : j.wf = true)
    (he : e = .ok i → i.wf = true) : (if c then .ok j else e) = .ok i → i.wf = true := by
  split
  · rintro ⟨⟩
    exact hj
  · exact he

section
variable {p : PortWord} {i : Instr}

/-- The operand ports of a command admit every value, so each of the twenty entries is well-formed. -/
theorem decodeCommand_wf : decodeCommand p = .ok i → i.wf = true := by
  unfold decodeCommand
  iterate 20 refine wf_of_ite rfl ?_
  exact nofun

theorem decodeRequestKind_wf (hoff : p.offsetAdmitted = true) : (decodeRequestKind p).wf = true := by
  by_cases hcode : p.code ∈ Config.supported
  · have hform : p.reqForm.wf = true := (reqForm_wf p).trans hoff
    simp only [Config.supported, List.mem_cons, List.not_mem_nil, or_false] at hcode
    rcases hcode with h | h | h | h | h | h | h | h <;> rw [decodeRequestKind, h] <;> exact hform
  · rw [decodeRequestKind_of_unsupported hcode]
    exact unsupForm_wf hoff hcode

theorem decodeResponseKind_wf (hoff : p.offsetAdmitted = true) : decodeResponseKind p = .ok i → i.wf = true := by
  have hform : p.rspForm.wf = true := (rspForm_wf p).trans hoff
  unfold decodeResponseKind
  iterate 8 refine wf_of_ite hform ?_
  split
  next hexc =>
    rintro ⟨⟩
    exact excForm_wf hoff hexc
  next => exact nofun

end

theorem wf_of_decode {p : PortWord} {i : Instr} (hdec : decode p = .ok i) : i.wf = true := by
  by_cases hl : p.lang = .command
  · exact decodeCommand_wf ((decode_of_command hl).symm.trans hdec)
  cases hoff : p.offsetAdmitted with
  | false => rw [decode_of_badOffset hl hoff] at hdec; cases hdec
  | true =>
    cases hlang : p.lang with
    | command => exact absurd hlang hl
    | request =>
      rw [decode_of_request hlang hoff] at hdec
      cases hdec
      exact decodeRequestKind_wf hoff
    | response => exact decodeResponseKind_wf hoff ((decode_of_response hlang hoff).symm.trans hdec)

/-- Settles O2: row by row for what is encoded, language by language for what is decoded. -/
theorem decodeInvertsEncode : Obligations.DecodeInvertsEncode :=
  ⟨fun _ => decode_encode, fun _ _ => wf_of_decode⟩

/-- Settles O3: each word is the encoding of its instruction. -/
theorem decodedWords : Obligations.DecodedWords :=
  ⟨decode_encode (i := .enqRHR 1 0 2) rfl, decode_encode (i := .poll 130 [0x01, 0x03]) rfl,
    decode_encode (i := .cfgwr 0x03 300) rfl, decode_encode (i := .qcount) rfl,
    decode_encode (i := .getw 0x12 0x34) rfl,
    decode_encode (i := .reqRFR (.enc { slave := 1, file := 4, recno := 1, reclen := 2 })) rfl,
    decode_encode (i := .rspEXC (.enc 1 0x83 2)) rfl⟩

/-- Settles O4: the opcode falls through the table of commands, and the word is rejected by its name. -/
theorem reservedOpcodeRefused : Obligations.ReservedOpcodeRefused := by
  intro s p rest hin hl hcode
  have hdec : decode p = .error (.reservedOpcode p.code) :=
    (decode_of_command hl).trans (decodeCommand_of_reserved hcode)
  rw [step_of_inputs_cons hin, takeInput_cmd, present, hdec]
  rfl

end Sys2Proof.Machine
end

section
/-! PROOFS. The CRC Engine (40_crc.md). The shift-XOR step is linear and loses nothing: the polynomial's bit 15 records
the bit shifted out. So the byte step is injective in the accumulator and in the byte, and O13 and O14 cancel it. -/

namespace Sys2Proof.Machine

open Sys2Proof.Laws

/-! The shift-XOR step, R131. -/

theorem crcShift_xor (x y : Word) : crcShift (x ^^^ y) = crcShift x ^^^ crcShift y := by
  unfold crcShift
  rw [BitVec.getLsbD_xor, BitVec.ushiftRight_xor_distrib]
  cases x.getLsbD 0 <;> cases y.getLsbD 0
  case true.true =>
    calc x >>> 1 ^^^ y >>> 1
        = x >>> 1 ^^^ y >>> 1 ^^^ (Config.crcPoly ^^^ Config.crcPoly) := by rw [BitVec.xor_self, BitVec.xor_zero]
      _ = (x >>> 1 ^^^ Config.crcPoly) ^^^ (y >>> 1 ^^^ Config.crcPoly) := by ac_rfl
  case true.false => simp only [Bool.xor_false, if_true, Bool.false_eq_true, if_false]; ac_rfl
  case false.true => simp only [Bool.false_xor, if_true, Bool.false_eq_true, if_false]; ac_rfl
  case false.false => rfl

theorem crcShift_of_even {c : Word} (h : c.getLsbD 0 = false) : crcShift c = c >>> 1 := by
  rw [crcShift, h, if_neg Bool.false_ne_true]

/-- Bit 15 after the step is the bit shifted out. -/
theorem crcShift_top (c : Word) : (crcShift c).getLsbD 15 = c.getLsbD 0 := by
  have hpoly : Config.crcPoly.getLsbD 15 = true := by decide
  have hshift : (c >>> 1).getLsbD 15 = false := by
    rw [BitVec.getLsbD_ushiftRight]; exact BitVec.getLsbD_of_ge c _ (by omega)
  unfold crcShift
  split
  next hc => rw [BitVec.getLsbD_xor, hpoly, hshift, hc]; rfl
  next hc => rw [hshift, Bool.eq_false_iff.mpr hc]

theorem crcShift_injective : Function.Injective crcShift := by
  intro x y hxy
  have hbit : x.getLsbD 0 = y.getLsbD 0 := by rw [← crcShift_top, hxy, crcShift_top]
  have hrest : x >>> 1 = y >>> 1 := by
    unfold crcShift at hxy
    rw [hbit] at hxy
    split at hxy
    · exact (BitVec.xor_left_inj _).mp hxy
    · exact hxy
  apply BitVec.eq_of_getLsbD_eq
  intro i _
  cases i with
  | zero => exact hbit
  | succ i => rw [Nat.add_comm, ← BitVec.getLsbD_ushiftRight, hrest, BitVec.getLsbD_ushiftRight]

theorem crcShift_iterate_xor (n : Nat) (x y : Word) : crcShift^[n] (x ^^^ y) = crcShift^[n] x ^^^ crcShift^[n] y := by
  induction n generalizing x y with
  | zero => rfl
  | succ n ih => simp only [Function.iterate_succ_apply, crcShift_xor, ih]

/-- While the bits shifted out are 0 the polynomial does not come in. -/
theorem crcShift_iterate_of_low_clear {n : Nat} {c : Word} (h : ∀ i < n, c.getLsbD i = false) :
    crcShift^[n] c = c >>> n := by
  induction n with
  | zero => exact (BitVec.ushiftRight_zero c).symm
  | succ n ih =>
    have hbit : (c >>> n).getLsbD 0 = false := (BitVec.getLsbD_ushiftRight c n 0).trans (h n (by omega))
    rw [Function.iterate_succ_apply', ih fun i hi => h i (by omega), crcShift_of_even hbit, BitVec.shiftRight_add]

/-! The byte step and the fold, R131 and R132. -/

theorem crcStep_eq_iterate (c : Word) (b : Byte) : crcStep c b = crcShift^[8] (c ^^^ b.setWidth 16) := rfl

theorem crcStep_zero (c : Word) : crcStep c 0 = crcShift^[8] c := congrArg crcShift^[8] BitVec.xor_zero

theorem crcStep_eq_crcStep_iff {c c' : Word} {b b' : Byte} :
    crcStep c b = crcStep c' b' ↔ c ^^^ b.setWidth 16 = c' ^^^ b'.setWidth 16 :=
  (crcShift_injective.iterate 8).eq_iff

theorem crcStep_eq_zero_iff {c : Word} {b : Byte} : crcStep c b = 0 ↔ c = b.setWidth 16 := by
  have hzero : crcShift^[8] 0 = 0 := by decide
  rw [crcStep_eq_iterate, (crcShift_injective.iterate 8).eq_iff' hzero]
  exact BitVec.xor_eq_zero_iff

theorem byte_setWidth_injective : Function.Injective (BitVec.setWidth 16 : Byte → Word) := by
  intro b b' h
  simpa using congrArg (BitVec.setWidth 8) h

theorem crcStep_left_injective (b : Byte) : Function.Injective (crcStep · b) := fun _ _ h =>
  (BitVec.xor_left_inj _).mp (crcStep_eq_crcStep_iff.mp h)

theorem crcStep_right_injective (c : Word) : Function.Injective (crcStep c) := fun _ _ h =>
  byte_setWidth_injective ((BitVec.xor_right_inj c).mp (crcStep_eq_crcStep_iff.mp h))

theorem crc16_append (seed : Word) (s t : List Byte) : crc16 seed (s ++ t) = crc16 (crc16 seed s) t :=
  List.foldl_append

theorem crc16_seed_injective (s : List Byte) : Function.Injective (crc16 · s) := by
  induction s with
  | nil => exact Function.injective_id
  | cons b s ih => exact ih.comp (crcStep_left_injective b)

/-! A word taken apart into its bytes, as the byte step takes it. -/

theorem mkWord_xor_low (hi lo : Byte) : mkWord hi lo ^^^ lo.setWidth 16 = hi.setWidth 16 <<< 8 := by
  apply BitVec.eq_of_getLsbD_eq
  intro i _
  rw [mkWord, BitVec.getLsbD_xor, BitVec.getLsbD_or]
  by_cases hlt : i < 8
  · rw [BitVec.getLsbD_shiftLeft]; simp [hlt]
  · have hlo : (lo.setWidth 16).getLsbD i = false := by
      rw [BitVec.getLsbD_setWidth, BitVec.getLsbD_of_ge lo i (by omega), Bool.and_false]
    rw [hlo, Bool.or_false, Bool.xor_false]

theorem eq_mkWord_iff {c : Word} {hi lo : Byte} : c = mkWord hi lo ↔ lo = loByte c ∧ hi = hiByte c := by
  constructor
  · rintro rfl; exact ⟨(loByte_mkWord hi lo).symm, (hiByte_mkWord hi lo).symm⟩
  · rintro ⟨rfl, rfl⟩; exact (mkWord_hi_lo c).symm

/-- The byte step takes the low byte off the accumulator and leaves the high one. -/
theorem crcStep_mkWord (hi lo : Byte) : crcStep (mkWord hi lo) lo = hi.setWidth 16 := by
  have hclear : ∀ i < 8, (hi.setWidth 16 <<< 8).getLsbD i = false := by
    intro i hlt; rw [BitVec.getLsbD_shiftLeft]; simp [hlt]
  rw [crcStep_eq_iterate, mkWord_xor_low, crcShift_iterate_of_low_clear hclear]
  apply BitVec.eq_of_toNat_eq
  have := hi.isLt
  simp [Nat.shiftLeft_eq, Nat.shiftRight_eq_div_pow]
  omega

/-- R135 (e), from any accumulator. -/
theorem crc16_pair_eq_zero_iff {c : Word} {lo hi : Byte} : crc16 c [lo, hi] = 0 ↔ c = mkWord hi lo :=
  calc crc16 c [lo, hi] = 0
    _ ↔ crcStep c lo = hi.setWidth 16 := crcStep_eq_zero_iff
    _ ↔ crcStep c lo = crcStep (mkWord hi lo) lo := by rw [crcStep_mkWord]
    _ ↔ c = mkWord hi lo := (crcStep_left_injective lo).eq_iff

/-- Settles O11: by definition, the command answers the fold, and eight shifts in a row are the shift iterated. -/
theorem crc16Command : Obligations.Crc16Command := fun _ _ _ => rfl

/-- Settles O12: the fold of a concatenation, the linearity of the shifts, and the byte entering by exclusive or. -/
theorem crcLaws : Obligations.CrcLaws := by
  refine ⟨crc16_append, fun x y => ?_, fun c b => ?_⟩
  · rw [crcStep_zero, crcStep_zero, crcStep_zero, crcShift_iterate_xor]
  · rw [crcStep_zero, crcStep_eq_iterate]

/-- Settles O13: only the two bytes of the accumulator itself bring it to zero. -/
theorem crcResidue : Obligations.CrcResidue := by
  intro seed s lo hi
  rw [crc16_append, crc16_pair_eq_zero_iff, eq_mkWord_iff]

/-- Settles O14: what stands after the byte cancels as a change of seed, what stands before is the same seed. -/
theorem crcSensitivity : Obligations.CrcSensitivity := by
  intro seed pre post b b' hne heq
  rw [crc16_append, crc16_append, crc16_cons, crc16_cons] at heq
  exact hne (crcStep_right_injective _ (crc16_seed_injective post heq))

end Sys2Proof.Machine
end

section
/-! PROOFS. The Word Codec (41_word_codec.md). Each command answers one value in every state, so what it answers is an
equation between words or bytes, and a word is its two bytes. -/

namespace Sys2Proof.Machine

open Sys2Proof.Laws Sys2Proof.Safety

theorem answers_iff_of_exec {i : Instr} {s : State} {u v : Value} (hexec : exec i s = answer u s) :
    Answers i s v ↔ u = v := by
  simp [Answers, hexec, answer, setResult]

theorem answers_putw_iff {v : Word} {s : State} {b0 b1 : Byte} :
    Answers (.putw v) s (.bytePair b0 b1) ↔ hiByte v = b0 ∧ loByte v = b1 := by
  rw [answers_iff_of_exec rfl, Value.bytePair.injEq]

theorem answers_putwf_iff {v : Word} {s : State} {b0 b1 : Byte} :
    Answers (.putwf v) s (.bytePair b0 b1) ↔ loByte v = b0 ∧ hiByte v = b1 := by
  rw [answers_iff_of_exec rfl, Value.bytePair.injEq]

theorem answers_getw_iff {b0 b1 : Byte} {s : State} {w : Word} :
    Answers (.getw b0 b1) s (.word w) ↔ mkWord b0 b1 = w := by
  rw [answers_iff_of_exec rfl, Value.word.injEq]

theorem answers_getwf_iff {b0 b1 : Byte} {s : State} {w : Word} :
    Answers (.getwf b0 b1) s (.word w) ↔ mkWord b1 b0 = w := by
  rw [answers_iff_of_exec rfl, Value.word.injEq]

/-- R145: the byte swap of a word is the word exactly when its two bytes are equal. -/
theorem mkWord_lo_hi_eq_iff {v : Word} : mkWord (loByte v) (hiByte v) = v ↔ hiByte v = loByte v := by
  rw [eq_comm, eq_mkWord_iff]
  exact and_iff_left_of_imp Eq.symm

/-- Settles O9: the values of the commands, read as numbers. -/
theorem wordCommands : Obligations.WordCommands := by
  intro s v b0 b1
  refine ⟨⟨hiByte v, loByte v, hiByte_toNat v, loByte_toNat v, ?_, ?_⟩, ⟨mkWord b0 b1, ?_, ?_⟩, ⟨mkWord b1 b0, ?_, ?_⟩⟩
  · exact answers_putw_iff.mpr ⟨rfl, rfl⟩
  · exact answers_putwf_iff.mpr ⟨rfl, rfl⟩
  · rw [mkWord_toNat, Nat.mul_comm]
  · exact answers_getw_iff.mpr rfl
  · rw [mkWord_toNat, Nat.mul_comm]
  · exact answers_getwf_iff.mpr rfl

/-- Settles O10: a word put together from its two bytes in their places is the word, and from its bytes crossed is its
byte swap. -/
theorem wordRoundTrips : Obligations.WordRoundTrips := by
  constructor
  · intro s v
    refine ⟨hiByte v, loByte v, answers_putw_iff.mpr ⟨rfl, rfl⟩, answers_putwf_iff.mpr ⟨rfl, rfl⟩, ?_, ?_, ?_, ?_⟩
    · exact answers_getw_iff.mpr (mkWord_hi_lo v)
    · exact answers_getwf_iff.mpr (mkWord_hi_lo v)
    · exact answers_getwf_iff.trans mkWord_lo_hi_eq_iff
    · exact answers_getw_iff.trans mkWord_lo_hi_eq_iff
  · intro s b0 b1
    refine ⟨mkWord b0 b1, mkWord b1 b0, answers_getw_iff.mpr rfl, answers_getwf_iff.mpr rfl, ?_, ?_⟩
    · exact answers_putw_iff.mpr ⟨hiByte_mkWord b0 b1, loByte_mkWord b0 b1⟩
    · exact answers_putwf_iff.mpr ⟨loByte_mkWord b1 b0, hiByte_mkWord b1 b0⟩

end Sys2Proof.Machine
end

section
/-! PROOFS. Packed coils (42_frame_encode.md R173, 43_frame_decode_sync.md R212): every bit of every packed byte, and
what the bits read back as. -/

namespace Sys2Proof.Machine

open Sys2Proof.Safety

@[simp] theorem pack_length (values : List Word) (qty : Nat) : (pack values qty).length = (qty + 7) / 8 := by
  rw [pack, List.length_map, List.length_range, coilBytes]

theorem pack_getD {values : List Word} {qty k : Nat} (hk : k < (qty + 7) / 8) :
    (pack values qty).getD k 0 = packByte values qty k := by
  simp [pack, coilBytes, List.getD_eq_getElem?_getD, hk]

/-- A byte into which the bits of `f` below `n` have been set, one by one. -/
theorem getLsbD_foldl_setBit (f : Nat → Bool) (n : Nat) {j : Nat} (hj : j < 8) :
    ((List.range n).foldl (fun (b : Byte) i => if f i then b ||| (1 <<< i : Nat) else b) 0).getLsbD j =
      (decide (j < n) && f j) := by
  induction n with
  | zero => simp
  | succ n ih =>
    have hlast : (decide (j < n + 1) && f j) = ((decide (j < n) && f j) || (decide (j = n) && f n)) := by
      by_cases hjn : j = n
      · simp [hjn]
      · simp [hjn, Nat.le_iff_lt_or_eq]
    rw [List.range_succ, List.foldl_append, List.foldl_cons, List.foldl_nil, hlast]
    cases f n with
    | false => simpa using ih
    | true =>
      have hbit : ((1 <<< n : Nat) : Byte).getLsbD j = decide (j = n) := by
        rw [BitVec.natCast_eq_ofNat, BitVec.getLsbD_ofNat, Nat.one_shiftLeft, Nat.testBit_two_pow, decide_eq_true hj,
          Bool.true_and, decide_eq_decide, eq_comm]
      rw [if_pos rfl, BitVec.getLsbD_or, ih, hbit, Bool.and_true]

theorem packByte_getLsbD (values : List Word) (qty k : Nat) {j : Nat} (hj : j < 8) :
    (packByte values qty k).getLsbD j = coilBit values qty k j := by
  rw [packByte, getLsbD_foldl_setBit _ _ hj, decide_eq_true hj, Bool.true_and]

/-- Packed coils unpack to 1 for every value that is not 0 (R212). -/
theorem coilsAt_pack {values : List Word} {qty : Nat} (pre post : List Byte) (h : qty ≤ values.length) :
    coilsAt (pre ++ pack values qty ++ post) pre.length qty = coilNorm (values.take qty) := by
  have hbit : ∀ i < qty, ((pre ++ pack values qty ++ post).getD (pre.length + i / 8) 0).getLsbD (i % 8) =
      decide (values.getD i 0 ≠ 0) := by
    intro i hi
    have hbyte : (pre ++ pack values qty ++ post).getD (pre.length + i / 8) 0 = packByte values qty (i / 8) := by
      rw [← pack_getD (by omega), List.append_assoc, List.getD_append_right _ _ _ _ (by omega), Nat.add_sub_cancel_left,
        List.getD_append _ _ _ _ (by rw [pack_length]; omega)]
    rw [hbyte, packByte_getLsbD _ _ _ (Nat.mod_lt _ (by omega)), coilBit, Nat.div_add_mod, decide_eq_true hi,
      Bool.true_and]
  apply List.ext_getElem
  · simp [coilsAt, coilNorm, h]
  · intro i hi _
    have hi : i < qty := by simpa [coilsAt] using hi
    have hval : values.getD i 0 = values[i] := by
      rw [List.getD_eq_getElem?_getD, List.getElem?_eq_getElem (by omega), Option.getD_some]
    simp only [coilsAt, coilNorm, List.getElem_map, List.getElem_range, List.getElem_take, hbit i hi, hval,
      decide_eq_true_eq]

/-- Settles O21: byte `k` of the field is the packed byte `k`, whose bits are set one by one. -/
theorem packCoils : Obligations.PackCoils := by
  intro values qty _
  refine ⟨pack_length values qty, fun k j hk hj => ?_⟩
  rw [pack_getD hk, packByte_getLsbD values qty k hj, coilBit]

end Sys2Proof.Machine
end

section
/-! PROOFS. The encoders (42_frame_encode.md). The emits only lengthen what `finish` will test and seal, so every
encoder is its shape test and then `finish` of one body, written out below; the frames, the overflow bounds and the
faults are read off these equations. -/

namespace Sys2Proof.Machine

open Sys2Proof.Laws Sys2Proof.Safety

/-! The emits before a `finish` (R150): whichever of them meets the capacity, the whole overflows. -/

theorem finishFrame_overflow {t : List Byte} (h : 256 < t.length + 2) : finishFrame t = .error .encodeOverflow :=
  if_pos h

theorem emit8_finish (b : Byte) (t u : List Byte) :
    (emit8 b t >>= fun t => finishFrame (t ++ u)) = finishFrame (t ++ ([b] ++ u)) := by
  unfold emit8
  split
  next hfull =>
    have hfull : 256 < t.length + 1 := hfull
    rw [except_bind_error, finishFrame_overflow (by rw [List.length_append]; omega)]
  next => rw [except_bind_ok, List.append_assoc]

theorem emit16_finish (v : Word) (t u : List Byte) :
    (emit16 v t >>= fun t => finishFrame (t ++ u)) = finishFrame (t ++ (putWord v ++ u)) := by
  unfold emit16
  split
  next hfull =>
    have hfull : 256 < t.length + 2 := hfull
    rw [except_bind_error, finishFrame_overflow (by rw [List.length_append]; omega)]
  next => rw [except_bind_ok, List.append_assoc]

theorem emitBytes_finish (bs t : List Byte) : (emitBytes bs t >>= finishFrame) = finishFrame (t ++ bs) := by
  induction bs generalizing t with
  | nil => rw [emitBytes, except_bind_ok, List.append_nil]
  | cons b bs ih =>
    rw [emitBytes, bind_assoc]
    simp only [ih]
    exact emit8_finish b t bs

theorem emitWords_finish (ws : List Word) (t : List Byte) :
    (emitWords ws t >>= finishFrame) = finishFrame (t ++ wordBytes ws) := by
  induction ws generalizing t with
  | nil => rw [emitWords, except_bind_ok, wordBytes_nil, List.append_nil]
  | cons w ws ih =>
    rw [emitWords, bind_assoc]
    simp only [ih]
    exact emit16_finish w t (wordBytes ws)

/-! The requests (R155 to R162). -/

/-- R158 written out. -/
theorem coilWord_eq (v : Word) : coilWord v = if v = 0 then 0x0000 else 0xFF00 := ite_not ..

section
variable {r : Request} {v : Word} {vs : List Word}

theorem encodeReqWSC_of_values (hv : r.values = v :: vs) :
    encodeReqWSC r = encodeTwoWords r.slave 0x05 r.addr (coilWord v) := by
  rw [encodeReqWSC, hv, firstValue, except_bind_ok]

theorem encodeReqWSR_of_values (hv : r.values = v :: vs) :
    encodeReqWSR r = encodeTwoWords r.slave 0x06 r.addr v := by
  rw [encodeReqWSR, hv, firstValue, except_bind_ok]

end

theorem encodeReqWSC_of_nil {r : Request} (hv : r.values = []) : encodeReqWSC r = .error .badShape := by
  rw [encodeReqWSC, hv, firstValue, except_bind_error]

theorem encodeReqWSR_of_nil {r : Request} (hv : r.values = []) : encodeReqWSR r = .error .badShape := by
  rw [encodeReqWSR, hv, firstValue, except_bind_error]

theorem encodeReqWMC_eq (r : Request) :
    encodeReqWMC r =
      if r.values.length < r.qty.toNat then .error .badShape
      else finishFrame ([r.slave, 0x0F] ++ putWord r.addr ++ putWord r.qty ++
        [BitVec.ofNat 8 ((r.qty.toNat + 7) / 8)] ++ pack r.values r.qty.toNat) := by
  simp only [encodeReqWMC, beginFrame_eq, except_bind_ok, emitBytes_finish, emit8_finish, emit16_finish, coilBytes,
    List.append_assoc]

theorem encodeReqWMR_eq (r : Request) :
    encodeReqWMR r =
      if r.values.length < r.qty.toNat then .error .badShape
      else finishFrame ([r.slave, 0x10] ++ putWord r.addr ++ putWord r.qty ++
        [BitVec.ofNat 8 (2 * r.qty.toNat)] ++ wordBytes (r.values.take r.qty.toNat)) := by
  simp only [encodeReqWMR, beginFrame_eq, except_bind_ok, emitWords_finish, emit8_finish, emit16_finish,
    List.append_assoc]

theorem encodeReqRFR_eq (r : Request) :
    encodeReqRFR r =
      finishFrame ([r.slave, 0x14, 0x07, 0x06] ++ putWord r.file ++ putWord r.recno ++ putWord r.reclen) := rfl

theorem encodeRequest_of_unsupported {r : Request} (hfn : r.fn ∉ Config.supported) :
    encodeRequest r = .error .encodeUnsupported := by
  simp only [Config.supported, List.mem_cons, List.not_mem_nil, or_false, not_or] at hfn
  simp only [encodeRequest, hfn, if_false]

/-! The responses (R164 to R171). -/

/-- The shape of a write-single response (10_state.md R23). -/
theorem singleValue_of_shape {p : Normal} {v : Word} (hq : p.qty = 1) (hv : p.values = [v]) :
    singleValue p = .ok v := by
  rw [singleValue, hv]
  exact if_pos hq

theorem singleValue_of_not_shape {p : Normal} (h : ¬ (p.qty = 1 ∧ p.values.length = 1)) :
    singleValue p = .error .badShape := by
  unfold singleValue
  split
  next hv => exact if_neg fun hq => h ⟨hq, by rw [hv, List.length_singleton]⟩
  next => rfl

section
variable {p : Normal} {v : Word}

theorem encodeRspWSC_of_shape (hq : p.qty = 1) (hv : p.values = [v]) :
    encodeRspWSC p = encodeTwoWords p.slave 0x05 p.addr (coilWord v) := by
  rw [encodeRspWSC, singleValue_of_shape hq hv, except_bind_ok]

theorem encodeRspWSR_of_shape (hq : p.qty = 1) (hv : p.values = [v]) :
    encodeRspWSR p = encodeTwoWords p.slave 0x06 p.addr v := by
  rw [encodeRspWSR, singleValue_of_shape hq hv, except_bind_ok]

theorem encodeRspWSC_of_not_shape (h : ¬ (p.qty = 1 ∧ p.values.length = 1)) : encodeRspWSC p = .error .badShape := by
  rw [encodeRspWSC, singleValue_of_not_shape h, except_bind_error]

theorem encodeRspWSR_of_not_shape (h : ¬ (p.qty = 1 ∧ p.values.length = 1)) : encodeRspWSR p = .error .badShape := by
  rw [encodeRspWSR, singleValue_of_not_shape h, except_bind_error]

theorem encodeEchoQty_of_nil (fn : Byte) (hv : p.values = []) :
    encodeEchoQty fn p = encodeTwoWords p.slave fn p.addr p.qty := by
  rw [encodeEchoQty, hv, List.isEmpty_nil, if_pos rfl]

theorem encodeEchoQty_of_ne_nil (fn : Byte) (hv : p.values ≠ []) : encodeEchoQty fn p = .error .badShape := by
  rw [encodeEchoQty, if_neg (mt List.isEmpty_iff.mp hv)]

end

theorem coilValues_iff {values : List Word} : coilValues values = true ↔ ∀ v ∈ values, v = 0 ∨ v = 1 := by
  simp only [coilValues, List.all_eq_true, decide_eq_true_eq]

theorem coilValues_of_large {values : List Word} (h : ∃ v ∈ values, 1 < v.toNat) : coilValues values = false := by
  obtain ⟨v, hmem, hv⟩ := h
  rw [← Bool.not_eq_true, coilValues_iff]
  intro hcoils
  rcases hcoils v hmem with rfl | rfl <;> simp at hv

theorem encodeRspRC_eq (p : Normal) :
    encodeRspRC p =
      if p.values.length ≠ p.qty.toNat ∨ coilValues p.values = false then .error .badShape
      else finishFrame ([p.slave, 0x01, BitVec.ofNat 8 ((p.qty.toNat + 7) / 8)] ++ pack p.values p.qty.toNat) := by
  simp only [encodeRspRC, beginFrame_eq, except_bind_ok, emitBytes_finish, emit8_finish, coilBytes]
  rfl

theorem encodeWordList_eq (fn : Byte) (p : Normal) :
    encodeWordList fn p =
      if p.values.length ≠ p.qty.toNat then .error .badShape
      else finishFrame ([p.slave, fn, BitVec.ofNat 8 (2 * p.qty.toNat)] ++ wordBytes p.values) := by
  simp only [encodeWordList, beginFrame_eq, except_bind_ok, emitWords_finish, emit8_finish]
  rfl

theorem encodeRspRFR_eq (p : Normal) :
    encodeRspRFR p =
      if p.values.length ≠ p.qty.toNat then .error .badShape
      else finishFrame
        ([p.slave, 0x14, BitVec.ofNat 8 (2 * p.qty.toNat + 2), BitVec.ofNat 8 (2 * p.qty.toNat + 1), 0x06] ++
          wordBytes p.values) := by
  simp only [encodeRspRFR, beginFrame_eq, except_bind_ok, emitWords_finish, emit8_finish]
  rfl

/-! What an encode form leaves. -/

section
variable {i : Instr} {s : State} {e : Except Fault (List Byte)}

theorem buildsFrame_of_ok {f : List Byte} (hexec : exec i s = buildFrame e s) (he : e = .ok f) (hfit : f.length ≤ 256) :
    BuildsFrame i s f := by
  subst he
  exact ⟨_, hexec, txBytes_putFrame f s, ofBytes_bufferOk hfit, rfl⟩

theorem buildsFrame_of_finish {body : List Byte} (hexec : exec i s = buildFrame e s) (he : e = finishFrame body)
    (hfit : body.length + 2 ≤ 256) : BuildsFrame i s (sealed body) :=
  buildsFrame_of_ok hexec (he.trans (finishFrame_eq hfit)) (by rwa [sealed_length])

theorem fault_of_error {f : Fault} (hexec : exec i s = buildFrame e s) (he : e = .error f) : exec i s = .fault f := by
  rw [hexec, he, buildFrame]

theorem fault_of_overflow {body : List Byte} (hexec : exec i s = buildFrame e s) (he : e = finishFrame body)
    (hlong : 256 < body.length + 2) : exec i s = .fault .encodeOverflow :=
  fault_of_error hexec (he.trans (finishFrame_overflow hlong))

theorem buildsFrame_of_twoWords {slave fn : Byte} {a b : Word} (hexec : exec i s = buildFrame e s)
    (he : e = encodeTwoWords slave fn a b) : BuildsFrame i s (sealed ([slave, fn] ++ putWord a ++ putWord b)) :=
  buildsFrame_of_ok hexec (he.trans (encodeTwoWords_eq slave fn a b)) (by simp)

end

/-- Settles O15: five frames of two words, of which a write-single request takes the second from its first value. -/
theorem requestFramesFixed : Obligations.RequestFramesFixed := by
  intro s d v vs
  refine ⟨buildsFrame_of_twoWords rfl rfl, buildsFrame_of_twoWords rfl rfl, buildsFrame_of_twoWords rfl rfl,
    fun hv => ?_, fun hv => ?_, ?_⟩
  · rw [← coilWord_eq]
    exact buildsFrame_of_twoWords rfl (encodeReqWSC_of_values (r := d.toRequest Config.fcWSC) hv)
  · exact buildsFrame_of_twoWords rfl (encodeReqWSR_of_values (r := d.toRequest Config.fcWSR) hv)
  · exact buildsFrame_of_finish rfl (encodeReqRFR_eq (d.toRequest Config.fcRFR)) (by simp)

/-- Settles O16: the two bodies, and their lengths against the capacity. -/
theorem requestFramesWithLists : Obligations.RequestFramesWithLists := by
  intro s d hlen
  have hwmc := (encodeReqWMC_eq (d.toRequest Config.fcWMC)).trans (if_neg (Nat.not_lt.mpr hlen))
  have hwmr := (encodeReqWMR_eq (d.toRequest Config.fcWMR)).trans (if_neg (Nat.not_lt.mpr hlen))
  refine ⟨fun hq => buildsFrame_of_finish rfl hwmc ?_, fun hq => fault_of_overflow rfl hwmc ?_,
    fun hq => buildsFrame_of_finish rfl hwmr ?_, fun hq => fault_of_overflow rfl hwmr ?_⟩
  all_goals
    simp only [FrameOps.toRequest, List.length_append, List.length_cons, List.length_nil, putWord_length, pack_length,
      wordBytes_length, List.length_take]
    omega

/-- Settles O17: the echoes are frames of two words, the exception a body of three bytes. -/
theorem responseFramesFixed : Obligations.ResponseFramesFixed := by
  intro s d v slave fn code
  refine ⟨fun hq hv => ?_, fun hq hv => ?_, fun hv => ?_, fun hv => ?_, ?_⟩
  · rw [← coilWord_eq]
    exact buildsFrame_of_twoWords rfl (encodeRspWSC_of_shape (p := d.toNormal Config.fcWSC) hq hv)
  · exact buildsFrame_of_twoWords rfl (encodeRspWSR_of_shape (p := d.toNormal Config.fcWSR) hq hv)
  · exact buildsFrame_of_twoWords rfl (encodeEchoQty_of_nil (p := d.toNormal Config.fcWMC) Config.fcWMC hv)
  · exact buildsFrame_of_twoWords rfl (encodeEchoQty_of_nil (p := d.toNormal Config.fcWMR) Config.fcWMR hv)
  · exact buildsFrame_of_ok rfl (encodeRspEXC_eq ⟨slave, fn, code⟩) (by simp)

/-- Settles O18: the bodies, and their lengths against the capacity. -/
theorem responseFramesWithLists : Obligations.ResponseFramesWithLists := by
  intro s d hlen
  have hrc := fun hv => (encodeRspRC_eq (d.toNormal Config.fcRC)).trans
    (if_neg (not_or.mpr ⟨not_not.mpr hlen, ne_false_of_eq_true hv⟩))
  have hlist := fun fn => (encodeWordList_eq fn (d.toNormal fn)).trans (if_neg (not_not.mpr hlen))
  have hrfr := (encodeRspRFR_eq (d.toNormal Config.fcRFR)).trans (if_neg (not_not.mpr hlen))
  rw [← coilValues_iff]
  refine ⟨fun hv hq => buildsFrame_of_finish rfl (hrc hv) ?_, fun hv hq => fault_of_overflow rfl (hrc hv) ?_,
    fun hq => ⟨buildsFrame_of_finish rfl (hlist Config.fcRHR) ?_, buildsFrame_of_finish rfl (hlist Config.fcRIR) ?_⟩,
    fun hq => ⟨fault_of_overflow rfl (hlist Config.fcRHR) ?_, fault_of_overflow rfl (hlist Config.fcRIR) ?_⟩,
    fun hq => buildsFrame_of_finish rfl hrfr ?_, fun hq => fault_of_overflow rfl hrfr ?_⟩
  all_goals
    simp only [FrameOps.toNormal, List.length_append, List.length_cons, List.length_nil, pack_length, wordBytes_length]
    omega

/-- Settles O19: each is the shape test of its encoder, which stands before every emit. -/
theorem encodeFaults : Obligations.EncodeFaults := by
  intro s d slave fn
  refine ⟨fun hfn => ?unsupported, fun hv => ?noValue, fun hlen => ?fewValues, fun hlen => ?wrongLength,
    fun hv => ?noCoil, fun hshape => ?notSingle, fun hv => ?valuesToEcho⟩
  case unsupported => exact fault_of_error rfl (encodeRequest_of_unsupported (r := { slave := slave, fn := fn }) hfn)
  case noValue =>
    exact ⟨fault_of_error rfl (encodeReqWSC_of_nil (r := d.toRequest Config.fcWSC) hv),
      fault_of_error rfl (encodeReqWSR_of_nil (r := d.toRequest Config.fcWSR) hv)⟩
  case fewValues => exact ⟨fault_of_error rfl (if_pos hlen), fault_of_error rfl (if_pos hlen)⟩
  case wrongLength =>
    exact ⟨fault_of_error rfl (if_pos (.inl hlen)), fault_of_error rfl (if_pos hlen), fault_of_error rfl (if_pos hlen),
      fault_of_error rfl (if_pos hlen)⟩
  case noCoil => exact fault_of_error rfl (if_pos (.inr (coilValues_of_large hv)))
  case notSingle =>
    exact ⟨fault_of_error rfl (encodeRspWSC_of_not_shape (p := d.toNormal Config.fcWSC) hshape),
      fault_of_error rfl (encodeRspWSR_of_not_shape (p := d.toNormal Config.fcWSR) hshape)⟩
  case valuesToEcho =>
    exact ⟨fault_of_error rfl (encodeEchoQty_of_ne_nil (p := d.toNormal Config.fcWMC) Config.fcWMC hv),
      fault_of_error rfl (encodeEchoQty_of_ne_nil (p := d.toNormal Config.fcWMR) Config.fcWMR hv)⟩

end Sys2Proof.Machine
end

section
/-! PROOFS. What every encoder returns (42_frame_encode.md R151 to R153). -/

namespace Sys2Proof.Machine

open Sys2Proof.Laws Sys2Proof.Safety

/-- Whatever frame an encode returns fits in `TXB` and seals the slave and the function byte as they stand, then a
payload. -/
def Headed (slave fn : Byte) (e : Except Fault (List Byte)) : Prop :=
  ∀ f, e = .ok f → f.length ≤ 256 ∧ ∃ payload, f = sealed (slave :: fn :: payload)

section
variable {slave fn : Byte}

theorem headed_finishFrame (payload : List Byte) : Headed slave fn (finishFrame (slave :: fn :: payload)) := by
  intro f hf
  obtain ⟨rfl, hfit⟩ := finishFrame_ok hf
  exact ⟨hfit, payload, rfl⟩

theorem headed_error (e : Fault) : Headed slave fn (.error e) := nofun

theorem headed_bind {α : Type} {x : Except Fault α} {k : α → Except Fault (List Byte)}
    (hk : ∀ a, Headed slave fn (k a)) : Headed slave fn (x >>= k) := by
  intro f hf
  obtain ⟨a, -, ha⟩ := bind_eq_ok.mp hf
  exact hk a f ha

/-- An encoder with a shape test. -/
theorem headed_ite {c : Prop} [Decidable c] {e : Fault} {x : Except Fault (List Byte)} (hx : Headed slave fn x) :
    Headed slave fn (if c then .error e else x) := by
  split
  · exact headed_error e
  · exact hx

theorem headed_twoWords (a b : Word) : Headed slave fn (encodeTwoWords slave fn a b) := by
  rw [encodeTwoWords_eq, ← finishFrame_eq (by simp [Config.txCap])]
  exact headed_finishFrame _

theorem headed_echoQty (p : Normal) : Headed p.slave fn (encodeEchoQty fn p) := by
  unfold encodeEchoQty
  split
  · exact headed_twoWords _ _
  · exact headed_error _

end

theorem encodeRequest_headed (r : Request) : Headed r.slave r.fn (encodeRequest r) := by
  unfold encodeRequest
  split
  next hfn => rw [hfn]; exact headed_twoWords _ _
  split
  next hfn => rw [hfn]; exact headed_twoWords _ _
  split
  next hfn => rw [hfn]; exact headed_twoWords _ _
  split
  next hfn => rw [hfn]; exact headed_bind fun _ => headed_twoWords _ _
  split
  next hfn => rw [hfn]; exact headed_bind fun _ => headed_twoWords _ _
  split
  next hfn => rw [hfn, encodeReqWMC_eq]; exact headed_ite (headed_finishFrame _)
  split
  next hfn => rw [hfn, encodeReqWMR_eq]; exact headed_ite (headed_finishFrame _)
  split
  next hfn => rw [hfn, encodeReqRFR_eq]; exact headed_finishFrame _
  exact headed_error _

theorem encodeNormal_headed (p : Normal) : Headed p.slave p.fn (encodeNormal p) := by
  unfold encodeNormal
  split
  next hfn => rw [hfn, encodeRspRC_eq]; exact headed_ite (headed_finishFrame _)
  split
  next hfn => rw [hfn, encodeRspRHR, encodeWordList_eq]; exact headed_ite (headed_finishFrame _)
  split
  next hfn => rw [hfn, encodeRspRIR, encodeWordList_eq]; exact headed_ite (headed_finishFrame _)
  split
  next hfn => rw [hfn]; exact headed_bind fun _ => headed_twoWords _ _
  split
  next hfn => rw [hfn]; exact headed_bind fun _ => headed_twoWords _ _
  split
  next hfn => rw [hfn]; exact headed_echoQty p
  split
  next hfn => rw [hfn]; exact headed_echoQty p
  split
  next hfn => rw [hfn, encodeRspRFR_eq]; exact headed_ite (headed_finishFrame _)
  exact headed_error _

/-- The two bytes that seal a body are its CRC, low byte first (40_crc.md R134). -/
theorem sealed_crc (body : List Byte) :
    ∃ lo hi : Byte, sealed body = body ++ [lo, hi] ∧ (crc16 0xFFFF body).toNat = 256 * hi.toNat + lo.toNat := by
  refine ⟨_, _, rfl, ?_⟩
  have hlt := (crc16 0xFFFF body).isLt
  rw [BitVec.toNat_ofNat, BitVec.toNat_ofNat]
  omega

/-- Settles O20: what every encoder returns, with the seal written out. -/
theorem encodedFramesAreSealed : Obligations.EncodedFramesAreSealed := by
  have written : ∀ {slave fn : Byte} {e : Except Fault (List Byte)}, Headed slave fn e → ∀ f, e = .ok f →
      f.length ≤ 256 ∧ ∃ (payload : List Byte) (lo hi : Byte), f = slave :: fn :: payload ++ [lo, hi] ∧
        (crc16 0xFFFF (slave :: fn :: payload)).toNat = 256 * hi.toNat + lo.toNat := by
    intro slave fn e hhead f hf
    obtain ⟨hfit, payload, rfl⟩ := hhead f hf
    exact ⟨hfit, payload, sealed_crc _⟩
  refine ⟨fun r => written (encodeRequest_headed r), fun p => written (encodeNormal_headed p), fun e f hf => ?_⟩
  cases (encodeRspEXC_eq e).symm.trans hf
  exact sealed_crc _

end Sys2Proof.Machine
end

section
/-! PROOFS. What an encoded Request reads back as (42_frame_encode.md R175): the slave scan accepts a frame whose length
rule gives its own length, and each decoder finds its fields where the encoder put them. -/

namespace Sys2Proof.Machine

open Sys2Proof.Laws Sys2Proof.Safety

/-! The scan of a whole frame (43_frame_decode_sync.md R190, R191). -/

/-- A candidate at offset 0 is found first. -/
theorem findS_of_validS_zero {B : List Byte} {h : Hit} (hv : validS B h) (hoff : h.off = 0) :
    findS B = .ok (some h) := by
  obtain ⟨hlen, -⟩ := validS_iff.mp hv
  obtain ⟨r, hr, hiff⟩ := testS_spec (B := B) (off := 0) (hoff ▸ hlen)
  have hhit : testS B 0 = .ok (some h) := hr.trans (congrArg Except.ok ((hiff h).mpr ⟨hoff, hv⟩))
  have hoffs : ∃ rest, scanOffsets B Config.minLenS = 0 :: rest := by
    rw [scanOffsets, if_neg (by omega), List.range_succ_eq_map]
    exact ⟨_, rfl⟩
  obtain ⟨rest, hrest⟩ := hoffs
  rw [findS, hrest, scan, hhit, except_bind_ok]

/-- A sealed body whose length rule gives the length of the frame is found whole. -/
theorem findS_sealed {body : List Byte} (h2 : 2 ≤ body.length) (hslave : (body.getD 0 0).toNat < 247)
    (hspan : reqSpan (sealed body) (body.getD 1 0) 0 (sealed body).length) :
    findS (sealed body) = .ok (some ⟨0, (sealed body).length, false⟩) := by
  have hbyte : ∀ i, i < body.length → (sealed body)[0 + i]? = some (body.getD i 0) := by
    intro i hi
    rw [Nat.zero_add, sealed, List.getElem?_append_left hi, List.getD_eq_getElem?_getD, List.getElem?_eq_getElem hi,
      Option.getD_some]
  have hmin : 0 + Config.minLenS ≤ (sealed body).length := by rw [sealed_length, Config.minLenS]; omega
  have hcrc : crcOk (sealed body) 0 (sealed body).length = .ok true := by rw [sealed_length]; exact crcOk_sealed body
  exact findS_of_validS_zero (validS_iff.mpr ⟨hmin, ⟨_, hbyte 0 (by omega), hslave⟩,
    ⟨_, hbyte 1 (by omega), reqLen_iff.mpr hspan⟩, (Nat.zero_add _).le, rfl, hcrc⟩) rfl

/-! The request decoders where all they read is buffered (R203 to R210). -/

section
variable {B : List Byte} {off : Nat}

theorem decReadReq_eq (fn : Byte) (h : off + 6 ≤ B.length) :
    decReadReq fn B off = .ok (some
      { slave := B.getD off 0, fn := fn, addr := wordAt B (off + 2), qty := wordAt B (off + 4) }) := by
  rw [decReadReq, byteAt_getD (by omega), except_bind_ok, getWord_wordAt (by omega), except_bind_ok,
    getWord_wordAt (by omega), except_bind_ok]

theorem decWriteReq_eq (fn : Byte) (h : off + 6 ≤ B.length) :
    decWriteReq fn B off = .ok (some
      { slave := B.getD off 0, fn := fn, addr := wordAt B (off + 2), qty := 1, values := [wordAt B (off + 4)] }) := by
  rw [decWriteReq, byteAt_getD (by omega), except_bind_ok, getWord_wordAt (by omega), except_bind_ok,
    getWord_wordAt (by omega), except_bind_ok]

theorem decReqWMC_eq (hbc : (wordAt B (off + 4)).toNat ≤ 8 * (B.getD (off + 6) 0).toNat)
    (h : off + 7 + ((wordAt B (off + 4)).toNat + 7) / 8 ≤ B.length) :
    decReqWMC B off = .ok (some
      { slave := B.getD off 0, fn := Config.fcWMC, addr := wordAt B (off + 2), qty := wordAt B (off + 4),
        values := coilsAt B (off + 7) (wordAt B (off + 4)).toNat }) := by
  rw [decReqWMC, getWord_wordAt (by omega), except_bind_ok, getWord_wordAt (by omega), except_bind_ok,
    byteAt_getD (by omega), except_bind_ok, if_neg (by omega), getCoils_coilsAt (by omega), except_bind_ok,
    byteAt_getD (by omega), except_bind_ok]

theorem decReqWMR_eq (hbc : 2 * (wordAt B (off + 4)).toNat ≤ (B.getD (off + 6) 0).toNat)
    (h : off + 7 + 2 * (wordAt B (off + 4)).toNat ≤ B.length) :
    decReqWMR B off = .ok (some
      { slave := B.getD off 0, fn := Config.fcWMR, addr := wordAt B (off + 2), qty := wordAt B (off + 4),
        values := wordsAt B (off + 7) (wordAt B (off + 4)).toNat }) := by
  rw [decReqWMR, getWord_wordAt (by omega), except_bind_ok, getWord_wordAt (by omega), except_bind_ok,
    byteAt_getD (by omega), except_bind_ok, if_neg (by omega), getWords_wordsAt (by omega), except_bind_ok,
    byteAt_getD (by omega), except_bind_ok]

theorem decReqRFR_eq (h : off + 10 ≤ B.length) :
    decReqRFR B off = .ok (some
      { slave := B.getD off 0, fn := Config.fcRFR, file := wordAt B (off + 4), recno := wordAt B (off + 6),
        reclen := wordAt B (off + 8) }) := by
  rw [decReqRFR, byteAt_getD (by omega), except_bind_ok, getWord_wordAt (by omega), except_bind_ok,
    getWord_wordAt (by omega), except_bind_ok, getWord_wordAt (by omega), except_bind_ok]

end

/-! The selector on the three functions whose layout is their own (R202). -/

section
variable {B : List Byte} {off : Nat}

theorem decodeRequest_of_WMC (hg : byteAt B (off + 1) = .ok 0x0F) : decodeRequest B off = decReqWMC B off := by
  rw [decodeRequest, hg]
  rfl

theorem decodeRequest_of_WMR (hg : byteAt B (off + 1) = .ok 0x10) : decodeRequest B off = decReqWMR B off := by
  rw [decodeRequest, hg]
  rfl

theorem decodeRequest_of_RFR (hg : byteAt B (off + 1) = .ok 0x14) : decodeRequest B off = decReqRFR B off := by
  rw [decodeRequest, hg]
  rfl

end

/-! The frames of the eight functions, by their layout. -/

/-- The frame is found whole, and decodes to this Request. -/
def ReadsAs (f : List Byte) (q : Request) : Prop :=
  findS f = .ok (some ⟨0, f.length, false⟩) ∧ decodeRequest f 0 = .ok (some q)

section
variable {slave fn : Byte}

theorem findS_twoWords (a b : Word) (hfn : fn ∈ [0x01, 0x03, 0x04, 0x05, 0x06]) (hslave : slave.toNat < 247) :
    findS (sealed ([slave, fn] ++ putWord a ++ putWord b)) =
      .ok (some ⟨0, (sealed ([slave, fn] ++ putWord a ++ putWord b)).length, false⟩) :=
  findS_sealed (by simp) hslave (.inl ⟨hfn, by simp⟩)

theorem decReadReq_twoWords (a b : Word) :
    decReadReq fn (sealed ([slave, fn] ++ putWord a ++ putWord b)) 0 =
      .ok (some { slave := slave, fn := fn, addr := a, qty := b }) := by
  rw [decReadReq_eq fn (by simp)]
  simp only [sealed, wordAt, putWord, List.cons_append, List.nil_append, List.getD_cons_succ, List.getD_cons_zero,
    Nat.zero_add, mkWord_hi_lo]

theorem decWriteReq_twoWords (a b : Word) :
    decWriteReq fn (sealed ([slave, fn] ++ putWord a ++ putWord b)) 0 =
      .ok (some { slave := slave, fn := fn, addr := a, qty := 1, values := [b] }) := by
  rw [decWriteReq_eq fn (by simp)]
  simp only [sealed, wordAt, putWord, List.cons_append, List.nil_append, List.getD_cons_succ, List.getD_cons_zero,
    Nat.zero_add, mkWord_hi_lo]

theorem readsAs_read (a b : Word) (hfn : fn = 0x01 ∨ fn = 0x03 ∨ fn = 0x04) (hslave : slave.toNat < 247) :
    ReadsAs (sealed ([slave, fn] ++ putWord a ++ putWord b)) { slave := slave, fn := fn, addr := a, qty := b } := by
  rcases hfn with rfl | rfl | rfl <;> exact ⟨findS_twoWords a b (by decide) hslave, decReadReq_twoWords a b⟩

theorem readsAs_writeSingle (a b : Word) (hfn : fn = 0x05 ∨ fn = 0x06) (hslave : slave.toNat < 247) :
    ReadsAs (sealed ([slave, fn] ++ putWord a ++ putWord b))
      { slave := slave, fn := fn, addr := a, qty := 1, values := [b] } := by
  rcases hfn with rfl | rfl <;> exact ⟨findS_twoWords a b (by decide) hslave, decWriteReq_twoWords a b⟩

theorem readsAs_RFR (file recno reclen : Word) (hslave : slave.toNat < 247) :
    ReadsAs (sealed ([slave, 0x14, 0x07, 0x06] ++ putWord file ++ putWord recno ++ putWord reclen))
      { slave := slave, fn := 0x14, file := file, recno := recno, reclen := reclen } := by
  constructor
  · exact findS_sealed (by simp) hslave (.inr (.inr (.inl ⟨rfl, by simp⟩)))
  · rw [decodeRequest_of_RFR rfl, decReqRFR_eq (by simp)]
    simp only [sealed, wordAt, putWord, List.cons_append, List.nil_append, List.getD_cons_succ, List.getD_cons_zero,
      Nat.zero_add, mkWord_hi_lo]

end

/-- The head of a write-multiple frame, up to its byte count (R160, R161). -/
def listHead (slave fn : Byte) (a q : Word) (bc : Byte) : List Byte := [slave, fn] ++ putWord a ++ putWord q ++ [bc]

section
variable {slave fn bc : Byte} {a q : Word} {data : List Byte}

@[simp] theorem listHead_length : (listHead slave fn a q bc).length = 7 := rfl

theorem listHead_addr (rest : List Byte) : wordAt (listHead slave fn a q bc ++ rest) 2 = a := mkWord_hi_lo a

theorem listHead_qty (rest : List Byte) : wordAt (listHead slave fn a q bc ++ rest) 4 = q := mkWord_hi_lo q

theorem listHead_slave (rest : List Byte) : (listHead slave fn a q bc ++ rest).getD 0 0 = slave := rfl

theorem listHead_count (rest : List Byte) : (listHead slave fn a q bc ++ rest).getD 6 0 = bc := rfl

/-- A byte count that counts the bytes after it makes the length rule give the whole frame (R191). -/
theorem findS_list (hfn : fn = 0x0F ∨ fn = 0x10) (hslave : slave.toNat < 247) (hbc : bc.toNat = data.length) :
    findS (sealed (listHead slave fn a q bc ++ data)) =
      .ok (some ⟨0, (sealed (listHead slave fn a q bc ++ data)).length, false⟩) :=
  findS_sealed (by rw [List.length_append, listHead_length]; omega) hslave
    (.inr (.inl ⟨List.mem_cons.mpr (hfn.imp_right List.mem_singleton.mpr), bc, rfl, by simp; omega⟩))

theorem readsAs_WMC {values : List Word} (hlen : q.toNat ≤ values.length) (hslave : slave.toNat < 247)
    (hbc : bc.toNat = (pack values q.toNat).length) :
    ReadsAs (sealed (listHead slave 0x0F a q bc ++ pack values q.toNat))
      { slave := slave, fn := 0x0F, addr := a, qty := q, values := coilNorm (values.take q.toNat) } := by
  refine ⟨findS_list (.inl rfl) hslave hbc, ?_⟩
  have hcoils := fun post => coilsAt_pack (listHead slave 0x0F a q bc) post hlen
  simp only [List.append_assoc, listHead_length] at hcoils
  rw [pack_length] at hbc
  rw [sealed_eq, List.append_assoc, decodeRequest_of_WMC rfl,
    decReqWMC_eq (by rw [listHead_qty, listHead_count]; omega) (by rw [listHead_qty]; simp), listHead_slave,
    listHead_addr, listHead_qty, Nat.zero_add, hcoils]

theorem readsAs_WMR {values : List Word} (hlen : values.length = q.toNat) (hslave : slave.toNat < 247)
    (hbc : bc.toNat = (wordBytes values).length) :
    ReadsAs (sealed (listHead slave 0x10 a q bc ++ wordBytes values))
      { slave := slave, fn := 0x10, addr := a, qty := q, values := values } := by
  refine ⟨findS_list (.inr rfl) hslave hbc, ?_⟩
  have hwords := fun post => wordsAt_wordBytes (listHead slave 0x10 a q bc) post values
  simp only [List.append_assoc, listHead_length, hlen] at hwords
  rw [wordBytes_length] at hbc
  rw [sealed_eq, List.append_assoc, decodeRequest_of_WMR rfl,
    decReqWMR_eq (by rw [listHead_qty, listHead_count]; omega) (by rw [listHead_qty]; simp; omega), listHead_slave,
    listHead_addr, listHead_qty, Nat.zero_add, hwords]

end

/-! The Request that the wire carries (R175). -/

theorem wireRequest_of_values_nil {r : Request} (hv : r.values = []) : wireRequest r = { r with retries := 0 } := by
  simp [wireRequest, hv, coilNorm]

/-- The byte count of a write-multiple frame that fits in `TXB` has not wrapped. -/
theorem byteCount_toNat {n : Nat} {slave fn : Byte} {a q : Word} {data f : List Byte} (hn : data.length = n)
    (h : finishFrame (listHead slave fn a q (BitVec.ofNat 8 n) ++ data) = .ok f) :
    (BitVec.ofNat 8 n).toNat = data.length := by
  obtain ⟨rfl, hfit⟩ := finishFrame_ok h
  rw [sealed_length, List.length_append, listHead_length, Config.txCap] at hfit
  rw [BitVec.toNat_ofNat, Nat.mod_eq_of_lt (by omega), hn]

section
variable {r : Request} {f : List Byte} (hshape : requestShape r = true) (hslave : r.slave.toNat < 247)
  (henc : encodeRequest r = .ok f)
include hshape hslave henc

theorem readsAs_wireRequest_of_read (hfn : r.fn = 0x01 ∨ r.fn = 0x03 ∨ r.fn = 0x04) : ReadsAs f (wireRequest r) := by
  obtain ⟨slave, fn, addr, qty, values, file, recno, reclen, retries⟩ := r
  obtain ⟨rfl, rfl, rfl, rfl⟩ : values = [] ∧ file = 0 ∧ recno = 0 ∧ reclen = 0 := by
    rw [requestShape, if_pos hfn] at hshape
    exact of_decide_eq_true hshape
  have htwo : encodeTwoWords slave fn addr qty = .ok f := by rcases hfn with rfl | rfl | rfl <;> exact henc
  cases (encodeTwoWords_eq ..).symm.trans htwo
  rw [wireRequest_of_values_nil rfl]
  exact readsAs_read addr qty hfn hslave

theorem readsAs_wireRequest_of_writeSingle (hfn : r.fn = 0x05 ∨ r.fn = 0x06) : ReadsAs f (wireRequest r) := by
  obtain ⟨slave, fn, addr, qty, values, file, recno, reclen, retries⟩ := r
  obtain ⟨rfl, hone, rfl, rfl, rfl⟩ : qty = 1 ∧ values.length = 1 ∧ file = 0 ∧ recno = 0 ∧ reclen = 0 := by
    rcases hfn with rfl | rfl <;> exact of_decide_eq_true hshape
  obtain ⟨v, rfl⟩ := List.length_eq_one_iff.mp hone
  rcases hfn with rfl | rfl
  · cases (encodeTwoWords_eq ..).symm.trans henc
    exact readsAs_writeSingle addr (coilWord v) (.inl rfl) hslave
  · cases (encodeTwoWords_eq ..).symm.trans henc
    exact readsAs_writeSingle addr v (.inr rfl) hslave

theorem readsAs_wireRequest_of_WMC (hfn : r.fn = 0x0F) : ReadsAs f (wireRequest r) := by
  obtain ⟨slave, fn, addr, qty, values, file, recno, reclen, retries⟩ := r
  obtain rfl : fn = 0x0F := hfn
  obtain ⟨hlen, rfl, rfl, rfl⟩ : values.length = qty.toNat ∧ file = 0 ∧ recno = 0 ∧ reclen = 0 :=
    of_decide_eq_true hshape
  have hfin := (encodeReqWMC_eq _).symm.trans henc
  rw [if_neg hlen.not_lt] at hfin
  obtain ⟨rfl, -⟩ := finishFrame_ok hfin
  have hread := readsAs_WMC (a := addr) hlen.ge hslave (byteCount_toNat (pack_length values qty.toNat) hfin)
  rw [List.take_of_length_le hlen.le] at hread
  exact hread

theorem readsAs_wireRequest_of_WMR (hfn : r.fn = 0x10) : ReadsAs f (wireRequest r) := by
  obtain ⟨slave, fn, addr, qty, values, file, recno, reclen, retries⟩ := r
  obtain rfl : fn = 0x10 := hfn
  obtain ⟨hlen, rfl, rfl, rfl⟩ : values.length = qty.toNat ∧ file = 0 ∧ recno = 0 ∧ reclen = 0 :=
    of_decide_eq_true hshape
  have hfin := (encodeReqWMR_eq _).symm.trans henc
  rw [if_neg hlen.not_lt, List.take_of_length_le hlen.le] at hfin
  obtain ⟨rfl, -⟩ := finishFrame_ok hfin
  exact readsAs_WMR hlen hslave (byteCount_toNat (by rw [wordBytes_length, hlen]) hfin)

theorem readsAs_wireRequest_of_RFR (hfn : r.fn = 0x14) : ReadsAs f (wireRequest r) := by
  obtain ⟨slave, fn, addr, qty, values, file, recno, reclen, retries⟩ := r
  obtain rfl : fn = 0x14 := hfn
  obtain ⟨rfl, rfl, rfl⟩ : addr = 0 ∧ qty = 0 ∧ values = [] := of_decide_eq_true hshape
  obtain ⟨rfl, -⟩ := finishFrame_ok ((encodeReqRFR_eq _).symm.trans henc)
  exact readsAs_RFR file recno reclen hslave

end

/-- Settles O28: by the layout of the frame, of which the scan sees the length and the decoder the fields. -/
theorem requestRoundTrip : Obligations.RequestRoundTrip := by
  intro r f hfn hshape hslave henc
  simp only [functionCodes, List.mem_cons, List.not_mem_nil, or_false] at hfn
  rcases hfn with h | h | h | h | h | h | h | h
  · exact readsAs_wireRequest_of_read hshape hslave henc (.inl h)
  · exact readsAs_wireRequest_of_read hshape hslave henc (.inr (.inl h))
  · exact readsAs_wireRequest_of_read hshape hslave henc (.inr (.inr h))
  · exact readsAs_wireRequest_of_writeSingle hshape hslave henc (.inl h)
  · exact readsAs_wireRequest_of_writeSingle hshape hslave henc (.inr h)
  · exact readsAs_wireRequest_of_WMC hshape hslave henc h
  · exact readsAs_wireRequest_of_WMR hshape hslave henc h
  · exact readsAs_wireRequest_of_RFR hshape hslave henc h

end Sys2Proof.Machine
end

section
/-! PROOFS. The port words that no frame row stands for (log 19). -/

namespace Sys2Proof.Machine

theorem offsetAdmitted_iff {p : PortWord} : p.offsetAdmitted = true ↔ (p.form = .dec → p.off < 8192) := by
  unfold PortWord.offsetAdmitted
  cases p.form with
  | enc => exact iff_of_true rfl nofun
  | dec => simp [offsetOk]

/-- Settles O5: both words are rejected by the decoder, by name. -/
theorem rejectedFrameWords : Obligations.RejectedFrameWords := by
  intro s p rest hin
  rw [step_of_inputs_cons hin, takeInput_cmd, present]
  refine ⟨fun hl hoff hcode hbit => ?noLayout, fun hl hform hoff => ?badOffset⟩
  case noLayout =>
    have hexc : ¬ excBit p.code = true := by rw [excBit, hbit]; exact Bool.false_ne_true
    rw [decode_of_response hl (offsetAdmitted_iff.mpr hoff), decodeResponseKind_of_unsupported hcode, if_neg hexc]
    rfl
  case badOffset =>
    have hout : ¬ p.offsetAdmitted = true := fun h => absurd (offsetAdmitted_iff.mp h hform) (Nat.not_lt.mpr hoff)
    rw [decode_of_badOffset hl (Bool.eq_false_iff.mpr hout)]
    rfl

end Sys2Proof.Machine
end

section
/-! PROOFS. The decode forms (43_frame_decode_sync.md R193 to R211). With its fixed part buffered a decoder is an
equation: the tests of the rule, then the list it reads. What a decode form answers is read off that equation. -/

namespace Sys2Proof.Machine

open Sys2Proof.Laws Sys2Proof.Safety

/-! A list of which the last part is not buffered (20_memory.md R64). -/

section
variable {B : List Byte} {a n : Nat}

theorem getCoils_of_short (ha : a ≤ B.length) (h : B.length < a + (n + 7) / 8) :
    getCoils B a 0 n = .error .outOfBounds := getCoils_outOfBounds (by omega) (by omega)

theorem getWords_of_short (ha : a ≤ B.length) (h : B.length < a + 2 * n) : getWords B a n = .error .outOfBounds :=
  getWords_outOfBounds (by omega) h

end

/-! What a decoder returns is what its decode form answers. -/

theorem answers_of_showRequest {i : Instr} {s : State} {e : Except Fault (Option Request)} {q : Option Request}
    (hexec : exec i s = showRequest e s) (he : e = .ok q) : Answers i s (.request q) := by
  rw [Answers, hexec, he]
  rfl

theorem answers_of_showResponse {i : Instr} {s : State} {e : Except Fault (Option Response)} {p : Option Response}
    (hexec : exec i s = showResponse e s) (he : e = .ok p) : Answers i s (.response p) := by
  rw [Answers, hexec, he]
  rfl

/-! The request decoders. -/

section
variable {B : List Byte} {off : Nat}

theorem decReqUNSUP_eq (h : off + 2 ≤ B.length) :
    decReqUNSUP B off = .ok (some { slave := B.getD off 0, fn := B.getD (off + 1) 0 }) := by
  rw [decReqUNSUP, byteAt_getD (by omega), except_bind_ok, byteAt_getD (by omega), except_bind_ok]

/-- R208 once the byte count is read. -/
theorem decReqWMC_of_head (h : off + 7 ≤ B.length) :
    decReqWMC B off =
      if 8 * (B.getD (off + 6) 0).toNat < (wordAt B (off + 4)).toNat then .ok none
      else getCoils B (off + 7) 0 (wordAt B (off + 4)).toNat >>= fun v =>
        .ok (some { slave := B.getD off 0, fn := Config.fcWMC, addr := wordAt B (off + 2), qty := wordAt B (off + 4),
                    values := v }) := by
  rw [decReqWMC, getWord_wordAt (by omega), except_bind_ok, getWord_wordAt (by omega), except_bind_ok,
    byteAt_getD (by omega), except_bind_ok, byteAt_getD (by omega)]
  rfl

/-- R209 once the byte count is read. -/
theorem decReqWMR_of_head (h : off + 7 ≤ B.length) :
    decReqWMR B off =
      if (B.getD (off + 6) 0).toNat < 2 * (wordAt B (off + 4)).toNat then .ok none
      else getWords B (off + 7) (wordAt B (off + 4)).toNat >>= fun v =>
        .ok (some { slave := B.getD off 0, fn := Config.fcWMR, addr := wordAt B (off + 2), qty := wordAt B (off + 4),
                    values := v }) := by
  rw [decReqWMR, getWord_wordAt (by omega), except_bind_ok, getWord_wordAt (by omega), except_bind_ok,
    byteAt_getD (by omega), except_bind_ok, byteAt_getD (by omega)]
  rfl

end

/-- Settles O23: the decoders without a test, where all they read is buffered. -/
theorem requestDecodeFixed : Obligations.RequestDecodeFixed := by
  rintro s off _ rfl
  refine ⟨fun h => ?_, fun h => ?_, fun h => ?_⟩
  · have hread := fun fn => decReadReq_eq (B := rxBytes s) (off := off) fn h
    have hwrite := fun fn => decWriteReq_eq (B := rxBytes s) (off := off) fn h
    exact ⟨answers_of_showRequest rfl (hread _), answers_of_showRequest rfl (hread _),
      answers_of_showRequest rfl (hread _), answers_of_showRequest rfl (hwrite _),
      answers_of_showRequest rfl (hwrite _)⟩
  · exact answers_of_showRequest rfl (decReqRFR_eq h)
  · exact answers_of_showRequest rfl (decReqUNSUP_eq h)

/-- Settles O24: the byte count against the quantity, then the list against the fill count. -/
theorem requestDecodeLists : Obligations.RequestDecodeLists := by
  rintro s off _ _ _ rfl rfl rfl h
  have hwmc := decReqWMC_of_head h
  have hwmr := decReqWMR_of_head h
  refine ⟨fun hbc => ?fewCoilBytes, fun hbc hfit => ?coils, fun hbc hlong => ?coilsNotBuffered,
    fun hbc => ?fewWordBytes, fun hbc hfit => ?words, fun hbc hlong => ?wordsNotBuffered⟩
  case fewCoilBytes => exact answers_of_showRequest rfl (hwmc.trans (if_pos hbc))
  case coils => exact answers_of_showRequest rfl (decReqWMC_eq hbc hfit)
  case coilsNotBuffered =>
    exact showRequest_of_error (by rw [hwmc, if_neg hbc.not_gt, getCoils_of_short h hlong, except_bind_error]) s
  case fewWordBytes => exact answers_of_showRequest rfl (hwmr.trans (if_pos hbc))
  case words => exact answers_of_showRequest rfl (decReqWMR_eq hbc hfit)
  case wordsNotBuffered =>
    exact showRequest_of_error (by rw [hwmr, if_neg hbc.not_gt, getWords_of_short h hlong, except_bind_error]) s

/-! The response decoders. -/

section
variable {B : List Byte} {off : Nat} {r : Request}

theorem decRspEXC_eq (h : off + 3 ≤ B.length) :
    decRspEXC B off = .ok (some (.exception
      { slave := B.getD off 0, fn := B.getD (off + 1) 0, code := B.getD (off + 2) 0 })) := by
  rw [decRspEXC, byteAt_getD (by omega), except_bind_ok, byteAt_getD (by omega), except_bind_ok,
    byteAt_getD (by omega), except_bind_ok]

/-- R194 once the byte count is read. -/
theorem decRspRC_of_head (h : off + 3 ≤ B.length) :
    decRspRC B off r =
      if 8 * (B.getD (off + 2) 0).toNat < r.qty.toNat then .ok none
      else getCoils B (off + 3) 0 r.qty.toNat >>= fun v =>
        .ok (some (.normal
          { slave := B.getD off 0, fn := Config.fcRC, addr := r.addr, qty := r.qty, values := v })) := by
  rw [decRspRC, byteAt_getD (by omega), except_bind_ok, byteAt_getD (by omega)]
  rfl

/-- R195 and R196 once the byte count is read. -/
theorem decRegisters_of_head (fn : Byte) (h : off + 3 ≤ B.length) :
    decRegisters fn B off r =
      if (B.getD (off + 2) 0).toNat < 2 * r.qty.toNat then .ok none
      else getWords B (off + 3) r.qty.toNat >>= fun v =>
        .ok (some (.normal { slave := B.getD off 0, fn := fn, addr := r.addr, qty := r.qty, values := v })) := by
  rw [decRegisters, byteAt_getD (by omega), except_bind_ok, byteAt_getD (by omega)]
  rfl

/-- R201 once the byte count is read. -/
theorem decRspRFR_of_head (h : off + 3 ≤ B.length) :
    decRspRFR B off =
      if (B.getD (off + 2) 0).toNat < 2 then .ok none
      else getWords B (off + 5) (((B.getD (off + 2) 0).toNat - 2) / 2) >>= fun v =>
        .ok (some (.normal
          { slave := B.getD off 0, fn := Config.fcRFR, addr := 0,
            qty := BitVec.ofNat 16 (((B.getD (off + 2) 0).toNat - 2) / 2), values := v })) := by
  rw [decRspRFR, byteAt_getD (by omega), except_bind_ok, byteAt_getD (by omega)]
  rfl

theorem decRspRC_eq (hbc : r.qty.toNat ≤ 8 * (B.getD (off + 2) 0).toNat)
    (h : off + 3 + (r.qty.toNat + 7) / 8 ≤ B.length) :
    decRspRC B off r = .ok (some (.normal
      { slave := B.getD off 0, fn := Config.fcRC, addr := r.addr, qty := r.qty,
        values := coilsAt B (off + 3) r.qty.toNat })) := by
  rw [decRspRC_of_head (by omega), if_neg hbc.not_gt, getCoils_coilsAt h, except_bind_ok]

theorem decRegisters_eq (fn : Byte) (hbc : 2 * r.qty.toNat ≤ (B.getD (off + 2) 0).toNat)
    (h : off + 3 + 2 * r.qty.toNat ≤ B.length) :
    decRegisters fn B off r = .ok (some (.normal
      { slave := B.getD off 0, fn := fn, addr := r.addr, qty := r.qty,
        values := wordsAt B (off + 3) r.qty.toNat })) := by
  rw [decRegisters_of_head fn (by omega), if_neg hbc.not_gt, getWords_wordsAt h, except_bind_ok]

theorem decRspRC_of_short (h3 : off + 3 ≤ B.length) (hbc : r.qty.toNat ≤ 8 * (B.getD (off + 2) 0).toNat)
    (h : B.length < off + 3 + (r.qty.toNat + 7) / 8) : decRspRC B off r = .error .outOfBounds := by
  rw [decRspRC_of_head h3, if_neg hbc.not_gt, getCoils_of_short h3 h, except_bind_error]

theorem decRegisters_of_short (fn : Byte) (h3 : off + 3 ≤ B.length)
    (hbc : 2 * r.qty.toNat ≤ (B.getD (off + 2) 0).toNat) (h : B.length < off + 3 + 2 * r.qty.toNat) :
    decRegisters fn B off r = .error .outOfBounds := by
  rw [decRegisters_of_head fn h3, if_neg hbc.not_gt, getWords_of_short h3 h, except_bind_error]

/-- With no word to read, the bytes before the words need not be buffered. -/
theorem decRspRFR_eq {n : Nat} (hn : n = ((B.getD (off + 2) 0).toNat - 2) / 2) (h3 : off + 3 ≤ B.length)
    (hbc : 2 ≤ (B.getD (off + 2) 0).toNat) (h : n = 0 ∨ off + 5 + 2 * n ≤ B.length) :
    decRspRFR B off = .ok (some (.normal
      { slave := B.getD off 0, fn := Config.fcRFR, addr := 0, qty := BitVec.ofNat 16 n,
        values := wordsAt B (off + 5) n })) := by
  have hwords : getWords B (off + 5) n = .ok (wordsAt B (off + 5) n) := by
    rcases h with rfl | h
    · rfl
    · exact getWords_wordsAt h
  rw [decRspRFR_of_head h3, if_neg hbc.not_gt, ← hn, hwords, except_bind_ok]

/-- R197 and R198 once the two words are read. -/
theorem decEchoValue_of_head (fn : Byte) (wire : Word → Word) (h : off + 6 ≤ B.length) :
    decEchoValue fn wire B off r =
      if wordAt B (off + 2) ≠ r.addr then .ok none
      else firstValue r.values >>= fun v =>
        if wordAt B (off + 4) ≠ wire v then .ok none
        else .ok (some (.normal
          { slave := B.getD off 0, fn := fn, addr := wordAt B (off + 2), qty := 1,
            values := [wordAt B (off + 4)] })) := by
  rw [decEchoValue, getWord_wordAt (by omega), except_bind_ok, getWord_wordAt (by omega), except_bind_ok,
    byteAt_getD (by omega)]
  rfl

/-- R197 and R198 against a Request with its value. -/
theorem decEchoValue_of_values (fn : Byte) (wire : Word → Word) {v : Word} {vs : List Word} (hv : r.values = v :: vs)
    (h : off + 6 ≤ B.length) :
    decEchoValue fn wire B off r =
      if wordAt B (off + 2) ≠ r.addr ∨ wordAt B (off + 4) ≠ wire v then .ok none
      else .ok (some (.normal
        { slave := B.getD off 0, fn := fn, addr := wordAt B (off + 2), qty := 1,
          values := [wordAt B (off + 4)] })) := by
  rw [decEchoValue_of_head fn wire h, hv, firstValue, except_bind_ok, ite_or]

/-- R197 and R198 against a Request without a value (log 13). -/
theorem decEchoValue_of_nil (fn : Byte) (wire : Word → Word) (hv : r.values = []) (h : off + 6 ≤ B.length) :
    decEchoValue fn wire B off r =
      if wordAt B (off + 2) ≠ r.addr then .ok none else .error .badShape := by
  rw [decEchoValue_of_head fn wire h, hv, firstValue, except_bind_error]

/-- R199 and R200 once the two words are read. -/
theorem decEchoQty_of_head (fn : Byte) (h : off + 6 ≤ B.length) :
    decEchoQty fn B off r =
      if wordAt B (off + 2) ≠ r.addr ∨ wordAt B (off + 4) ≠ r.qty then .ok none
      else .ok (some (.normal
        { slave := B.getD off 0, fn := fn, addr := wordAt B (off + 2), qty := wordAt B (off + 4) })) := by
  rw [decEchoQty, getWord_wordAt (by omega), except_bind_ok, getWord_wordAt (by omega), except_bind_ok,
    byteAt_getD (by omega)]
  rfl

end

/-- Settles O25: the byte count against the quantity of the Request, then the list against the fill count. -/
theorem responseDecodeReads : Obligations.ResponseDecodeReads := by
  rintro s off _ _ n cur rfl rfl hn h
  have hrc := decRspRC_of_head (r := cur.toRequest Config.fcRC) h
  have hregs := fun fn => decRegisters_of_head (r := cur.toRequest fn) fn h
  have hrfr := decRspRFR_of_head h
  rw [← hn] at hrfr
  refine ⟨fun hbc => ?fewCoilBytes, fun hbc hfit => ?coils, fun hbc hlong => ?coilsNotBuffered,
    fun hbc => ?fewWordBytes, fun hbc hfit => ?words, fun hbc hlong => ?wordsNotBuffered,
    fun hbc => ?fewFileBytes, fun hbc hfit => ?file, fun hpos hlong => ?fileNotBuffered⟩
  case fewCoilBytes => exact answers_of_showResponse rfl (hrc.trans (if_pos hbc))
  case coils => exact answers_of_showResponse rfl (decRspRC_eq (r := cur.toRequest Config.fcRC) hbc hfit)
  case coilsNotBuffered =>
    exact showResponse_of_error (decRspRC_of_short (r := cur.toRequest Config.fcRC) h hbc hlong) s
  case fewWordBytes =>
    exact ⟨answers_of_showResponse rfl ((hregs Config.fcRHR).trans (if_pos hbc)),
      answers_of_showResponse rfl ((hregs Config.fcRIR).trans (if_pos hbc))⟩
  case words =>
    have hwords := fun fn => decRegisters_eq (r := cur.toRequest fn) fn hbc hfit
    exact ⟨answers_of_showResponse rfl (hwords Config.fcRHR), answers_of_showResponse rfl (hwords Config.fcRIR)⟩
  case wordsNotBuffered =>
    have hfault := fun fn => decRegisters_of_short (r := cur.toRequest fn) fn h hbc hlong
    exact ⟨showResponse_of_error (hfault Config.fcRHR) s, showResponse_of_error (hfault Config.fcRIR) s⟩
  case fewFileBytes => exact answers_of_showResponse rfl (hrfr.trans (if_pos hbc))
  case file => exact answers_of_showResponse rfl (decRspRFR_eq hn h hbc hfit)
  case fileNotBuffered =>
    refine showResponse_of_error ?_ s
    rw [hrfr, if_neg (by omega), getWords_outOfBounds hpos hlong, except_bind_error]

/-- Settles O26: the tests of each decoder, once what it reads is buffered. -/
theorem responseDecodeEchoes : Obligations.ResponseDecodeEchoes := by
  rintro s off _ cur v vs _ _ _ rfl rfl rfl rfl
  refine ⟨fun h => ?exception, fun h hv => ?value, fun h hv => ?noValue, fun h => ?qty⟩
  case exception => exact answers_of_showResponse rfl (decRspEXC_eq h)
  case value =>
    rw [← coilWord_eq]
    have hecho := fun fn wire => decEchoValue_of_values (r := cur.toRequest fn) fn wire hv h
    have hwsc := hecho Config.fcWSC coilWord
    have hwsr := hecho Config.fcWSR id
    refine ⟨fun hne => ?_, fun ha hw => ?_, fun hne => ?_, fun ha hw => ?_⟩
    · exact answers_of_showResponse rfl (hwsc.trans (if_pos hne))
    · exact answers_of_showResponse rfl (hwsc.trans (if_neg (not_or.mpr ⟨not_not.mpr ha, not_not.mpr hw⟩)))
    · exact answers_of_showResponse rfl (hwsr.trans (if_pos hne))
    · exact answers_of_showResponse rfl (hwsr.trans (if_neg (not_or.mpr ⟨not_not.mpr ha, not_not.mpr hw⟩)))
  case noValue =>
    have hecho := fun fn wire => decEchoValue_of_nil (r := cur.toRequest fn) fn wire hv h
    have hwsc := hecho Config.fcWSC coilWord
    have hwsr := hecho Config.fcWSR id
    refine ⟨fun hne => ⟨?_, ?_⟩, fun ha => ⟨?_, ?_⟩⟩
    · exact answers_of_showResponse rfl (hwsc.trans (if_pos hne))
    · exact answers_of_showResponse rfl (hwsr.trans (if_pos hne))
    · exact showResponse_of_error (hwsc.trans (if_neg (not_not.mpr ha))) s
    · exact showResponse_of_error (hwsr.trans (if_neg (not_not.mpr ha))) s
  case qty =>
    have hecho := fun fn => decEchoQty_of_head (r := cur.toRequest fn) fn h
    refine ⟨fun hne => ⟨?_, ?_⟩, fun ha hq => ⟨?_, ?_⟩⟩
    · exact answers_of_showResponse rfl ((hecho Config.fcWMC).trans (if_pos hne))
    · exact answers_of_showResponse rfl ((hecho Config.fcWMR).trans (if_pos hne))
    · exact answers_of_showResponse rfl
        ((hecho Config.fcWMC).trans (if_neg (not_or.mpr ⟨not_not.mpr ha, not_not.mpr hq⟩)))
    · exact answers_of_showResponse rfl
        ((hecho Config.fcWMR).trans (if_neg (not_or.mpr ⟨not_not.mpr ha, not_not.mpr hq⟩)))

end Sys2Proof.Machine
end

section
/-! PROOFS. The two scans (43_frame_decode_sync.md R186, R214), and the packed field read back (R212). -/

namespace Sys2Proof.Machine

open Sys2Proof.Laws Sys2Proof.Safety

/-- Settles O30: one turn of the loop accepts exactly the valid candidates at its offset, so the first is the least. -/
theorem masterScanFindsLeast : Obligations.MasterScanFindsLeast := fun _ slave f =>
  scan_least (fun _ hv => (validM_iff.mp hv).1) (fun _ ho => testM_spec slave f ho)

/-- Settles O31: as for the master, with the slave's turn of the loop. -/
theorem slaveScanFindsLeast : Obligations.SlaveScanFindsLeast := fun _ =>
  scan_least (fun _ hv => (validS_iff.mp hv).1) (fun _ ho => testS_spec ho)

/-- Settles O22: the field is buffered, and its coils are the packed bits. -/
theorem unpackInvertsPack : Obligations.UnpackInvertsPack := by
  intro values qty pre post hqty
  have hfit : pre.length + (qty + 7) / 8 ≤ (pre ++ pack values qty ++ post).length := by
    simp only [List.length_append, pack_length]
    omega
  rw [getCoils_coilsAt hfit, coilsAt_pack pre post hqty]

/-! A whole buffer as one candidate. -/

/-- Zero bytes keep a CRC of zero (40_crc.md R135). -/
theorem crc16_replicate_zero (k : Nat) : crc16 0 (List.replicate k 0) = 0 := by
  induction k with
  | zero => rfl
  | succ k ih => rwa [List.replicate_succ, crc16_cons, crcStep_eq_zero_iff.mpr (by decide)]

/-- The residue of a frame (40_crc.md R135 (e)). -/
theorem crc16_sealed (body : List Byte) : crc16 0xFFFF (sealed body) = 0 := by
  rw [sealed_eq]
  exact (crcResidue _ _ _ _).mpr ⟨rfl, rfl⟩

/-- Only a frame has a CRC of zero (40_crc.md R135 (e)). -/
theorem eq_sealed_of_crc16_eq_zero {B : List Byte} (h2 : 2 ≤ B.length) (h : crc16 0xFFFF B = 0) :
    ∃ body, B = sealed body := by
  have hlast : (B.drop (B.length - 2)).length = 2 := by rw [List.length_drop]; omega
  obtain ⟨lo, hi, hlast⟩ := List.length_eq_two.mp hlast
  have hsplit : B = B.take (B.length - 2) ++ [lo, hi] := by rw [← hlast, List.take_append_drop]
  rw [hsplit] at h
  obtain ⟨rfl, rfl⟩ := (crcResidue _ _ _ _).mp h
  exact ⟨_, hsplit.trans (sealed_eq _).symm⟩

/-- A frame passes the CRC test (R183). -/
theorem spanCrc_sealed (body : List Byte) : spanCrc (sealed body) 0 (sealed body).length := by
  refine (crcOk_iff (by simp) (Nat.zero_add _).le).mp ?_
  rw [sealed_length]
  exact crcOk_sealed body

theorem decodeRequest_of_unsupported {B : List Byte} {off : Nat} {g : Byte} (hg : byteAt B (off + 1) = .ok g)
    (hfn : g ∉ functionCodes) : decodeRequest B off = decReqUNSUP B off := by
  simp only [functionCodes, List.mem_cons, List.not_mem_nil, or_false, not_or] at hfn
  rw [decodeRequest, hg, except_bind_ok]
  simp only [hfn, if_false]

/-- Settles O32: the length rule takes the whole buffer (R191), and the zero bytes keep the residue of the frame, so the
buffer is a frame itself. -/
theorem trailingZerosDoNotHide : Obligations.TrailingZerosDoNotHide := by
  intro slave fn payload k hslave hfn B hB
  have hlen : 4 ≤ B.length := by
    simp only [hB, List.length_append, sealed_length, List.length_cons]
    omega
  have h0 : B[0]? = some slave := by rw [hB]; rfl
  have h1 : B[1]? = some fn := by rw [hB]; rfl
  have hcrc : crc16 0xFFFF B = 0 := by rw [hB, crc16_append, crc16_sealed, crc16_replicate_zero]
  have hspan : reqSpan B fn 0 B.length := .inr (.inr (.inr ⟨hfn, rfl⟩))
  obtain ⟨body, hbody⟩ := eq_sealed_of_crc16_eq_zero (by omega) hcrc
  have hseal : spanCrc B 0 B.length := by rw [hbody]; exact spanCrc_sealed body
  constructor
  · exact findS_of_validS_zero
      ⟨by omega, ⟨slave, h0, hslave⟩, ⟨fn, h1, hspan⟩, (Nat.zero_add _).le, rfl, hseal⟩ rfl
  · have hread : byteAt B (0 + 1) = .ok fn := by rw [byteAt, h1]
    rw [decodeRequest_of_unsupported hread hfn, decReqUNSUP_eq (by omega), hB]
    rfl

end Sys2Proof.Machine
end

section
/-! PROOFS. What an encoded Response reads back as (43_frame_decode_sync.md R213 (b)): the master scan accepts a frame
whose length rule gives its own length, and each decoder finds its fields where the encoder put them. -/

namespace Sys2Proof.Machine

open Sys2Proof.Laws Sys2Proof.Safety

/-! The scan of a whole frame (R184, R185). -/

/-- A candidate at offset 0 is found first. -/
theorem findM_of_validM_zero {B : List Byte} {slave f : Byte} {h : Hit} (hv : validM B slave f h) (hoff : h.off = 0) :
    findM B slave f = .ok (some h) := by
  obtain ⟨x, hfind, hx, hleast⟩ | ⟨-, hnone⟩ := masterScanFindsLeast B slave f
  · have hzero : x.off = 0 := by have := hleast h hv; omega
    obtain ⟨hlen, -⟩ := validM_iff.mp hv
    obtain ⟨q, -, hq⟩ := testM_spec (B := B) slave f hlen
    have heq : some x = some h := ((hq x).mpr ⟨hzero.trans hoff.symm, hx⟩).symm.trans ((hq h).mpr ⟨rfl, hv⟩)
    rw [hfind, heq]
  · exact absurd hv (hnone h)

/-- The seal leaves the bytes of the body where they stand. -/
theorem getElem?_sealed {body : List Byte} {i : Nat} (hi : i < body.length) :
    (sealed body)[i]? = some (body.getD i 0) := by
  rw [sealed, List.getElem?_append_left hi, List.getD_eq_getElem?_getD, List.getElem?_eq_getElem hi, Option.getD_some]

/-- A sealed body whose length rule gives the length of the frame is found whole. -/
theorem findM_sealed {body : List Byte} {f : Byte} (h3 : 3 ≤ body.length)
    (hg : body.getD 1 0 = f ∨ body.getD 1 0 = f ||| 0x80)
    (hspan : rspSpan (sealed body) f (body.getD 1 0) 0 (sealed body).length) :
    findM (sealed body) (body.getD 0 0) f = .ok (some ⟨0, (sealed body).length, body.getD 1 0 != f⟩) := by
  have h0 : (sealed body)[0]? = some (body.getD 0 0) := getElem?_sealed (by omega)
  have h1 : (sealed body)[1]? = some (body.getD 1 0) := getElem?_sealed (by omega)
  have hmin : 0 + 5 ≤ (sealed body).length := by rw [sealed_length]; omega
  exact findM_of_validM_zero ⟨hmin, h0, ⟨_, h1, hg, rfl, hspan⟩, (Nat.zero_add _).le, spanCrc_sealed body⟩ rfl

section
variable {slave fn : Byte}

/-- A byte count that counts the bytes after it makes the length rule give the whole frame. -/
theorem findM_counted {bc : Byte} {data : List Byte} (hfn : fn ∈ [0x01, 0x03, 0x04, 0x14])
    (hbc : bc.toNat = data.length) :
    findM (sealed ([slave, fn, bc] ++ data)) slave fn =
      .ok (some ⟨0, (sealed ([slave, fn, bc] ++ data)).length, false⟩) := by
  rw [← bne_self_eq_false fn]
  refine findM_sealed (body := [slave, fn, bc] ++ data) (by simp) (.inl rfl) (.inr (.inl ⟨rfl, hfn, bc, rfl, ?_⟩))
  simp [hbc]
  omega

theorem findM_twoWords (a b : Word) (hfn : fn ∈ [0x05, 0x06, 0x0F, 0x10]) :
    findM (sealed ([slave, fn] ++ putWord a ++ putWord b)) slave fn =
      .ok (some ⟨0, (sealed ([slave, fn] ++ putWord a ++ putWord b)).length, false⟩) := by
  rw [← bne_self_eq_false fn]
  exact findM_sealed (body := [slave, fn] ++ putWord a ++ putWord b) (by simp) (.inl rfl)
    (.inr (.inr ⟨rfl, hfn, rfl⟩))

/-- No function byte has bit 7 set, so the exception to one is told from it (30_encoding.md R93). -/
theorem excByte_ne : ∀ fn ∈ functionCodes, fn ||| 0x80 ≠ fn := by decide

theorem findM_exception (code : Byte) (hfn : fn ∈ functionCodes) :
    findM (sealed [slave, fn ||| 0x80, code]) slave fn =
      .ok (some ⟨0, (sealed [slave, fn ||| 0x80, code]).length, true⟩) := by
  rw [← bne_iff_ne.mpr (excByte_ne fn hfn)]
  exact findM_sealed (body := [slave, fn ||| 0x80, code]) (by simp) (.inr rfl) (.inl ⟨excByte_ne fn hfn, rfl⟩)

end

/-! The frames of the responses, by their layout. -/

/-- The frame is found whole by a master that waits for the answer to `r`, and decodes to this Response. -/
def ReadsAsResponse (f : List Byte) (r : Request) (p : Response) : Prop :=
  findM f r.slave r.fn = .ok (some ⟨0, f.length, isException p⟩) ∧
  decodeResponse f ⟨0, f.length, isException p⟩ r = .ok (some p)

section
variable {r : Request}

theorem readsAsResponse_exception (code : Byte) (hfn : r.fn ∈ functionCodes) :
    ReadsAsResponse (sealed [r.slave, r.fn ||| 0x80, code]) r (.exception ⟨r.slave, r.fn ||| 0x80, code⟩) := by
  refine ⟨findM_exception code hfn, ?_⟩
  rw [decodeResponse]
  exact decRspEXC_eq (by simp)

theorem readsAsResponse_RC {values : List Word} {bc : Byte} (hfn : r.fn = 0x01) (hlen : r.qty.toNat ≤ values.length)
    (hbc : bc.toNat = (pack values r.qty.toNat).length) :
    ReadsAsResponse (sealed ([r.slave, 0x01, bc] ++ pack values r.qty.toNat)) r (.normal
      { slave := r.slave, fn := 0x01, addr := r.addr, qty := r.qty,
        values := coilNorm (values.take r.qty.toNat) }) := by
  constructor
  · rw [hfn]
    exact findM_counted (by decide) hbc
  · have hcoils := coilsAt_pack [r.slave, 0x01, bc] (trailer ([r.slave, 0x01, bc] ++ pack values r.qty.toNat)) hlen
    rw [pack_length] at hbc
    rw [decodeResponse, hfn, ← hcoils, sealed_eq]
    exact decRspRC_eq (off := 0) (show _ ≤ 8 * bc.toNat by omega) (by simp; omega)

theorem readsAsResponse_registers {fn bc : Byte} {values : List Word} (hr : r.fn = fn) (hfn : fn = 0x03 ∨ fn = 0x04)
    (hlen : values.length = r.qty.toNat) (hbc : bc.toNat = (wordBytes values).length) :
    ReadsAsResponse (sealed ([r.slave, fn, bc] ++ wordBytes values)) r (.normal
      { slave := r.slave, fn := fn, addr := r.addr, qty := r.qty, values := values }) := by
  constructor
  · rw [hr]
    exact findM_counted (by rcases hfn with rfl | rfl <;> decide) hbc
  · have hwords := wordsAt_wordBytes [r.slave, fn, bc] (trailer ([r.slave, fn, bc] ++ wordBytes values)) values
    rw [wordBytes_length, hlen] at hbc
    have hdec := decRegisters_eq (r := r) (B := sealed ([r.slave, fn, bc] ++ wordBytes values)) (off := 0) fn hbc.ge
      (by simp; omega)
    rw [hlen] at hwords
    rw [sealed_eq, show 0 + 3 = [r.slave, fn, bc].length from rfl, hwords] at hdec
    rw [decodeResponse, hr, sealed_eq]
    rcases hfn with rfl | rfl <;> exact hdec

theorem readsAsResponse_RFR {values : List Word} {qty : Word} {bc sub : Byte} (hfn : r.fn = 0x14)
    (hlen : values.length = qty.toNat) (hbc : bc.toNat = (wordBytes values).length + 2) :
    ReadsAsResponse (sealed ([r.slave, 0x14, bc, sub, 0x06] ++ wordBytes values)) r (.normal
      { slave := r.slave, fn := 0x14, addr := 0, qty := qty, values := values }) := by
  constructor
  · rw [hfn]
    exact findM_counted (data := [sub, 0x06] ++ wordBytes values) (by decide)
      (hbc.trans (by rw [List.length_append, Nat.add_comm]; rfl))
  · have hwords := wordsAt_wordBytes [r.slave, 0x14, bc, sub, 0x06]
      (trailer ([r.slave, 0x14, bc, sub, 0x06] ++ wordBytes values)) values
    rw [wordBytes_length] at hbc
    have hn : values.length = (bc.toNat - 2) / 2 := by omega
    have hqty : BitVec.ofNat 16 values.length = qty := by rw [hlen, BitVec.ofNat_toNat, BitVec.setWidth_eq]
    have hdec := decRspRFR_eq (B := sealed ([r.slave, 0x14, bc, sub, 0x06] ++ wordBytes values)) (off := 0) hn
      (by simp) (show 2 ≤ bc.toNat by omega) (.inr (by simp; omega))
    rw [sealed_eq, show 0 + 5 = [r.slave, 0x14, bc, sub, 0x06].length from rfl, hwords, hqty] at hdec
    rw [decodeResponse, hfn, sealed_eq]
    exact hdec

/-- The wire carries the word that the Request's value goes out as, so the cross-check passes. -/
theorem decEchoValue_twoWords {fn : Byte} {v : Word} {vs : List Word} (wire : Word → Word) (hv : r.values = v :: vs) :
    decEchoValue fn wire (sealed ([r.slave, fn] ++ putWord r.addr ++ putWord (wire v))) 0 r =
      .ok (some (.normal { slave := r.slave, fn := fn, addr := r.addr, qty := 1, values := [wire v] })) := by
  rw [decEchoValue_of_values fn wire hv (by simp)]
  simp [sealed, wordAt, putWord]

theorem readsAsResponse_WSC {v : Word} {vs : List Word} (hr : r.fn = 0x05) (hv : r.values = v :: vs) :
    ReadsAsResponse (sealed ([r.slave, 0x05] ++ putWord r.addr ++ putWord (coilWord v))) r (.normal
      { slave := r.slave, fn := 0x05, addr := r.addr, qty := 1, values := [coilWord v] }) := by
  constructor
  · rw [hr]
    exact findM_twoWords _ _ (by decide)
  · rw [decodeResponse, hr]
    exact decEchoValue_twoWords coilWord hv

theorem readsAsResponse_WSR {v : Word} {vs : List Word} (hr : r.fn = 0x06) (hv : r.values = v :: vs) :
    ReadsAsResponse (sealed ([r.slave, 0x06] ++ putWord r.addr ++ putWord v)) r (.normal
      { slave := r.slave, fn := 0x06, addr := r.addr, qty := 1, values := [v] }) := by
  constructor
  · rw [hr]
    exact findM_twoWords _ _ (by decide)
  · rw [decodeResponse, hr]
    exact decEchoValue_twoWords id hv

theorem readsAsResponse_writeMultiple {fn : Byte} (hr : r.fn = fn) (hfn : fn = 0x0F ∨ fn = 0x10) :
    ReadsAsResponse (sealed ([r.slave, fn] ++ putWord r.addr ++ putWord r.qty)) r (.normal
      { slave := r.slave, fn := fn, addr := r.addr, qty := r.qty }) := by
  constructor
  · rw [hr]
    exact findM_twoWords _ _ (by rcases hfn with rfl | rfl <;> decide)
  · have hdec : decEchoQty fn (sealed ([r.slave, fn] ++ putWord r.addr ++ putWord r.qty)) 0 r =
        .ok (some (.normal { slave := r.slave, fn := fn, addr := r.addr, qty := r.qty })) := by
      rw [decEchoQty_of_head fn (by simp)]
      simp [sealed, wordAt, putWord]
    rw [decodeResponse, hr]
    rcases hfn with rfl | rfl <;> exact hdec

end

/-! The Response as the master decodes it. -/

/-- A byte count of a frame that fits in `TXB` has not wrapped. -/
theorem byteCount_of_finish {n : Nat} {body f : List Byte} (hn : n ≤ body.length) (h : finishFrame body = .ok f) :
    (BitVec.ofNat 8 n).toNat = n := by
  obtain ⟨rfl, hfit⟩ := finishFrame_ok h
  rw [sealed_length, Config.txCap] at hfit
  rw [BitVec.toNat_ofNat, Nat.mod_eq_of_lt (by omega)]

theorem singleValue_ok {p : Normal} {w : Word} (h : singleValue p = .ok w) : p.qty = 1 ∧ p.values = [w] := by
  unfold singleValue at h
  split at h
  next hv =>
    split at h
    next hq =>
      cases h
      exact ⟨hq, hv⟩
    next => cases h
  next => cases h

theorem values_of_WSC_shape {r : Request} (hshape : requestShape r = true) (hfn : r.fn = 0x05) :
    ∃ v, r.values = [v] := by
  obtain ⟨slave, fn, addr, qty, values, file, recno, reclen, retries⟩ := r
  obtain rfl : fn = 0x05 := hfn
  obtain ⟨-, hone, -⟩ : qty = 1 ∧ values.length = 1 ∧ file = 0 ∧ recno = 0 ∧ reclen = 0 :=
    of_decide_eq_true hshape
  exact List.length_eq_one_iff.mp hone

section
variable {slave fn : Byte} {addr qty : Word} {values : List Word} {r : Request} {f : List Byte}

theorem readsAsResponse_wireNormal_of_RC (hr : r.fn = 0x01)
    (henc : encodeNormal ⟨r.slave, 0x01, addr, r.qty, values⟩ = .ok f) :
    ReadsAsResponse f r (.normal (wireNormal ⟨r.slave, 0x01, addr, r.qty, values⟩ r)) := by
  have hfin := (encodeRspRC_eq _).symm.trans henc
  split at hfin
  next => cases hfin
  next hshape =>
    have hlen : values.length = r.qty.toNat := not_not.mp (not_or.mp hshape).1
    have hbc := byteCount_of_finish (n := (r.qty.toNat + 7) / 8) (by simp; omega) hfin
    obtain ⟨rfl, -⟩ := finishFrame_ok hfin
    have hread := readsAsResponse_RC hr hlen.ge (hbc.trans (pack_length values r.qty.toNat).symm)
    rw [List.take_of_length_le hlen.le] at hread
    exact hread

theorem readsAsResponse_wireNormal_of_registers (hr : r.fn = fn) (hfn : fn = 0x03 ∨ fn = 0x04)
    (henc : encodeNormal ⟨r.slave, fn, addr, r.qty, values⟩ = .ok f) :
    ReadsAsResponse f r (.normal (wireNormal ⟨r.slave, fn, addr, r.qty, values⟩ r)) := by
  have henc : encodeWordList fn ⟨r.slave, fn, addr, r.qty, values⟩ = .ok f := by
    rcases hfn with rfl | rfl <;> exact henc
  have hfin := (encodeWordList_eq _ _).symm.trans henc
  split at hfin
  next => cases hfin
  next hshape =>
    have hlen : values.length = r.qty.toNat := not_not.mp hshape
    have hbc := byteCount_of_finish (n := 2 * r.qty.toNat) (by simp; omega) hfin
    obtain ⟨rfl, -⟩ := finishFrame_ok hfin
    have hread := readsAsResponse_registers hr hfn hlen (hbc.trans (by rw [wordBytes_length, hlen]))
    rcases hfn with rfl | rfl <;> exact hread

theorem readsAsResponse_wireNormal_of_RFR (hr : r.fn = 0x14)
    (henc : encodeNormal ⟨r.slave, 0x14, addr, qty, values⟩ = .ok f) :
    ReadsAsResponse f r (.normal (wireNormal ⟨r.slave, 0x14, addr, qty, values⟩ r)) := by
  have hfin := (encodeRspRFR_eq _).symm.trans henc
  split at hfin
  next => cases hfin
  next hshape =>
    have hlen : values.length = qty.toNat := not_not.mp hshape
    have hbc := byteCount_of_finish (n := 2 * qty.toNat + 2) (by simp; omega) hfin
    obtain ⟨rfl, -⟩ := finishFrame_ok hfin
    exact readsAsResponse_RFR hr hlen (hbc.trans (by rw [wordBytes_length, hlen]))

theorem readsAsResponse_wireNormal_of_WSC (hr : r.fn = 0x05) (hshape : requestShape r = true)
    (hvalues : values.map coilWord = r.values.map coilWord)
    (henc : encodeNormal ⟨r.slave, 0x05, r.addr, qty, values⟩ = .ok f) :
    ReadsAsResponse f r (.normal (wireNormal ⟨r.slave, 0x05, r.addr, qty, values⟩ r)) := by
  obtain ⟨v, hv⟩ := values_of_WSC_shape hshape hr
  obtain ⟨w, hw, htwo⟩ := bind_eq_ok.mp (show encodeRspWSC _ = .ok f from henc)
  obtain ⟨rfl, rfl⟩ : qty = 1 ∧ values = [w] := singleValue_ok hw
  have hword : coilWord w = coilWord v := by simpa [hv] using hvalues
  cases (encodeTwoWords_eq ..).symm.trans htwo
  have hread := readsAsResponse_WSC hr hv
  rw [← hword] at hread
  exact hread

theorem readsAsResponse_wireNormal_of_WSR (hr : r.fn = 0x06) (hvalues : values = r.values)
    (henc : encodeNormal ⟨r.slave, 0x06, r.addr, qty, values⟩ = .ok f) :
    ReadsAsResponse f r (.normal (wireNormal ⟨r.slave, 0x06, r.addr, qty, values⟩ r)) := by
  obtain ⟨w, hw, htwo⟩ := bind_eq_ok.mp (show encodeRspWSR _ = .ok f from henc)
  obtain ⟨rfl, rfl⟩ : qty = 1 ∧ values = [w] := singleValue_ok hw
  cases (encodeTwoWords_eq ..).symm.trans htwo
  exact readsAsResponse_WSR hr hvalues.symm

theorem readsAsResponse_wireNormal_of_writeMultiple (hr : r.fn = fn) (hfn : fn = 0x0F ∨ fn = 0x10)
    (henc : encodeNormal ⟨r.slave, fn, r.addr, r.qty, values⟩ = .ok f) :
    ReadsAsResponse f r (.normal (wireNormal ⟨r.slave, fn, r.addr, r.qty, values⟩ r)) := by
  have henc : encodeEchoQty fn ⟨r.slave, fn, r.addr, r.qty, values⟩ = .ok f := by
    rcases hfn with rfl | rfl <;> exact henc
  by_cases hv : values = []
  · subst hv
    cases (encodeTwoWords_eq ..).symm.trans henc
    have hread := readsAsResponse_writeMultiple hr hfn
    rcases hfn with rfl | rfl <;> exact hread
  · rw [encodeEchoQty_of_ne_nil fn hv] at henc
    cases henc

end

/-- A Normal Response that matches the Request, by its function. -/
theorem readsAsResponse_wireNormal {p : Normal} {r : Request} {f : List Byte} (hmatch : matchesRequest (.normal p) r)
    (hshape : requestShape r = true) (henc : encodeNormal p = .ok f) :
    ReadsAsResponse f r (.normal (wireNormal p r)) := by
  obtain ⟨slave, fn, addr, qty, values⟩ := p
  obtain ⟨hmem, rfl, hfn, hread, hwrite, hmultiple, hcoil, hregister⟩ := hmatch
  obtain rfl : fn = r.fn := hfn
  simp only [functionCodes, List.mem_cons, List.not_mem_nil, or_false] at hmem
  rcases hmem with h | h | h | h | h | h | h | h
  · obtain rfl : qty = r.qty := hread (.inl h)
    rw [h] at henc ⊢
    exact readsAsResponse_wireNormal_of_RC h henc
  · obtain rfl : qty = r.qty := hread (.inr (.inl h))
    exact readsAsResponse_wireNormal_of_registers rfl (.inl h) henc
  · obtain rfl : qty = r.qty := hread (.inr (.inr h))
    exact readsAsResponse_wireNormal_of_registers rfl (.inr h) henc
  · obtain rfl : addr = r.addr := hwrite (.inl h)
    rw [h] at henc ⊢
    exact readsAsResponse_wireNormal_of_WSC h hshape (hcoil h) henc
  · obtain rfl : addr = r.addr := hwrite (.inr (.inl h))
    rw [h] at henc ⊢
    exact readsAsResponse_wireNormal_of_WSR h (hregister h) henc
  · obtain rfl : addr = r.addr := hwrite (.inr (.inr (.inl h)))
    obtain rfl : qty = r.qty := hmultiple (.inl h)
    exact readsAsResponse_wireNormal_of_writeMultiple rfl (.inl h) henc
  · obtain rfl : addr = r.addr := hwrite (.inr (.inr (.inr h)))
    obtain rfl : qty = r.qty := hmultiple (.inr h)
    exact readsAsResponse_wireNormal_of_writeMultiple rfl (.inr h) henc
  · rw [h] at henc ⊢
    exact readsAsResponse_wireNormal_of_RFR h henc

/-- Settles O29: an exception is three bytes as they stand, a normal response is read by the layout of its function. -/
theorem responseRoundTrip : Obligations.ResponseRoundTrip := by
  intro p r f hmatch hshape henc
  cases p with
  | normal p => exact readsAsResponse_wireNormal hmatch hshape henc
  | exception e =>
    obtain ⟨slave, fn, code⟩ := e
    obtain ⟨hfn, rfl, rfl⟩ : r.fn ∈ functionCodes ∧ slave = r.slave ∧ fn = r.fn ||| 0x80 := hmatch
    cases (encodeRspEXC_eq _).symm.trans henc
    exact readsAsResponse_exception code hfn

end Sys2Proof.Machine
end

section
/-! PROOFS. The master's queue as the host sees it (44_master_engine.md R221 to R229, R249 to R251): the eight enqueue
commands are one, and the tests it makes are the ones the rule names. -/

namespace Sys2Proof.Machine

open Sys2Proof.Safety

/-! Commands that only a MASTER accepts (60_exceptions.md R329). -/

section
variable {s : State}

theorem onMaster_of_master (hrole : s.params.role = .master) (k : State → Host.Outcome State Fault Refusal) :
    onMaster s k = k s := by
  rw [onMaster, hrole]

theorem onMaster_of_slave (hrole : s.params.role = .slave) (k : State → Host.Outcome State Fault Refusal) :
    onMaster s k = refuse .illegalCmd s := by
  rw [onMaster, hrole]

/-! The tests of an enqueue command. -/

theorem valuesTooLong_iff {values : List Word} : valuesTooLong s values = true ↔ listTooLong s values := by
  cases hv : s.params.vmax <;> simp [valuesTooLong, listTooLong, hv]

theorem queueFull_iff : queueFull s = true ↔ queueAtDepth s := by
  cases hd : s.params.qdepth <;> simp [queueFull, queueAtDepth, hd, eq_comm]

end

/-- An enqueue command is `enq` of the Request it builds (R222 to R229). -/
theorem exec_eq_enq {i : Instr} {r : Request} (hi : enqueued i = some r) (s : State) : exec i s = enq r s := by
  cases i with
  | enqRC | enqRHR | enqRIR | enqWSC | enqWSR | enqWMC | enqWMR | enqRFR =>
    cases hi
    rfl
  | _ => cases hi

theorem setReg_q (data : Time) (s : State) (r : Reg) : (setReg data s r).q = s.q := by
  cases r <;> rfl

/-- A configuration write leaves the queue alone, whether it is accepted or refused (46_transport_and_host.md R300). -/
theorem execCfgwr_q {reg : Byte} {data : Time} {s t : State} (h : execCfgwr reg data s = .next t) : t.q = s.q := by
  unfold execCfgwr at h
  split at h
  next r _ =>
    split at h
    · cases h
      exact setReg_q data s r
    · cases h
      rfl
  next =>
    cases h
    rfl

/-- Settles O33: the command is `enq`, whose three tests are taken in the order of the rule. -/
theorem enqueueCommand : Obligations.EnqueueCommand := by
  intro i r s hi
  unfold Refuses
  rw [exec_eq_enq hi s, enq]
  refine ⟨fun hrole => onMaster_of_slave hrole _, fun hrole hlong => ?_, fun hrole hlong hfull => ?_,
    fun hrole hlong hfull => ?_, fun reg data t h => execCfgwr_q h⟩
  · rw [onMaster_of_master hrole, if_pos (valuesTooLong_iff.mpr hlong)]
    rfl
  · rw [onMaster_of_master hrole, if_neg (mt valuesTooLong_iff.mp hlong), if_pos (queueFull_iff.mpr hfull)]
    rfl
  · rw [onMaster_of_master hrole, if_neg (mt valuesTooLong_iff.mp hlong), if_neg (mt queueFull_iff.mp hfull)]
    rfl

/-- Settles O34: both queries answer on a master and are refused on a slave. -/
theorem queueQueries : Obligations.QueueQueries := fun _ =>
  ⟨fun hrole => ⟨onMaster_of_master hrole _, onMaster_of_master hrole _⟩,
    fun hrole => ⟨onMaster_of_slave hrole _, onMaster_of_slave hrole _⟩⟩

/-- Settles O35: the clear is accepted on a master and refused on a slave. -/
theorem queueClear : Obligations.QueueClear := by
  intro s
  change (_ → execQclear s = _) ∧ (_ → execQclear s = _)
  rw [execQclear]
  exact ⟨fun hrole => onMaster_of_master hrole _, fun hrole => onMaster_of_slave hrole _⟩

end Sys2Proof.Machine
end

section
/-! PROOFS. POLL on a master (44_master_engine.md R230 to R246): one equation per branch of the state actions, then the
statements, each a POLL whose state action took one branch. -/

namespace Sys2Proof.Machine

open Sys2Proof.Laws Sys2Proof.Safety

/-! Retry and removal (R245, R246). -/

section
variable {s : State}

/-- The removal in one update: with `CURQ = 0` both fields it writes are as they were. -/
theorem removeHead_eq (s : State) :
    removeHead s = { s with q := if s.curq then s.q.tail else s.q, curq := false } := by
  unfold removeHead
  split
  next => rfl
  next hcurq => rw [← Bool.eq_false_iff.mpr hcurq]

theorem removeHead_of_not_curq (hcurq : s.curq = false) : removeHead s = s := by
  rw [removeHead, hcurq, if_neg Bool.false_ne_true]

theorem removeHead_of_cons {r : Request} {rest : List Request} (hcurq : s.curq = true) (hq : s.q = r :: rest) :
    removeHead s = { s with q := rest, curq := false } := by
  rw [removeHead, if_pos hcurq, hq, List.tail_cons]

theorem failRequest_of_none_left (hn : s.cur.retries = 0) : failRequest s = removeHead s := by
  rw [failRequest, if_neg (by simp [hn])]

theorem failRequest_of_retries (hn : s.cur.retries ≠ 0) :
    failRequest s = { s with
      cur := { s.cur with retries := s.cur.retries - 1 },
      q := if s.curq then setHeadRetries (s.cur.retries - 1) s.q else s.q } := by
  rw [failRequest, if_pos (by bv_omega)]

/-- With `CURQ = 0` a failure leaves the queue and `CURQ` alone. -/
theorem failRequest_of_not_curq (hcurq : s.curq = false) :
    (failRequest s).q = s.q ∧ (failRequest s).curq = false := by
  by_cases hn : s.cur.retries = 0
  · rw [failRequest_of_none_left hn, removeHead_of_not_curq hcurq]
    exact ⟨rfl, hcurq⟩
  · rw [failRequest_of_retries hn]
    exact ⟨by simp [hcurq], hcurq⟩

end

/-- Settles O51: by `CURQ`, and for the failure by whether a retry is left. -/
theorem failAndRemove : Obligations.FailAndRemove := by
  refine ⟨fun s hcurq => ?_, fun s r rest hcurq hq => ?_⟩
  · have hremove := removeHead_of_not_curq hcurq
    exact ⟨hremove, fun hn => (failRequest_of_none_left hn).trans hremove,
      fun hn => by rw [failRequest_of_retries hn, hcurq, if_neg Bool.false_ne_true]⟩
  · have hremove := removeHead_of_cons hcurq hq
    exact ⟨hremove, fun hn => (failRequest_of_none_left hn).trans hremove,
      fun hn => by rw [failRequest_of_retries hn, if_pos hcurq, hq, setHeadRetries]⟩

/-! The guards (R231, R234, R235). -/

section
variable {now : Time} {s : State}

theorem turnaroundPassed_iff : turnaroundPassed now s = true ↔
    s.turnaround ≤ delta now s.lastRx ∧ s.turnaround ≤ delta now s.lastTx := by
  simp [turnaroundPassed, elapsed]

theorem frameEnded_iff : frameEnded now s = true ↔ s.rxn ≠ 0 ∧ s.frameTo ≤ delta now s.lastRx := by
  simp [frameEnded, elapsed, Nat.pos_iff_ne_zero]

theorem responseTimedOut_iff : responseTimedOut now s = true ↔ s.rxn = 0 ∧ s.responseTo ≤ delta now s.lastTx := by
  simp [responseTimedOut, elapsed]

/-! The branches of the state actions. -/

theorem masterAction_of_idle (hm : s.mstate = .idle) : masterAction now s = idleAction now s := by
  rw [masterAction, hm]

theorem masterAction_of_waiting (hm : s.mstate = .waitingForResponse) : masterAction now s = waitingAction now s := by
  rw [masterAction, hm]

theorem idleAction_of_nil (hq : s.q = []) : idleAction now s = .ok s := by
  rw [idleAction, hq]

theorem idleAction_of_not_due (hdue : ¬ turnaroundPassed now s = true) : idleAction now s = .ok s := by
  cases hq : s.q with
  | nil => exact idleAction_of_nil hq
  | cons r rest => simp only [idleAction, hq, if_neg hdue]

theorem idleAction_of_due {r : Request} {rest : List Request} (hq : s.q = r :: rest)
    (hdue : turnaroundPassed now s = true) : idleAction now s = transmitHead now r s := by
  simp only [idleAction, hq, if_pos hdue]

theorem waitingAction_of_frameEnded (hend : frameEnded now s = true) :
    waitingAction now s = receivedAction { s with mstate := .responseReceived } := by
  rw [waitingAction, if_pos hend]

theorem waitingAction_of_timedOut (hout : responseTimedOut now s = true) :
    waitingAction now s = .ok (timeoutAction s) := by
  have hend : ¬ frameEnded now s = true := fun h => (frameEnded_iff.mp h).1 (responseTimedOut_iff.mp hout).1
  rw [waitingAction, if_neg hend, if_pos hout]

theorem waitingAction_of_neither (hend : ¬ frameEnded now s = true) (hout : ¬ responseTimedOut now s = true) :
    waitingAction now s = .ok s := by
  rw [waitingAction, if_neg hend, if_neg hout]

/-- A POLL on a master whose state action completes (R230). -/
theorem poll_of_masterAction {chunk : List Byte} {t : State} (hrole : s.params.role = .master)
    (hact : masterAction now (receive now chunk s) = .ok t) :
    exec (.poll now chunk) s = .next { t with result := some ⟨.ok, .none⟩ } := by
  rw [poll_master hrole, hact]
  rfl

end

/-- Settles O44: in each of the four cases the state action is the identity. -/
theorem masterPollsThatWait : Obligations.MasterPollsThatWait := by
  rintro s s1 now chunk rfl hrole hwait
  apply poll_of_masterAction hrole
  rcases hwait with ⟨hm, hwait⟩ | ⟨hm, hwait⟩
  · rw [masterAction_of_idle (by simpa using hm)]
    rcases hwait with hq | hearly
    · exact idleAction_of_nil (by simpa using hq)
    · refine idleAction_of_not_due (turnaroundPassed_iff.not.mpr ?_)
      simpa [imp_iff_not_or] using hearly
  · rw [masterAction_of_waiting (by simpa using hm)]
    rcases hwait with ⟨hn, hearly⟩ | ⟨hn, hearly⟩
    · exact waitingAction_of_neither (frameEnded_iff.not.mpr (by simpa [hn] using hearly))
        (responseTimedOut_iff.not.mpr fun h => hn h.1)
    · exact waitingAction_of_neither (frameEnded_iff.not.mpr fun h => h.1 hn)
        (responseTimedOut_iff.not.mpr (by simpa [hn] using hearly))

/-- Settles O46: the timeout is the state action, and the append has left `CUR` as it was. -/
theorem masterTimesOut : Obligations.MasterTimesOut := by
  rintro s s1 now chunk rfl hrole hm hn hdue
  refine poll_of_masterAction (t := { failRequest (raise (.timeout s.cur) (receive now chunk s)) with mstate := .idle })
    hrole ?_
  rw [masterAction_of_waiting (by simpa using hm),
    waitingAction_of_timedOut (responseTimedOut_iff.mpr ⟨hn, by simpa using hdue⟩), timeoutAction, receive_cur]

/-! The transmission (R232, R233). -/

/-- The state after `CUR` is loaded, its frame `f` built, the buffer purged and the frame handed to the transport. -/
def sent (now : Time) (r : Request) (f : List Byte) (s : State) : State :=
  { takeTx s with
    cur := r, curq := true, rxb := [], rxn := 0, txb := Memory.ofBytes f, txn := f.length
    lastTx := if txOk s then now else s.lastTx
    events := s.events ++ .tx f :: if txOk s then [] else [.diag .txFailed] }

theorem takeTx_loaded (r : Request) (f : List Byte) (s : State) :
    takeTx (purge (putFrame f { s with cur := r, curq := true })) = { takeTx s with
      cur := r, curq := true, rxb := [], rxn := 0, txb := Memory.ofBytes f, txn := f.length } := by
  unfold takeTx purge putFrame
  cases s.txAns <;> rfl

theorem tx_eq_sent (now : Time) (r : Request) (f : List Byte) (s : State) :
    tx now f (purge (putFrame f { s with cur := r, curq := true })) = sent now r f s := by
  rw [tx_eq, takeTx_loaded]
  rfl

section
variable (now : Time) (r : Request) (f : List Byte) (s : State)

@[simp] theorem sent_params : (sent now r f s).params = s.params := takeTx_params s
@[simp] theorem sent_mstate : (sent now r f s).mstate = s.mstate := takeTx_mstate s
@[simp] theorem sent_q : (sent now r f s).q = s.q := takeTx_q s
@[simp] theorem sent_lastRx : (sent now r f s).lastRx = s.lastRx := takeTx_lastRx s
@[simp] theorem sent_responseTo : (sent now r f s).responseTo = s.responseTo := takeTx_responseTo s
@[simp] theorem sent_turnaround : (sent now r f s).turnaround = s.turnaround := takeTx_turnaround s
@[simp] theorem sent_inputs : (sent now r f s).inputs = s.inputs := takeTx_inputs s

theorem sent_events :
    (sent now r f s).events = s.events ++ .tx f :: if txOk s then [] else [.diag .txFailed] := rfl

theorem sent_lastTx : (sent now r f s).lastTx = if txOk s then now else s.lastTx := rfl

end

section
variable {now : Time} {r : Request} {rest : List Request} {f : List Byte} {s : State}

theorem transmitHead_of_ok (hf : encodeRequest r = .ok f) :
    transmitHead now r s = .ok (afterSend (txOk s) r (sent now r f s)) := by
  simp only [transmitHead, hf, tx_eq_sent]

theorem transmitHead_of_error {e : Fault} (hf : encodeRequest r = .error e) : transmitHead now r s = .error e := by
  simp only [transmitHead, hf]

theorem afterSend_of_failed (r : Request) (s : State) : afterSend false r s = s := rfl

theorem afterSend_of_unicast (hslave : r.slave ≠ 0) (s : State) :
    afterSend true r s = { s with mstate := .waitingForResponse } := by
  rw [afterSend, if_pos rfl, if_pos hslave]

theorem afterSend_of_broadcast (hslave : r.slave = 0) (s : State) :
    afterSend true r s = if s.params.bcastDequeue then removeHead s else s := by
  rw [afterSend, if_pos rfl, if_neg (not_not_intro hslave)]

/-- What follows the write changes `MSTATE`, the queue and `CURQ` at most. -/
theorem afterSend_frame (ok : Bool) (r : Request) (s : State) :
    afterSend ok r s = { s with
      mstate := (afterSend ok r s).mstate, q := (afterSend ok r s).q, curq := (afterSend ok r s).curq } := by
  cases ok with
  | false => rfl
  | true =>
    by_cases hslave : r.slave = 0
    · rw [afterSend_of_broadcast hslave]
      split
      · rw [removeHead_eq]
      · rfl
    · rw [afterSend_of_unicast hslave]

/-- A POLL on an idle master whose turnaround has passed runs `transmit_head`. -/
theorem masterAction_of_due {chunk : List Byte} (hm : s.mstate = .idle) (hq : s.q = r :: rest)
    (hrx : s.turnaround ≤ delta now (receive now chunk s).lastRx) (htx : s.turnaround ≤ delta now s.lastTx) :
    masterAction now (receive now chunk s) = transmitHead now r (receive now chunk s) := by
  rw [masterAction_of_idle (by simpa using hm)]
  exact idleAction_of_due (by simpa using hq) (turnaroundPassed_iff.mpr (by simpa using ⟨hrx, htx⟩))

/-- A POLL that transmits completes in the state after the write. -/
theorem poll_of_due {chunk : List Byte} (hrole : s.params.role = .master) (hm : s.mstate = .idle)
    (hq : s.q = r :: rest) (hf : encodeRequest r = .ok f)
    (hrx : s.turnaround ≤ delta now (receive now chunk s).lastRx) (htx : s.turnaround ≤ delta now s.lastTx) :
    exec (.poll now chunk) s = .next
      { afterSend (txOk (receive now chunk s)) r (sent now r f (receive now chunk s)) with
        result := some ⟨.ok, .none⟩ } :=
  poll_of_masterAction hrole ((masterAction_of_due hm hq hrx htx).trans (transmitHead_of_ok hf))

end

/-- Settles O45: the encode decides whether the POLL faults; then the write's answer, the slave address and
`BCAST_DEQUEUE` decide what follows. -/
theorem masterTransmitsHead : Obligations.MasterTransmitsHead := by
  rintro s s1 now chunk r rest rfl hrole hm hq hrx htx
  refine ⟨fun e he => ?_, fun f hf => ?_⟩
  · rw [poll_master hrole, masterAction_of_due hm hq hrx htx, transmitHead_of_error he]
    rfl
  have hpoll := poll_of_due hrole hm hq hf hrx htx
  rw [afterSend_frame] at hpoll
  refine ⟨_, hpoll, bytes_ofBytes f, isFrame_bufferOk (encodeRequest_isFrame hf), ?_, fun hok hslave => ?_,
    fun hok hslave hkeep => ?_, fun hok hslave hdrop => ?_, fun hok => ?_⟩
  · rw [← receive_lastTx now chunk s]
    rfl
  · rw [hok, afterSend_of_unicast hslave]
    exact ⟨rfl, by simp, rfl⟩
  · rw [hok, afterSend_of_broadcast hslave, if_neg (by simp [hkeep])]
    exact ⟨by simpa using hm, by simp, rfl⟩
  · rw [hok, afterSend_of_broadcast hslave, if_pos (by simpa using hdrop),
      removeHead_of_cons rfl (rest := rest) (by simpa using hq)]
    exact ⟨by simpa using hm, rfl, rfl⟩
  · rw [hok, afterSend_of_failed]
    exact ⟨by simpa using hm, by simp, rfl⟩

/-! What follows the decode (R236 to R240). -/

theorem takeHandled_raise (e : Event) (s : State) : takeHandled (raise e s) = raise e (takeHandled s) := by
  unfold takeHandled raise
  cases s.handledAns <;> rfl

theorem takeHandled_withMstate (s : State) (m : MState) :
    takeHandled { s with mstate := m } = { takeHandled s with mstate := m } := by
  unfold takeHandled
  cases s.handledAns <;> rfl

section
variable {s : State}

/-- The generic callback claims the response: the specific one is not raised (R238). -/
theorem dispatchNormal_of_handled (p : Normal) (hh : handled s = true) :
    dispatchNormal p s = { takeHandled s with
      events := s.events ++ [.response s.cur p], q := if s.curq then s.q.tail else s.q, curq := false } := by
  rw [dispatchNormal, if_pos hh, removeHead_eq, takeHandled_raise]
  simp

/-- The generic callback declines: the specific one is raised after it, and its answer changes nothing (R238). -/
theorem dispatchNormal_of_declined (p : Normal) (hh : handled s = false) :
    dispatchNormal p s = { takeHandled (takeHandled s) with
      events := s.events ++ [.response s.cur p, .responseFn p.fn s.cur p]
      q := if s.curq then s.q.tail else s.q, curq := false } := by
  rw [dispatchNormal, hh, if_neg Bool.false_ne_true, removeHead_eq, takeHandled_raise, takeHandled_raise,
    takeHandled_raise]
  simp

end

/-- What follows the decode does not read or write `MSTATE`. -/
theorem dispatch_withMstate (p : Option Response) (s : State) (m : MState) :
    dispatch p { s with mstate := m } = { dispatch p s with mstate := m } := by
  match p with
  | none => exact failRequest_withMstate s m
  | some (.exception e) => exact failRequest_withMstate (raise (.exception s.cur e) s) m
  | some (.normal p) =>
    change dispatchNormal p { s with mstate := m } = { dispatchNormal p s with mstate := m }
    cases hh : handled s with
    | true => rw [dispatchNormal_of_handled p hh, dispatchNormal_of_handled p (by exact hh), takeHandled_withMstate]
    | false =>
      rw [dispatchNormal_of_declined p hh, dispatchNormal_of_declined p (by exact hh), takeHandled_withMstate s,
        takeHandled_withMstate (takeHandled s)]

/-! The end of a frame (R234, R244). -/

theorem findResponse_of_none {B : List Byte} {r : Request} (hfind : findM B r.slave r.fn = .ok none) :
    findResponse B r = .ok none := by
  rw [findResponse, hfind]
  rfl

theorem findResponse_of_some {B : List Byte} {r : Request} {h : Hit} (hfind : findM B r.slave r.fn = .ok (some h)) :
    findResponse B r = decodeResponse B h r := by
  rw [findResponse, hfind]
  rfl

/-- The scan and the decode of a Request of the right shape fault on nothing (43_frame_decode_sync.md R192). -/
theorem findResponse_total (B : List Byte) {r : Request} (hshape : requestShape r = true) :
    ∃ p, findResponse B r = .ok p := by
  rcases masterScanFindsLeast B r.slave r.fn with ⟨h, hfind, hvalid, -⟩ | ⟨hfind, -⟩
  · rw [findResponse_of_some hfind]
    exact decodeResponse_total hvalid hshape
  · exact ⟨none, findResponse_of_none hfind⟩

section
variable {now : Time} {chunk : List Byte} {s : State} {p : Option Response}

theorem receivedAction_of_ok (hp : findResponse (rxBytes s) s.cur = .ok p) :
    receivedAction s = .ok { purge (dispatch p s) with mstate := .idle } := by
  rw [receivedAction, hp]

/-- A POLL on a waiting master that sees the end of a frame: what the scan and the decode give is dispatched, the buffer
is purged, the master is idle. -/
theorem poll_of_frameEnded (hrole : s.params.role = .master) (hm : s.mstate = .waitingForResponse)
    (hn : (receive now chunk s).rxn ≠ 0) (hsilent : s.frameTo ≤ delta now (receive now chunk s).lastRx)
    (hp : findResponse (rxBytes (receive now chunk s)) s.cur = .ok p) :
    exec (.poll now chunk) s = .next { dispatch p (receive now chunk s) with
      rxb := [], rxn := 0, mstate := .idle, result := some ⟨.ok, .none⟩ } := by
  refine poll_of_masterAction (t := { dispatch p (receive now chunk s) with rxb := [], rxn := 0, mstate := .idle })
    hrole ?_
  rw [masterAction_of_waiting (by simpa using hm),
    waitingAction_of_frameEnded (frameEnded_iff.mpr ⟨hn, by simpa using hsilent⟩),
    receivedAction_of_ok (by exact (receive_cur now chunk s).symm ▸ hp), dispatch_withMstate]
  rfl

end

/-- Settles O47: whichever of the two it is, nothing is dispatched but the failure. -/
theorem masterFindsNothing : Obligations.MasterFindsNothing := by
  rintro s s1 now chunk rfl hrole hm hn hsilent hnothing
  refine poll_of_frameEnded (p := none) hrole hm hn hsilent ?_
  rcases hnothing with hfind | ⟨h, hfind, hdec⟩
  · exact findResponse_of_none hfind
  · exact (findResponse_of_some hfind).trans hdec

/-- Settles O48: the exception is dispatched; the append has left `CUR` as it was. -/
theorem masterMeetsException : Obligations.MasterMeetsException := by
  rintro s s1 now chunk h e rfl hrole hm hn hsilent hfind hdec
  rw [poll_of_frameEnded hrole hm hn hsilent ((findResponse_of_some hfind).trans hdec), ← receive_cur now chunk s]
  rfl

/-- Settles O49: the two ways of answering, each with the events it raises and the answers it reads. -/
theorem masterMeetsNormal : Obligations.MasterMeetsNormal := by
  rintro s s1 s2 now chunk h p es rfl hrole hm hn hsilent hfind hdec hanswers
  rw [poll_of_frameEnded hrole hm hn hsilent ((findResponse_of_some hfind).trans hdec), dispatch]
  rcases hanswers with ⟨hh, rfl, rfl⟩ | ⟨hh, rfl, rfl⟩
  · rw [dispatchNormal_of_handled p hh, receive_cur, receive_curq, receive_q]
  · rw [dispatchNormal_of_declined p hh, receive_cur, receive_curq, receive_q]

/-- Settles O50: the scan and the decode always give something, and its dispatch leaves the time registers and `TXB`. -/
theorem masterCycleEnds : Obligations.MasterCycleEnds := by
  rintro s s1 now chunk rfl hrole hm hshape hn hsilent
  obtain ⟨p, hp⟩ := findResponse_total (rxBytes (receive now chunk s)) hshape
  obtain ⟨-, -, -, hlastTx⟩ := dispatch_events p (receive now chunk s)
  obtain ⟨htxb, htxn⟩ := dispatch_txb p (receive now chunk s)
  exact ⟨_, poll_of_frameEnded hrole hm hn hsilent hp, rfl, rfl, (dispatch_keeps p _).lastRx,
    hlastTx.trans (by simp), htxb.trans (by simp), htxn.trans (by simp)⟩

/-! A cycle whose Request is no longer queued (R249). -/

theorem dispatch_of_not_curq (p : Option Response) {s : State} (hcurq : s.curq = false) :
    (dispatch p s).q = s.q ∧ (dispatch p s).curq = false := by
  match p with
  | none => exact failRequest_of_not_curq hcurq
  | some (.exception e) => exact failRequest_of_not_curq (s := raise (.exception s.cur e) s) hcurq
  | some (.normal p) =>
    refine ⟨?_, dispatchNormal_curq p s⟩
    change (dispatchNormal p s).q = s.q
    cases hh : handled s with
    | true => rw [dispatchNormal_of_handled p hh, hcurq, if_neg Bool.false_ne_true]
    | false => rw [dispatchNormal_of_declined p hh, hcurq, if_neg Bool.false_ne_true]

theorem receivedAction_of_not_curq {s t : State} (hcurq : s.curq = false) (hact : receivedAction s = .ok t) :
    t.q = s.q ∧ t.curq = false := by
  unfold receivedAction at hact
  split at hact
  next => cases hact
  next p _ =>
    cases hact
    exact dispatch_of_not_curq p hcurq

theorem masterAction_of_not_curq {now : Time} {s t : State} (hm : s.mstate ≠ .idle) (hcurq : s.curq = false)
    (hact : masterAction now s = .ok t) : t.q = s.q ∧ t.curq = false := by
  unfold masterAction at hact
  split at hact
  next hidle => exact absurd hidle hm
  next =>
    unfold waitingAction at hact
    split at hact
    · exact receivedAction_of_not_curq (s := { s with mstate := .responseReceived }) hcurq hact
    split at hact
    · cases hact
      exact failRequest_of_not_curq (s := raise (.timeout s.cur) s) hcurq
    · cases hact
      exact ⟨rfl, hcurq⟩
  next => exact receivedAction_of_not_curq hcurq hact

/-- Settles O36: whichever branch the cycle takes, it ends by way of `fail` or the removal, which heed `CURQ`. -/
theorem clearedCycleSparesQueue : Obligations.ClearedCycleSparesQueue := by
  intro s t now chunk hrole hm hcurq hexec
  obtain ⟨u, hact, rfl⟩ := poll_next hexec
  rw [stateAction, receive_params, hrole] at hact
  obtain ⟨hq, hcurq'⟩ := masterAction_of_not_curq (by simpa using hm) (by simpa using hcurq) hact
  exact ⟨hq.trans (receive_q now chunk s), hcurq'⟩

end Sys2Proof.Machine
end

section
/-! PROOFS. Runs of a master (44_master_engine.md R247, R248): what one send attempt and one POLL or RXPUSH do, and the
inductions over them. -/

namespace Sys2Proof.Machine

open Sys2Proof.Laws Sys2Proof.Safety

/-! Runs. -/

theorem run_succ (M : Host.Core) {s u : M.State} (n : Nat) (h : M.step s = .next u) : M.run (n + 1) s = M.run n u := by
  rw [Host.Core.run, h]

/-- A step that finds an encoded command runs it. -/
theorem step_of_encoded {s : State} {i : Instr} {rest : List Input} (hi : i.wf = true)
    (hin : s.inputs = .cmd (encode i) :: rest) : step s = exec i { s with inputs := rest } :=
  stepRunsDecodedInstruction s _ rest i hin (decode_encode hi)

theorem sends_append (es fs : List Event) : sends (es ++ fs) = sends es + sends fs := by
  induction es with
  | nil => simp [sends]
  | cons e es ih => cases e <;> simp [sends, ih, Nat.add_right_comm]

/-! One send attempt that gets no answer (R232, R235, R245). -/

/-- What both POLLs of an attempt leave of the fields that the attempts read. -/
structure AttemptKeeps (s t : State) : Prop where
  params     : t.params = s.params
  lastRx     : t.lastRx = s.lastRx
  turnaround : t.turnaround = s.turnaround
  responseTo : t.responseTo = s.responseTo

/-- The head `r`, whose frame is `f`, is in flight since `a`: what the POLL that sends it leaves. -/
structure InFlight (a : Time) (r : Request) (rest : List Request) (f : List Byte) (s u : State) : Prop
    extends AttemptKeeps s u where
  inputs : u.inputs = s.inputs
  mstate : u.mstate = .waitingForResponse
  rxn    : u.rxn = 0
  cur    : u.cur = r
  curq   : u.curq = true
  q      : u.q = r :: rest
  lastTx : u.lastTx = a
  txAns  : u.txAns = s.txAns.tail
  events : u.events = s.events ++ [.tx f]

/-- What an attempt at `a` that gets no answer leaves of the head `r`, of the answers and of the event record. -/
structure Attempted (a : Time) (r : Request) (rest : List Request) (s t : State) : Prop
    extends AttemptKeeps s t where
  mstate : t.mstate = .idle
  q      : t.q = if r.retries = 0 then rest else { r with retries := r.retries - 1 } :: rest
  lastTx : t.lastTx = a
  txAns  : t.txAns = s.txAns.tail
  sends  : sends t.events = sends s.events + 1

section
variable {s : State} {r : Request} {rest : List Request} {f : List Byte} {a b : Time} {ans : List Bool}

/-- The failure of the head in flight. -/
theorem failRequest_q (hcurq : s.curq = true) (hcur : s.cur = r) (hq : s.q = r :: rest) :
    (failRequest s).q = if r.retries = 0 then rest else { r with retries := r.retries - 1 } :: rest := by
  obtain ⟨-, hlast, hleft⟩ := failAndRemove.2 s r rest hcurq hq
  subst hcur
  split
  next hn => rw [hlast hn]
  next hn => rw [hleft hn]

/-- The POLL that sends, by a write that succeeds, to one slave. -/
theorem poll_sends (hrole : s.params.role = .master) (hm : s.mstate = .idle) (hq : s.q = r :: rest)
    (hslave : r.slave ≠ 0) (hf : encodeRequest r = .ok f) (hans : s.txAns = true :: ans)
    (hrx : s.turnaround ≤ delta a s.lastRx) (htx : s.turnaround ≤ delta a s.lastTx) :
    ∃ u, exec (.poll a []) s = .next u ∧ InFlight a r rest f s u := by
  have hok : txOk s = true := by rw [txOk, hans]
  have htake : (takeTx s).txAns = s.txAns.tail := by rw [takeTx, hans, List.tail_cons]
  refine ⟨{ sent a r f s with mstate := .waitingForResponse, result := some ⟨.ok, .none⟩ }, ?_, {
    params := sent_params a r f s
    inputs := sent_inputs a r f s
    lastRx := sent_lastRx a r f s
    turnaround := sent_turnaround a r f s
    responseTo := sent_responseTo a r f s
    mstate := rfl
    rxn := rfl
    cur := rfl
    curq := rfl
    q := (sent_q a r f s).trans hq
    lastTx := by rw [sent_lastTx, if_pos hok]
    txAns := htake
    events := by rw [sent_events, if_pos hok] }⟩
  rw [poll_of_due (chunk := []) hrole hm hq hf hrx htx, receive_nil, hok, afterSend_of_unicast hslave]

/-- The two steps of an attempt: the POLL that sends and the POLL that finds the timeout. -/
theorem attempt_steps {ins : List Input} (hrole : s.params.role = .master) (hm : s.mstate = .idle)
    (hq : s.q = r :: rest) (hslave : r.slave ≠ 0) (hf : encodeRequest r = .ok f)
    (hin : s.inputs = .cmd (encode (.poll a [])) :: .cmd (encode (.poll b [])) :: ins) (hans : s.txAns = true :: ans)
    (hrx : s.turnaround ≤ delta a s.lastRx) (htx : s.turnaround ≤ delta a s.lastTx)
    (hresp : s.responseTo ≤ delta b a) :
    ∃ u t, step s = .next u ∧ step u = .next t ∧ t.inputs = ins ∧ Attempted a r rest s t := by
  obtain ⟨u, hsend, hu⟩ := poll_sends (s := { s with inputs := .cmd (encode (.poll b [])) :: ins }) hrole hm hq hslave
    hf hans hrx htx
  have htimeout := masterTimesOut { u with inputs := ins } { u with inputs := ins } b [] rfl (hu.params ▸ hrole)
    hu.mstate hu.rxn (by rw [hu.responseTo, hu.lastTx]; exact hresp)
  refine ⟨u, _, (step_of_encoded rfl hin).trans hsend, (step_of_encoded rfl hu.inputs).trans htimeout, by simp, {
    params := by simp [hu.params]
    lastRx := by simp [hu.lastRx]
    turnaround := by simp [hu.turnaround]
    responseTo := by simp [hu.responseTo]
    mstate := rfl
    q := failRequest_q hu.curq hu.cur hu.q
    lastTx := by simp [hu.lastTx]
    txAns := by simp [hu.txAns]
    sends := by simp [hu.events, sends_append, sends] }⟩

end

/-! R247. -/

/-- The retry counter is not on the wire (42_frame_encode.md R154). -/
theorem encodeRequest_retries (r : Request) (n : Retry) : encodeRequest { r with retries := n } = encodeRequest r := rfl

/-- Settles O52: by induction over the attempts. Each is two steps that leave the head with one retry less, until the
one that finds none left removes it, and no more attempts follow that. -/
theorem retryExhaustion : Obligations.RetryExhaustion := by
  intro s r rest f times
  induction times generalizing s r with
  | nil =>
    intro _ hm hq _ _ _ _ _ _ _
    exact ⟨s, rfl, hm, rfl, by simpa using hq⟩
  | cons ab times ih =>
    obtain ⟨a, b⟩ := ab
    intro hrole hm hq hslave hf hin hlen hdue hanslen hans
    simp only [attemptsDue, elapsed, Bool.and_eq_true, decide_eq_true_eq] at hdue
    obtain ⟨⟨⟨hrx, htx⟩, hresp⟩, hdue⟩ := hdue
    obtain ⟨ans, htrue⟩ : ∃ ans, s.txAns = true :: ans := by
      cases hcons : s.txAns with
      | nil => simp [hcons] at hanslen
      | cons b ans => exact ⟨ans, by rw [hans b (by simp [hcons])]⟩
    obtain ⟨u, t, hsend, htimeout, hins, ht⟩ := attempt_steps hrole hm hq hslave hf hin htrue hrx htx hresp
    have hrun : Sys2Proof.core.run (2 * (times.length + 1)) s = Sys2Proof.core.run (2 * times.length) t :=
      (run_succ Sys2Proof.core _ hsend).trans (run_succ Sys2Proof.core _ htimeout)
    rw [List.length_cons] at hlen hanslen hans ⊢
    rw [hrun]
    by_cases hn : r.retries = 0
    · obtain rfl : times = [] := by simpa [hn] using hlen
      exact ⟨t, rfl, ht.mstate, ht.sends, by simpa [hn] using ht.q⟩
    · have hless : (r.retries - 1).toNat + 1 = r.retries.toNat := by bv_omega
      obtain ⟨v, hv, hvm, hvsends, hvq⟩ := ih t { r with retries := r.retries - 1 } (ht.params ▸ hrole) ht.mstate
        (by rw [ht.q, if_neg hn]) hslave ((encodeRequest_retries r _).trans hf) hins
        (hless.symm ▸ Nat.le_of_succ_le_succ hlen)
        (by rw [ht.turnaround, ht.responseTo, ht.lastRx, ht.lastTx]; exact hdue)
        (by simpa [ht.txAns, htrue] using hanslen)
        (by simpa [ht.txAns, htrue] using hans)
      refine ⟨v, hv, hvm, ?_, ?_⟩
      · rw [hvsends, ht.sends]
        omega
      · have hsub : r.retries - 1 - BitVec.ofNat 8 times.length = r.retries - BitVec.ofNat 8 (times.length + 1) := by
          rw [BitVec.ofNat_add, sub_sub, add_comm]
          rfl
        simp only [hvq, hsub, hless, Nat.add_right_cancel_iff]

/-! R248. -/

/-- The events that a blocked queue may raise: a receive tap, the broadcast's frame, a failed write. -/
def BlockedEvent (f : List Byte) (e : Event) : Prop := (∃ chunk, e = .rx chunk) ∨ e = .tx f ∨ e = .diag .txFailed

/-- The state `t` follows `s` with the queue still headed by the broadcast and nothing else sent. -/
structure Blocked (r : Request) (rest : List Request) (f : List Byte) (s t : State) : Prop where
  params : t.params = s.params
  mstate : t.mstate = .idle
  q      : t.q = r :: rest
  inputs : t.inputs = s.inputs
  events : ∃ es, t.events = s.events ++ es ∧ ∀ e ∈ es, BlockedEvent f e

section
variable {s : State} {r : Request} {rest : List Request} {f : List Byte} {now : Time} {chunk : List Byte}

theorem blocked_receive (hm : s.mstate = .idle) (hq : s.q = r :: rest) : Blocked r rest f s (receive now chunk s) := by
  refine ⟨by simp, by simpa using hm, by simpa using hq, by simp, _, receive_events now chunk s, fun e he => ?_⟩
  split at he
  · cases he
  · exact .inl ⟨chunk, List.mem_singleton.mp he⟩

theorem blocked_setResult {t : State} (h : Blocked r rest f s t) (st : Status) (v : Value) :
    Blocked r rest f s (setResult st v t) :=
  ⟨h.params, h.mstate, h.q, h.inputs, h.events⟩

/-- The head handed to the transport once more. -/
theorem blocked_sent {t : State} (h : Blocked r rest f s t) : Blocked r rest f s (sent now r f t) := by
  obtain ⟨es, hes, hall⟩ := h.events
  refine ⟨by simp [h.params], by simp [h.mstate], by simp [h.q], by simp [h.inputs],
    es ++ .tx f :: if txOk t then [] else [.diag .txFailed], ?_, fun e he => ?_⟩
  · rw [sent_events, hes, List.append_assoc]
  · rcases List.mem_append.mp he with he | he
    · exact hall e he
    rcases List.mem_cons.mp he with rfl | he
    · exact .inr (.inl rfl)
    · split at he
      · cases he
      · exact .inr (.inr (List.mem_singleton.mp he))

theorem afterSend_of_kept (hslave : r.slave = 0) (hkeep : s.params.bcastDequeue = false) (ok : Bool) :
    afterSend ok r s = s := by
  cases ok with
  | false => rfl
  | true => rw [afterSend_of_broadcast hslave, if_neg (by simp [hkeep])]

/-- A POLL, due or not. -/
theorem poll_blocked (hrole : s.params.role = .master) (hkeep : s.params.bcastDequeue = false) (hm : s.mstate = .idle)
    (hq : s.q = r :: rest) (hslave : r.slave = 0) (hf : encodeRequest r = .ok f) :
    ∃ t, exec (.poll now chunk) s = .next t ∧ Blocked r rest f s t := by
  have hrecv : Blocked r rest f s (receive now chunk s) := blocked_receive hm hq
  by_cases hdue : s.turnaround ≤ delta now (receive now chunk s).lastRx ∧ s.turnaround ≤ delta now s.lastTx
  · have hpoll := poll_of_due hrole hm hq hf hdue.1 hdue.2
    rw [afterSend_of_kept hslave (by simpa using hkeep)] at hpoll
    exact ⟨_, hpoll, blocked_setResult (blocked_sent hrecv) .ok .none⟩
  · refine ⟨_, masterPollsThatWait s _ now chunk rfl hrole (.inl ⟨hm, .inr ?_⟩), blocked_setResult hrecv .ok .none⟩
    simpa [imp_iff_not_or] using hdue

end

theorem pollsAndPushes_cons {i : Input} {ins : List Input} (h : pollsAndPushes (i :: ins) = true) :
    (∃ p, i = .cmd p ∧ (decode p = .ok (.poll p.now p.chunk) ∨ decode p = .ok (.rxpush p.now p.chunk))) ∧
      pollsAndPushes ins = true := by
  cases i with
  | rst | overlap => cases h
  | cmd p =>
    simp only [pollsAndPushes, Bool.and_eq_true, Bool.or_eq_true, decide_eq_true_eq] at h
    obtain ⟨⟨hl, hcode⟩, hins⟩ := h
    refine ⟨⟨p, rfl, ?_⟩, hins⟩
    rw [decode_of_command hl, decodeCommand]
    rcases hcode with hcode | hcode <;> rw [hcode]
    · exact .inl rfl
    · exact .inr rfl

/-- Settles O53: by induction over the steps; the head is a broadcast that is kept, so no step leaves `Idle`. -/
theorem broadcastBlocksQueue : Obligations.BroadcastBlocksQueue := by
  intro s r rest f n hrole hkeep hm hq hslave hf hins
  induction n generalizing s with
  | zero => exact ⟨s, [], rfl, hm, hq, by simp, by simp⟩
  | succ n ih =>
    cases hin : s.inputs with
    | nil =>
      rw [run_succ Sys2Proof.core n (step_of_inputs_nil hin)]
      exact ih s hrole hkeep hm hq hins
    | cons i ins =>
      rw [hin] at hins
      obtain ⟨⟨p, rfl, hdec⟩, hins'⟩ := pollsAndPushes_cons hins
      obtain ⟨t, ht, hblocked⟩ : ∃ t, step s = .next t ∧ Blocked r rest f { s with inputs := ins } t := by
        rcases hdec with hdec | hdec <;> rw [stepRunsDecodedInstruction s p ins _ hin hdec]
        · exact poll_blocked (s := { s with inputs := ins }) hrole hkeep hm hq hslave hf
        · exact ⟨_, rfl, blocked_setResult (blocked_receive (s := { s with inputs := ins }) hm hq) .ok .none⟩
      obtain ⟨es, hes, hall⟩ := hblocked.events
      obtain ⟨v, es', hv, hvm, hvq, hves, hvall⟩ := ih t (hblocked.params ▸ hrole) (hblocked.params ▸ hkeep)
        hblocked.mstate hblocked.q (by rw [hblocked.inputs]; exact hins')
      refine ⟨v, es ++ es', (run_succ Sys2Proof.core n ht).trans hv, hvm, hvq, ?_, fun e he => ?_⟩
      · rw [hves, hes, List.append_assoc]
      · exact (List.mem_append.mp he).elim (hall e) (hvall e)

end Sys2Proof.Machine
end

section
/-! PROOFS. POLL on a slave (45_slave_engine.md R272 to R281): one equation per branch of the state action, then the
statements, each a POLL whose state action took one branch. -/

namespace Sys2Proof.Machine

open Sys2Proof.Laws Sys2Proof.Safety

/-! The guard (R272, R273). -/

section
variable {now : Time} {chunk : List Byte} {s : State}

theorem requestReady_iff : requestReady now s = true ↔
    s.rxn ≠ 0 ∧ s.frameTo ≤ delta now s.lastRx ∧ s.respDelay ≤ delta now s.lastRx := by
  simp [requestReady, elapsed, Nat.pos_iff_ne_zero, and_assoc]

/-- The guard after the append, which has left both thresholds as they were. -/
theorem requestReady_receive (hn : (receive now chunk s).rxn ≠ 0)
    (hframe : s.frameTo ≤ delta now (receive now chunk s).lastRx)
    (hdelay : s.respDelay ≤ delta now (receive now chunk s).lastRx) : requestReady now (receive now chunk s) = true :=
  requestReady_iff.mpr ⟨hn, by simpa using hframe, by simpa using hdelay⟩

/-! The branches of the state action. -/

theorem slaveAction_of_ready (hidle : s.sstate = .idle) (hready : requestReady now s = true) :
    slaveAction now s = requestAction now { s with sstate := .requestReceived } := by
  simp only [slaveAction, hidle, if_pos hready]

theorem slaveAction_of_not_ready (hidle : s.sstate = .idle) (hready : ¬ requestReady now s = true) :
    slaveAction now s = .ok s := by
  simp only [slaveAction, hidle, if_neg hready]

end

/-- Settles O54: in each of the three cases the guard is false and the state action is the identity. -/
theorem slavePollsThatWait : Obligations.SlavePollsThatWait := by
  rintro s s1 now chunk rfl hrole hidle hwait
  have hready : ¬ requestReady now (receive now chunk s) = true := requestReady_iff.not.mpr <| by
    rintro ⟨hn, hframe, hdelay⟩
    rw [receive_frameTo] at hframe
    rw [receive_respDelay] at hdelay
    rcases hwait with hempty | hearly | hearly
    · exact hn hempty
    · exact BitVec.not_le.mpr hearly hframe
    · exact BitVec.not_le.mpr hearly hdelay
  rw [poll_slave hrole, slaveAction_of_not_ready (by simpa using hidle) hready]
  rfl

/-! A POLL that runs `request_action` (R274, R281). -/

section
variable {now : Time} {chunk : List Byte} {s u : State}

/-- What the body leaves, the end of `request_action` purges and returns to `Idle`. -/
theorem poll_of_requestBody (hrole : s.params.role = .slave) (hidle : s.sstate = .idle)
    (hready : requestReady now (receive now chunk s) = true)
    (hbody : requestBody now { receive now chunk s with sstate := .requestReceived } =
      .ok { u with sstate := .requestReceived }) (hu : u.sstate = .idle) :
    exec (.poll now chunk) s = .next { u with rxb := [], rxn := 0, result := some ⟨.ok, .none⟩ } := by
  rw [poll_slave hrole, slaveAction_of_ready (by simpa using hidle) hready, requestAction, hbody, hu]
  rfl

theorem poll_of_requestBody_error {e : Fault} (hrole : s.params.role = .slave) (hidle : s.sstate = .idle)
    (hready : requestReady now (receive now chunk s) = true)
    (hbody : requestBody now { receive now chunk s with sstate := .requestReceived } = .error e) :
    exec (.poll now chunk) s = .fault e := by
  rw [poll_slave hrole, slaveAction_of_ready (by simpa using hidle) hready, requestAction, hbody]
  rfl

/-! The scan and the decode (R274, R275). -/

theorem findRequest_of_none {B : List Byte} (hfind : findS B = .ok none) : findRequest B = .ok none := by
  rw [findRequest, hfind]
  rfl

theorem findRequest_of_some {B : List Byte} {h : Hit} (hfind : findS B = .ok (some h)) :
    findRequest B = decodeRequest B h.off := by
  rw [findRequest, hfind]
  rfl

theorem requestBody_of_none (hfind : findRequest (rxBytes s) = .ok none) : requestBody now s = .ok s := by
  rw [requestBody, hfind]

/-- The body on a decoded Request; `SSTATE` plays no part in the scan and the decode. -/
theorem requestBody_of_some {h : Hit} {r : Request} (m : SState) (hfind : findS (rxBytes s) = .ok (some h))
    (hdec : decodeRequest (rxBytes s) h.off = .ok (some r)) :
    requestBody now { s with sstate := m } = serve now r { s with sstate := m } := by
  have hreq : findRequest (rxBytes { s with sstate := m }) = .ok (some r) := (findRequest_of_some hfind).trans hdec
  rw [requestBody, hreq]

end

/-- Settles O55: whichever of the two it is, the body is the identity. -/
theorem slaveDropsBadFrames : Obligations.SlaveDropsBadFrames := by
  rintro s s1 now chunk rfl hrole hidle hn hframe hdelay hnothing
  refine poll_of_requestBody hrole hidle (requestReady_receive hn hframe hdelay) (requestBody_of_none ?_)
    (by simpa using hidle)
  rcases hnothing with hfind | ⟨h, hfind, hdec⟩
  · exact findRequest_of_none hfind
  · exact (findRequest_of_some hfind).trans hdec

/-! The environment's answers in one update each, so that an update of other fields passes them by computation. -/

theorem takeTx_update (s : State) :
    takeTx s = { s with txAns := s.txAns.tail, draws := if s.txAns.isEmpty then s.draws + 1 else s.draws } := by
  unfold takeTx
  split <;> next h => rw [h]; rfl

theorem takeAnswer_update (s : State) :
    takeAnswer s =
      { s with respAns := s.respAns.tail, draws := if s.respAns.isEmpty then s.draws + 1 else s.draws } := by
  unfold takeAnswer
  split <;> next h => rw [h]; rfl

/-! Encoding and sending a Response (R278, R279). -/

/-- The state after the frame `f` is put into `TXB` and handed to the transport. -/
def replied (now : Time) (f : List Byte) (s : State) : State :=
  { takeTx s with
    txb := Memory.ofBytes f, txn := f.length
    lastTx := if txOk s then now else s.lastTx
    events := s.events ++ .tx f :: if txOk s then [] else [.diag .txFailed] }

section
variable {now : Time} {chunk f : List Byte} {s u : State} {p : Response}

theorem respond_none (now : Time) (s : State) : respond now none s = .ok s := rfl

theorem respond_of_error {e : Fault} (he : encodeResponse p = .error e) : respond now (some p) s = .error e := by
  simp only [respond, he]

theorem respond_of_ok (m : SState) (hf : encodeResponse p = .ok f) :
    respond now (some p) { s with sstate := m } = .ok { replied now f s with sstate := m } := by
  simp only [respond, hf, tx_eq, replied, takeTx_update]
  rfl

/-- A POLL whose service comes to sending `p`, which encodes to `f`, from the state `u`. -/
theorem poll_replies {h : Hit} {r : Request} (hrole : s.params.role = .slave) (hidle : s.sstate = .idle)
    (hready : requestReady now (receive now chunk s) = true)
    (hfind : findS (rxBytes (receive now chunk s)) = .ok (some h))
    (hdec : decodeRequest (rxBytes (receive now chunk s)) h.off = .ok (some r))
    (hserve : serve now r { receive now chunk s with sstate := .requestReceived } =
      respond now (some p) { u with sstate := .requestReceived })
    (hu : u.sstate = .idle) (hf : encodeResponse p = .ok f) :
    exec (.poll now chunk) s = .next { replied now f u with rxb := [], rxn := 0, result := some ⟨.ok, .none⟩ } :=
  poll_of_requestBody hrole hidle hready
    ((requestBody_of_some .requestReceived hfind hdec).trans (hserve.trans (respond_of_ok .requestReceived hf)))
    ((takeTx_sstate u).trans hu)

end

/-! The service of a decoded Request (R276, R277). -/

section
variable {now : Time} {r : Request} {s t : State} {es : List Event} {ans : Option Response}

theorem serve_of_supported (hfn : r.fn ∈ functionCodes) :
    serve now r s = respond now (askHandlers r s) (raiseRequest r s) := by
  rw [serve, if_pos ((isSupported_iff r.fn).mpr hfn)]

theorem serve_of_unsupported (hfn : r.fn ∉ functionCodes) :
    serve now r s = respond now (some (illegalFunction r)) s := by
  rw [serve, if_neg ((isSupported_iff r.fn).not.mpr hfn)]

theorem encodeResponse_illegalFunction (r : Request) :
    encodeResponse (illegalFunction r) = .ok (sealed [r.slave, 0x80 ||| r.fn, 0x01]) :=
  encodeRspEXC_eq _

/-- The consultation is the engine's exchange with the handlers; `SSTATE` plays no part in it. -/
theorem serve_of_consulted (m : SState) (hfn : r.fn ∈ functionCodes) (hcons : consulted r s t es ans) :
    serve now r { s with sstate := m } = respond now ans { t with sstate := m, events := s.events ++ es } := by
  rw [serve_of_supported hfn]
  rcases hcons with ⟨p, hp, rfl, rfl, rfl⟩ | ⟨hp, rfl, rfl, rfl⟩
  · have hp' : handlerAnswer { s with sstate := m } = some p := hp
    simp only [askHandlers, raiseRequest, hp', takeAnswer_update, raise]
  · have hp' : handlerAnswer { s with sstate := m } = none := hp
    simp only [askHandlers, raiseRequest, hp', takeAnswer_update, raise, List.append_assoc]
    rfl

/-- The consultation leaves `SSTATE` and `LASTTX`. -/
theorem consulted_keeps (hcons : consulted r s t es ans) : t.sstate = s.sstate ∧ t.lastTx = s.lastTx := by
  rcases hcons with ⟨p, -, rfl, -, -⟩ | ⟨-, rfl, -, -⟩ <;> simp

end

/-- Settles O56: the service is the engine's own answer, which always encodes. -/
theorem slaveAnswersUnsupported : Obligations.SlaveAnswersUnsupported := by
  rintro s s1 now chunk h r rfl hrole hidle hn hframe hdelay hfind hdec hfn
  have hf := encodeResponse_illegalFunction r
  refine ⟨_, poll_replies hrole hidle (requestReady_receive hn hframe hdelay) hfind hdec (serve_of_unsupported hfn)
    (by simpa using hidle) hf, bytes_ofBytes _, isFrame_bufferOk (encodeResponse_isFrame hf), ?_⟩
  rw [← receive_lastTx now chunk s]
  rfl

/-- Settles O57: the handlers' answer decides whether anything is sent, and its encode whether the POLL faults. -/
theorem slaveServesRequest : Obligations.SlaveServesRequest := by
  rintro s s1 s2 now chunk h r es ans rfl hrole hidle hn hframe hdelay hfind hdec hfn hcons
  have hready := requestReady_receive hn hframe hdelay
  have hserve := serve_of_consulted (now := now) .requestReceived hfn hcons
  have hbody := (requestBody_of_some .requestReceived hfind hdec).trans hserve
  obtain ⟨hsst, hlast⟩ := consulted_keeps hcons
  have hidle2 : s2.sstate = .idle := hsst.trans (by simpa using hidle)
  refine ⟨?_, ?_, ?_⟩
  · rintro rfl
    exact poll_of_requestBody (u := { s2 with events := (receive now chunk s).events ++ es }) hrole hidle hready hbody
      hidle2
  · rintro p e rfl he
    exact poll_of_requestBody_error hrole hidle hready (hbody.trans (respond_of_error he))
  · rintro p f rfl hf
    refine ⟨_, poll_replies (u := { s2 with events := (receive now chunk s).events ++ es }) hrole hidle hready hfind hdec
      hserve hidle2 hf, bytes_ofBytes f, isFrame_bufferOk (encodeResponse_isFrame hf), ?_⟩
    rw [← receive_lastTx now chunk s, ← hlast, replied, takeTx_update, takeTx_update]
    rfl

end Sys2Proof.Machine
end

section
/-! PROOFS. The register file (10_state.md R39) as CFGWR and CFGRD see it (46_transport_and_host.md R300, R301): a number
names at most one register, so a command that names none the role has, or one that is not writable, is refused. -/

namespace Sys2Proof.Machine

open Sys2Proof.Safety

/-- The number of a register (10_state.md R39). -/
def regNumber : Reg → Byte
  | .responseTo => 0x00
  | .frameTo => 0x01
  | .turnaround => 0x02
  | .retries => 0x03
  | .respDelay => 0x04
  | .state => 0x10
  | .rxn => 0x11
  | .qn => 0x12
  | .lastRx => 0x13
  | .lastTx => 0x14
  | .curq => 0x15

theorem regOf_eq_some_iff {number : Byte} {r : Reg} : regOf number = some r ↔ number = regNumber r := by
  constructor
  · intro h
    unfold regOf at h
    repeat'
      split at h
      next hnum =>
        cases h
        exact hnum
    cases h
  · rintro rfl
    cases r <;> rfl

section
variable {s : State}

theorem regAt_eq_some_iff {number : Byte} {r : Reg} :
    regAt s number = some r ↔ number = regNumber r ∧ regExists s.params.role r = true := by
  rw [← regOf_eq_some_iff, regAt]
  cases regOf number with
  | none => exact iff_of_false nofun (fun h => nomatch h.1)
  | some r' =>
    rw [Option.ite_none_right_eq_some, and_comm]
    exact and_congr_right fun h => by rw [Option.some.inj h]

theorem regAt_regNumber {r : Reg} (hex : regExists s.params.role r = true) : regAt s (regNumber r) = some r :=
  regAt_eq_some_iff.mpr ⟨rfl, hex⟩

/-! The two commands, by what the number names. -/

theorem cfgwr_of_writable {r : Reg} (hex : regExists s.params.role r = true) (hw : regWritable r = true) (data : Time) :
    exec (.cfgwr (regNumber r) data) s = answer .none (setReg data s r) := by
  change execCfgwr _ _ _ = _
  rw [execCfgwr, regAt_regNumber hex]
  exact if_pos hw

theorem cfgwr_refused {reg : Byte} {data : Time}
    (hnone : ∀ r, regExists s.params.role r = true → regWritable r = true → reg ≠ regNumber r) :
    Refuses (.cfgwr reg data) s .badReg := by
  change execCfgwr _ _ _ = _
  unfold execCfgwr
  split
  next r hr =>
    obtain ⟨hreg, hex⟩ := regAt_eq_some_iff.mp hr
    exact if_neg fun hw => hnone r hex hw hreg
  next => rfl

theorem cfgrd_answers {r : Reg} (hex : regExists s.params.role r = true) :
    Answers (.cfgrd (regNumber r)) s (.time (regValue s r)) := by
  change execCfgrd _ _ = _
  rw [execCfgrd, regAt_regNumber hex]
  rfl

theorem cfgrd_refused {reg : Byte} (hnone : ∀ r, regExists s.params.role r = true → reg ≠ regNumber r) :
    Refuses (.cfgrd reg) s .badReg := by
  change execCfgrd _ _ = _
  unfold execCfgrd
  split
  next r hr =>
    obtain ⟨hreg, hex⟩ := regAt_eq_some_iff.mp hr
    exact absurd hreg (hnone r hex)
  next => rfl

/-! The registers of each role (10_state.md R39). -/

/-- The writable registers of a MASTER. -/
theorem regNumber_mem_of_master_writable {r : Reg} (hex : regExists .master r = true) (hw : regWritable r = true) :
    regNumber r ∈ [0x00, 0x01, 0x02, 0x03] := by
  revert hex hw
  cases r <;> decide

/-- The writable registers of a SLAVE. -/
theorem regNumber_mem_of_slave_writable {r : Reg} (hex : regExists .slave r = true) (hw : regWritable r = true) :
    regNumber r ∈ [0x01, 0x04] := by
  revert hex hw
  cases r <;> decide

/-- The registers of a MASTER. -/
theorem regNumber_mem_of_master {r : Reg} (hex : regExists .master r = true) :
    regNumber r ∈ [0x00, 0x01, 0x02, 0x03, 0x10, 0x11, 0x12, 0x13, 0x14, 0x15] := by
  revert hex
  cases r <;> decide

/-- The registers of a SLAVE. -/
theorem regNumber_mem_of_slave {r : Reg} (hex : regExists .slave r = true) :
    regNumber r ∈ [0x01, 0x04, 0x10, 0x11, 0x13, 0x14] := by
  revert hex
  cases r <;> decide

end

/-- `trunc_8` as a remainder (46_transport_and_host.md R300). -/
theorem setWidth_eq_ofNat_mod (data : Time) : data.setWidth 8 = BitVec.ofNat 8 (data.toNat % 256) := by
  apply BitVec.eq_of_toNat_eq
  simp

/-- Settles O37: each writable register of the role by its number; any other number names none. -/
theorem configWrite : Obligations.ConfigWrite := by
  intro s reg data
  refine ⟨fun hrole => ?_, cfgwr_of_writable (r := .frameTo) rfl rfl data, fun hrole => ?_, fun hrole hreg => ?_,
    fun hrole hreg => ?_⟩
  · refine ⟨cfgwr_of_writable (r := .responseTo) (by rw [hrole]; rfl) rfl data,
      cfgwr_of_writable (r := .turnaround) (by rw [hrole]; rfl) rfl data, ?_⟩
    rw [← setWidth_eq_ofNat_mod]
    exact cfgwr_of_writable (r := .retries) (by rw [hrole]; rfl) rfl data
  · exact cfgwr_of_writable (r := .respDelay) (by rw [hrole]; rfl) rfl data
  · exact cfgwr_refused fun r hex hw heq => hreg (heq ▸ regNumber_mem_of_master_writable (hrole ▸ hex) hw)
  · exact cfgwr_refused fun r hex hw heq => hreg (heq ▸ regNumber_mem_of_slave_writable (hrole ▸ hex) hw)

/-- Settles O38: each register of the role by its number; any other number names none. -/
theorem configRead : Obligations.ConfigRead := by
  intro s reg
  refine ⟨cfgrd_answers (r := .frameTo) rfl, cfgrd_answers (r := .rxn) rfl, cfgrd_answers (r := .lastRx) rfl,
    cfgrd_answers (r := .lastTx) rfl, fun hrole => ?_, fun hrole => ?_⟩
  · have hstate : Answers (.cfgrd 0x10) s (.time s.mstate.code) := by
      have h := cfgrd_answers (s := s) (r := .state) rfl
      rwa [regValue, stateCode, hrole] at h
    refine ⟨cfgrd_answers (r := .responseTo) (by rw [hrole]; rfl),
      cfgrd_answers (r := .turnaround) (by rw [hrole]; rfl), ?_, fun hm => by rwa [hm] at hstate,
      fun hm => by rwa [hm] at hstate, cfgrd_answers (r := .qn) (by rw [hrole]; rfl),
      cfgrd_answers (r := .curq) (by rw [hrole]; rfl), fun hreg => ?_⟩
    · rw [BitVec.ofNat_toNat]
      exact cfgrd_answers (r := .retries) (by rw [hrole]; rfl)
    · exact cfgrd_refused fun r hex heq => hreg (heq ▸ regNumber_mem_of_master (hrole ▸ hex))
  · have hstate : Answers (.cfgrd 0x10) s (.time s.sstate.code) := by
      have h := cfgrd_answers (s := s) (r := .state) rfl
      rwa [regValue, stateCode, hrole] at h
    exact ⟨cfgrd_answers (r := .respDelay) (by rw [hrole]; rfl), fun hm => by rwa [hm] at hstate,
      fun hreg => cfgrd_refused fun r hex heq => hreg (heq ▸ regNumber_mem_of_slave (hrole ▸ hex))⟩

end Sys2Proof.Machine
end

section
/-! PROOFS. The receive path (46_transport_and_host.md R290, R291, R297). -/

namespace Sys2Proof.Machine

open Sys2Proof.Laws Sys2Proof.Safety

/-- A chunk written into a memory, read back at any offset. -/
theorem read_writeBytes {m : Memory} (hwf : Memory.wf m = true) (n : Nat) (bs : List Byte) (a : Nat) :
    Memory.read (Memory.writeBytes m n bs) a =
      if n ≤ a ∧ a < n + bs.length then bs.getD (a - n) 0 else Memory.read m a := by
  split
  next hin =>
    obtain ⟨i, rfl⟩ := Nat.exists_eq_add_of_le hin.1
    have hi : i < bs.length := by omega
    rw [read_writeBytes_at hwf hi, Nat.add_sub_cancel_left, List.getD_eq_getElem _ _ hi]
  next hout =>
    rcases Nat.lt_or_ge a n with hlt | hge
    · exact read_writeBytes_below bs hlt
    · exact read_writeBytes_above bs (by omega)

section
variable {now : Time} {chunk : List Byte} {s : State}

theorem receive_of_ne_nil (hne : chunk ≠ []) : receive now chunk s = append now chunk s := by
  obtain ⟨b, bs, rfl⟩ := List.exists_cons_of_ne_nil hne
  exact receive_cons now b bs s

/-- A chunk that fits is stored at the fill count (R291). -/
theorem receive_fit (hne : chunk ≠ []) (hfit : s.rxn + chunk.length ≤ Config.rxCap) :
    receive now chunk s =
      { s with rxb := Memory.writeBytes s.rxb s.rxn chunk, rxn := s.rxn + chunk.length, lastRx := now,
               events := s.events ++ [.rx chunk] } := by
  rw [receive_of_ne_nil hne, append, store_fit hfit]
  rfl

/-- A chunk that does not fit empties the buffer and is lost (R291). -/
theorem receive_overflow (hne : chunk ≠ []) (hover : Config.rxCap < s.rxn + chunk.length) :
    receive now chunk s = { s with rxb := [], rxn := 0, lastRx := now, events := s.events ++ [.rx chunk] } := by
  rw [receive_of_ne_nil hne, append, store_overflow hover]
  rfl

end

/-- Settles O39: an RXPUSH is the append, which stores the chunk or overflows. -/
theorem rxPush : Obligations.RxPush := by
  intro s now chunk hbuf
  have hwf : Memory.wf s.rxb = true := (Bool.and_eq_true_iff.mp (Bool.and_eq_true_iff.mp hbuf).1).1
  refine ⟨?_, fun hne hfit => ⟨_, exec_rxpush now chunk s, ?_⟩, fun hover hne => ?_⟩
  · rintro rfl
    rfl
  · rw [receive_fit hne hfit]
    exact ⟨bytes_writeBytes s.rxn chunk hwf, writeBytes_bufferOk hbuf hfit, read_writeBytes hwf s.rxn chunk, rfl⟩
  · rw [exec_rxpush, receive_overflow hne hover]
    rfl

/-- The end of a POLL writes the result port whatever stood there. -/
theorem finish_map_withResult (r : Option Result) (x : Except Fault State) :
    finish (x.map (withResult r)) = finish x := by
  cases x <;> rfl

/-- Settles O40: the append is the same, and the state action reads nothing of the result port that RXPUSH wrote. -/
theorem pollIsPushThenPoll : Obligations.PollIsPushThenPoll := by
  intro s t now chunk hpush
  rw [exec_rxpush] at hpush
  cases hpush
  have hact := stateAction_withResult now (some ⟨.ok, .none⟩) (receive now chunk s)
  calc exec (.poll now chunk) s
    _ = finish ((stateAction now (receive now chunk s)).map (withResult (some ⟨.ok, .none⟩))) :=
        (finish_map_withResult _ _).symm
    _ = exec (.poll now []) (setResult .ok .none (receive now chunk s)) := congrArg finish hact.symm

end Sys2Proof.Machine
end

section
/-! PROOFS. What each instruction leaves as it was (46_transport_and_host.md R304): one lemma for each end a command can
have, then the 38 instructions by the end they have. -/

namespace Sys2Proof.Machine

open Sys2Proof.Laws Sys2Proof.Safety

section
variable {s t : State}

theorem frame_of_answer {v : Value} (h : answer v s = .next t) : t = { s with result := t.result } := by
  cases h
  rfl

theorem frame_of_refuse {st : Status} (h : refuse st s = .next t) : t = { s with result := t.result } := by
  cases h
  rfl

theorem onMaster_next {k : State → Host.Outcome State Fault Refusal} (h : onMaster s k = .next t) :
    k s = .next t ∨ refuse .illegalCmd s = .next t := by
  unfold onMaster at h
  split at h
  · exact .inl h
  · exact .inr h

/-- A query of the queue writes the result port alone, whether it is accepted or refused (44_master_engine.md R250,
R251). -/
theorem frame_of_query {v : State → Value} (h : onMaster s (fun s => answer (v s) s) = .next t) :
    t = { s with result := t.result } :=
  (onMaster_next h).elim frame_of_answer frame_of_refuse

theorem frame_of_enq {r : Request} (h : enq r s = .next t) : t = { s with q := t.q, result := t.result } := by
  obtain ⟨u, hu, hcases⟩ := enq_next r s
  cases hu.symm.trans h
  rcases hcases with ⟨st, rfl⟩ | ⟨-, -, -, rfl⟩ <;> rfl

theorem frame_of_qclear (h : execQclear s = .next t) :
    t = { s with q := t.q, curq := t.curq, result := t.result } := by
  rcases onMaster_next h with h | h <;> cases h <;> rfl

/-- CFGWR writes one of the five configuration registers or none (R300). -/
theorem frame_of_cfgwr {reg : Byte} {data : Time} (h : execCfgwr reg data s = .next t) :
    t = { s with responseTo := t.responseTo, frameTo := t.frameTo, turnaround := t.turnaround, retries := t.retries,
                 respDelay := t.respDelay, result := t.result } := by
  unfold execCfgwr at h
  split at h
  next r _ =>
    split at h
    · cases h
      cases r <;> rfl
    · cases h
      rfl
  next =>
    cases h
    rfl

theorem frame_of_cfgrd {reg : Byte} (h : execCfgrd reg s = .next t) : t = { s with result := t.result } := by
  unfold execCfgrd at h
  split at h
  · exact frame_of_answer h
  · exact frame_of_refuse h

/-- An encode form writes `TXB` and `TXN` (42_frame_encode.md R154, R163). -/
theorem frame_of_buildFrame {e : Except Fault (List Byte)} (h : buildFrame e s = .next t) :
    t = { s with txb := t.txb, txn := t.txn, result := t.result } := by
  obtain ⟨f, -, rfl⟩ := buildFrame_next h
  rfl

/-- A decode form writes nothing (43_frame_decode_sync.md R202). -/
theorem frame_of_showRequest {e : Except Fault (Option Request)} (h : showRequest e s = .next t) :
    t = { s with result := t.result } := by
  obtain ⟨r, -, rfl⟩ := showRequest_next h
  rfl

/-- A decode form writes nothing (43_frame_decode_sync.md R192). -/
theorem frame_of_showResponse {e : Except Fault (Option Response)} (h : showResponse e s = .next t) :
    t = { s with result := t.result } := by
  obtain ⟨p, -, rfl⟩ := showResponse_next h
  rfl

theorem frame_of_rxpush {now : Time} {chunk : List Byte} (h : exec (.rxpush now chunk) s = .next t) :
    frameOf (.rxpush now chunk) s t := by
  rw [exec_rxpush] at h
  cases h
  exact state_ext (by simp)

/-- A POLL writes what its role's state action does not keep, after the append (44_master_engine.md R230,
45_slave_engine.md R272). -/
theorem frame_of_poll {now : Time} {chunk : List Byte} (h : exec (.poll now chunk) s = .next t) :
    frameOf (.poll now chunk) s t := by
  obtain ⟨u, hact, rfl⟩ := poll_next h
  rw [stateAction, receive_params] at hact
  rw [frameOf]
  cases hrole : s.params.role with
  | master =>
    rw [hrole] at hact
    obtain ⟨⟨hparams, hresp, hframe, hturn, hretries, hdelay, hinputs, -, -⟩, hsstate, hans⟩ := masterAction_keeps hact
    exact state_ext (by simp [hparams, hresp, hframe, hturn, hretries, hdelay, hinputs, hsstate, hans])
  | slave =>
    rw [hrole] at hact
    obtain ⟨⟨hparams, hresp, hframe, hturn, hretries, hdelay, hinputs, -, -⟩, hmstate, hq, hcur, hcurq, hhandled⟩ :=
      slaveAction_keeps hact
    exact state_ext (by
      simp [hparams, hresp, hframe, hturn, hretries, hdelay, hinputs, hmstate, hq, hcur, hcurq, hhandled])

end

/-- Settles O43: every instruction by the end it has. -/
theorem commandFrames : Obligations.CommandFrames := by
  intro i s t h
  cases i with
  | enqRC | enqRHR | enqRIR | enqWSC | enqWSR | enqWMC | enqWMR | enqRFR => exact frame_of_enq h
  | poll now chunk => exact frame_of_poll h
  | rxpush now chunk => exact frame_of_rxpush h
  | cfgwr reg data => exact frame_of_cfgwr h
  | cfgrd reg => exact frame_of_cfgrd h
  | qclear => exact frame_of_qclear h
  | qcount => exact frame_of_query (v := fun s => .count s.q.length) h
  | qempty => exact frame_of_query (v := fun s => .bool (decide (s.q.length = 0))) h
  | crc16 | putw | getw | putwf | getwf => exact frame_of_answer h
  | reqRC f | reqRHR f | reqRIR f | reqWSC f | reqWSR f | reqWMC f | reqWMR f | reqRFR f | reqUNSUP f =>
    cases f <;>
      simp only [exec, execReqRC, execReqRHR, execReqRIR, execReqWSC, execReqWSR, execReqWMC,
        execReqWMR, execReqRFR, execReqUNSUP] at h
    · exact frame_of_buildFrame h
    · exact frame_of_showRequest h
  | rspRC f | rspRHR f | rspRIR f | rspWSC f | rspWSR f | rspWMC f | rspWMR f | rspRFR f | rspEXC f =>
    cases f <;>
      simp only [exec, execRspRC, execRspRHR, execRspRIR, execRspWSC, execRspWSR, execRspWMC,
        execRspWMR, execRspRFR, execRspEXC] at h
    · exact frame_of_buildFrame h
    · exact frame_of_showResponse h

end Sys2Proof.Machine
end

section
/-! PROOFS. The reset input (70_reset_and_hazards.md R350) and elapsed time (60_exceptions.md R331). -/

namespace Sys2Proof.Machine

@[simp] theorem takeInput_rst (beside : Option PortWord) (s : State) :
    takeInput (.rst beside) s = .next (applyReset s) := rfl

/-- Settles O6: the input is taken off the port, and the reset writes every field by its own value. -/
theorem resetInput : Obligations.ResetInput := by
  intro s beside rest hin
  refine ⟨applyReset { s with inputs := rest }, ?_, by simp⟩
  rw [step_of_inputs_cons hin, takeInput_rst]

/-- Elapsed time in integers: the difference of the two times, wrapped. -/
theorem delta_toNat (now t : Time) :
    ((delta now t).toNat : Int) = ((now.toNat : Int) - t.toNat) % (2 ^ 32 : Nat) := by
  rw [delta, BitVec.toNat_sub]
  omega

theorem elapsed_iff {now t threshold : Time} :
    elapsed now t threshold = true ↔ threshold.toNat ≤ (delta now t).toNat := by
  rw [elapsed, decide_eq_true_iff, BitVec.le_def]

/-- Settles O41: the two facts, each on its own. -/
theorem elapsedTime : Obligations.ElapsedTime := fun now t _ => ⟨delta_toNat now t, elapsed_iff⟩

end Sys2Proof.Machine
end

section
/-! PROOFS. The faults a POLL can end in (60_exceptions.md R315, 20_memory.md R64): one lemma per state action, from
what the encoders can fault with and the scans never do. -/

namespace Sys2Proof.Machine

open Sys2Proof.Laws Sys2Proof.Safety

/-! The state action of a master: only the encode of the head can fault. -/

section
variable {now : Time} {s : State} {e : Fault}

theorem transmitHead_error {r : Request} (hshape : requestShape r = true) (hact : transmitHead now r s = .error e) :
    e = .encodeOverflow := by
  cases hf : encodeRequest r with
  | ok f =>
    rw [transmitHead_of_ok hf] at hact
    cases hact
  | error e' =>
    rw [transmitHead_of_error hf] at hact
    cases hact
    exact List.mem_singleton.mp (encodeRequest_faults hshape e hf)

theorem idleAction_error (h : Inv s) (hact : idleAction now s = .error e) : e = .encodeOverflow := by
  cases hq : s.q with
  | nil =>
    rw [idleAction_of_nil hq] at hact
    cases hact
  | cons r rest =>
    by_cases hdue : turnaroundPassed now s = true
    · rw [idleAction_of_due hq hdue] at hact
      exact transmitHead_error (h.entries r (hq ▸ List.mem_cons_self ..)) hact
    · rw [idleAction_of_not_due hdue] at hact
      cases hact

/-- A master that waits with a loaded `CUR` of the right shape faults on nothing (44_master_engine.md R234, R244). -/
theorem waitingAction_total (now : Time) (hshape : requestShape s.cur = true) : ∃ t, waitingAction now s = .ok t := by
  by_cases hend : frameEnded now s = true
  · obtain ⟨p, hp⟩ := findResponse_total (rxBytes s) hshape
    exact ⟨_, (waitingAction_of_frameEnded hend).trans (receivedAction_of_ok hp)⟩
  by_cases hout : responseTimedOut now s = true
  · exact ⟨_, waitingAction_of_timedOut hout⟩
  · exact ⟨s, waitingAction_of_neither hend hout⟩

theorem requestShape_of_waiting (h : mstateOk s = true) (hm : s.mstate = .waitingForResponse) :
    requestShape s.cur = true := by
  rw [mstateOk, hm] at h
  exact (Bool.and_eq_true_iff.mp h).2

theorem mstate_ne_responseReceived (h : mstateOk s = true) : s.mstate ≠ .responseReceived := by
  intro hm
  rw [mstateOk, hm] at h
  cases h

theorem masterAction_error (h : Inv s) (hact : masterAction now s = .error e) : e = .encodeOverflow := by
  cases hm : s.mstate with
  | idle =>
    rw [masterAction_of_idle hm] at hact
    exact idleAction_error h hact
  | waitingForResponse =>
    obtain ⟨t, ht⟩ := waitingAction_total now (requestShape_of_waiting h.mst hm)
    rw [masterAction_of_waiting hm, ht] at hact
    cases hact
  | responseReceived => exact absurd hm (mstate_ne_responseReceived h.mst)

/-! The state action of a slave: only the encode of a Response can fault. -/

theorem respond_error {p : Option Response} (hact : respond now p s = .error e) : e ∈ Laws.encodeFaults := by
  cases p with
  | none => cases hact
  | some p =>
    cases hf : encodeResponse p with
    | ok f =>
      rw [respond, hf] at hact
      cases hact
    | error e' =>
      rw [respond_of_error hf] at hact
      cases hact
      exact encodeResponse_faults p e hf

theorem serve_error {r : Request} (hact : serve now r s = .error e) : e ∈ Laws.encodeFaults := by
  by_cases hfn : r.fn ∈ functionCodes
  · rw [serve_of_supported hfn] at hact
    exact respond_error hact
  · rw [serve_of_unsupported hfn] at hact
    exact respond_error hact

/-- The scan and the decode of a slave fault on nothing (20_memory.md R64). -/
theorem findRequest_total (B : List Byte) : ∃ q, findRequest B = .ok q := by
  rcases slaveScanFindsLeast B with ⟨h, hfind, hvalid, -⟩ | ⟨hfind, -⟩
  · rw [findRequest_of_some hfind]
    exact decodeRequest_total hvalid
  · exact ⟨none, findRequest_of_none hfind⟩

theorem requestBody_error (hact : requestBody now s = .error e) : e ∈ Laws.encodeFaults := by
  obtain ⟨q, hq⟩ := findRequest_total (rxBytes s)
  rw [requestBody, hq] at hact
  cases q with
  | none => cases hact
  | some r => exact serve_error hact

theorem requestAction_error (hact : requestAction now s = .error e) : e ∈ Laws.encodeFaults := by
  cases hbody : requestBody now s with
  | ok u =>
    rw [requestAction, hbody] at hact
    cases hact
  | error e' =>
    rw [requestAction, hbody] at hact
    cases hact
    exact requestBody_error hbody

theorem slaveAction_error (hidle : s.sstate = .idle) (hact : slaveAction now s = .error e) :
    e ∈ Laws.encodeFaults := by
  by_cases hready : requestReady now s = true
  · rw [slaveAction_of_ready hidle hready] at hact
    exact requestAction_error hact
  · rw [slaveAction_of_not_ready hidle hready] at hact
    cases hact

end

/-- Settles O60: by the role, then by whether its state action completes. -/
theorem pollFaultsByName : Obligations.PollFaultsByName := by
  intro s now chunk h
  have hreceived := inv_receive h now chunk
  cases hrole : s.params.role with
  | master =>
    rw [poll_master hrole]
    cases hact : masterAction now (receive now chunk s) with
    | ok t => exact .inl ⟨_, rfl⟩
    | error e =>
      rw [masterAction_error hreceived hact]
      exact .inr (.inl rfl)
  | slave =>
    rw [poll_slave hrole]
    cases hact : slaveAction now (receive now chunk s) with
    | ok t => exact .inl ⟨_, rfl⟩
    | error e =>
      have he : e = .encodeOverflow ∨ e = .encodeUnsupported ∨ e = .badShape := by
        simpa using slaveAction_error hreceived.sst hact
      rcases he with rfl | rfl | rfl
      · exact .inr (.inl rfl)
      · exact .inr (.inr ⟨rfl, .inl rfl⟩)
      · exact .inr (.inr ⟨rfl, .inr rfl⟩)

end Sys2Proof.Machine
end
